-- ==== Sys2Proof/Word.lean ====
section
/-!
DEFINITION. The value types every layer shares: the byte (rule R60: every element of every address space is one
byte), the one-bit name of a waveform buffer, and the two encoded forms of a step (rules R98 and R103).
-/

namespace Sys2Proof

/-- One byte: a slot, a pixel channel, a port value (rules R7 `SLOT_WIDTH`, R60). -/
abbrev Byte := BitVec 8

/-- Which of the two waveform buffers (rules R26, R30, R40), a one-bit value: `false` is `waveform_buffer[0]` and
`true` is `waveform_buffer[1]`, so that `1 - h` is `!h`. -/
abbrev Half := Bool

/-- The two encoded forms of a step: a 64-bit host command word (rule R98) or a 3-bit event vector (rule R103). They
travel on different wires, so a word of one form is never read as the other. -/
inductive Packet where
  /-- `CMD64`: one host step is one 64-bit command word. -/
  | command (word : BitVec 64)
  /-- `EVT3`: `ev[2] = req_idle`, `ev[1] = req_enc`, `ev[0] = irq_half`. -/
  | event (vector : BitVec 3)
  deriving DecidableEq, Repr

/-- Who is given the next turn (rule R15): the host with a command word, or one of the two agents whose step the
state alone decides (rule R103: "The vector is not chosen freely"). -/
inductive Turn where
  /-- The host issues this command word; it may issue any word in any state (rule R286). -/
  | host (word : BitVec 64)
  /-- The timer with its two transfer engines takes its enabled step, if it has one. -/
  | timer
  /-- The refill controller takes its enabled step, if it has one. -/
  | refill
  deriving DecidableEq, Repr, Inhabited

end Sys2Proof
end

