-- ==== Sys2Proof/Config.lean ====
section
/-!
DEFINITION. The parameters of rules R7 to R10 and the free values: what the spec fixes or decides is a constant here,
what it leaves open is an opaque constant of which nothing can be proved.
-/

namespace Sys2Proof.Config

/-! ### Fixed by the source (rule R7) -/

/-- `MAX_CAPACITY`: the largest legal `capacity`. -/
def maxCapacity : Nat := 1024
/-- `LEDS_PER_HALF`. -/
def ledsPerHalf : Nat := 6
/-- `BITS_PER_LED`. -/
def bitsPerLed : Nat := 24
/-- `SLOTS_PER_BIT`: the even slot and the odd slot of a bit cell. -/
def slotsPerBit : Nat := 2
/-- `SLOTS_PER_HALF` = `LEDS_PER_HALF * BITS_PER_LED * SLOTS_PER_BIT` = 288. -/
def slotsPerHalf : Nat := ledsPerHalf * bitsPerLed * slotsPerBit

/-! ### Derived (rule R8) -/

/-- `BYTES_PER_LED`: one byte per channel. -/
def bytesPerLed : Nat := 3
/-- `BYTES_PER_HALF` = 18. -/
def bytesPerHalf : Nat := ledsPerHalf * bytesPerLed
/-- `CELLS_PER_HALF` = 144. -/
def cellsPerHalf : Nat := slotsPerHalf / slotsPerBit
/-- `TICKS_PER_CELL`: one idle-channel transfer and two encode-channel transfers. -/
def ticksPerCell : Nat := 3
/-- `TICKS_PER_HALF` = 432. -/
def ticksPerHalf : Nat := cellsPerHalf * ticksPerCell
/-- `MAX_STREAM_BYTES` = 3072. -/
def maxStreamBytes : Nat := maxCapacity * bytesPerLed
/-- `MAX_DATA_HALVES` = 171. -/
def maxDataHalves : Nat := (maxCapacity + ledsPerHalf - 1) / ledsPerHalf

/-! ### Decided by the spec (rule R9; notes/assumptions/12.md) -/

/-- `DRAIN_HALVES` = 1 (rule R209, 92_eei_decisions.md D14). -/
def drainHalves : Nat := 1
/-- `PIXEL_RAM_LEDS` = 1024 (rule R122, D9). -/
def pixelRamLeds : Nat := 1024
/-- `PIN_COUNT` = 16 (rule R97, D4). -/
def pinCount : Nat := 16

/-- The two values of `TAIL_POLICY` (rule R156). -/
inductive TailPolicy where
  /-- Every even slot after the last encoded byte is written 0. -/
  | padIdle
  /-- The tail keeps what the previous fill of that buffer left (rule R282). -/
  | keepStale
  deriving DecidableEq, Repr

/-- `TAIL_POLICY = pad_idle` (rule R156, D11, 90_conflicts.md C1). -/
def tailPolicy : TailPolicy := .padIdle

/-! ### Left open (rule R9) -/

/-- `PIXEL_INIT` (rules R23, R52; 93_implementation_defined.md U8): the byte that stream index `j` holds after the INIT
that made draw number `draw`. A FREE VALUE: unspecified but stable, "a draw made once at INIT" (notes/assumptions/3.md). -/
opaque pixelInit : Nat → Nat → BitVec 8

/-- Which agent takes its turn when the outside world has fixed none: "any agent whose step is enabled may take it
next" (rule R15, R72, R243; U12), and the host may issue any word (rule R286). A FREE VALUE of the draw number (notes/assumptions/4.md). -/
opaque freeTurn : Nat → Turn

/-- `T_CELL`, the configuration's `bit_cell_period` (rules R7, R10); no rule depends on its value (notes/assumptions/15.md). -/
opaque tCell : Nat
/-- `T_EARLY`, the offset of the even-slot transfer from the start of the bit cell (rule R9; U10). -/
opaque tEarly : Nat
/-- `T_LATE`, the offset of the odd-slot transfer from the start of the bit cell (rule R9; U10). -/
opaque tLate : Nat

end Sys2Proof.Config
end

