-- ==== Sys2Proof/Machine/State.lean ====
section
/-!
DEFINITION. All state of WS2811-ENC (10_state.md) as plain data, the reasons a step can stop, and the state right after
power-on (rule R52, column "power-on").
-/

namespace Sys2Proof.Machine

/-- The byte-wide address spaces (rule R60); the two ports are write-only and hold nothing. "The spaces do not overlap
and have no numeric base addresses", so each is indexed from 0. -/
inductive Space where
  /-- `PIX`: the pixel byte stream, a view of `pixels` (rule R61). -/
  | pix
  /-- `WB0` and `WB1`: `waveform_buffer[h]` (rule R62). -/
  | wb (h : Half)
  /-- `ISB`: the idle slot buffer (rule R63). -/
  | isb
  deriving DecidableEq, Repr

/-- The two write-only ports (rules R60, R64). -/
inductive Port where
  | pulseStart
  | pulseEnd
  deriving DecidableEq, Repr

/-- `phase`: the state machine over `{idle, filling_first_half, streaming, draining}` (rules R36, R200). -/
inductive Phase where
  | idle
  | fillingFirstHalf
  | streaming
  | draining
  deriving DecidableEq, Repr

/-- `tim_phase`: which of the three events of a bit cell the timer raises next (rule R38). -/
inductive TimPhase where
  | start
  | even
  | odd
  deriving DecidableEq, Repr

/-- `pin_level`: HIGH is the pulse-start level and LOW the pulse-end level (rule R43). -/
inductive Level where
  | low
  | high
  deriving DecidableEq, Repr

/-- A bit-cell symbol: ZERO is a short pulse, ONE a long pulse (rule R47). -/
inductive Symbol where
  | zero
  | one
  deriving DecidableEq, Repr

/-- `last_status`: "other values never occur" (rule R45). -/
inductive Status where
  | ok
  | allocationFailure
  | invalidConfiguration
  | indexOutOfRange
  | refused
  deriving DecidableEq, Repr

/-- The contents of one address space: (index, byte) pairs. An index that is not listed holds NO VALUE (a read of it is
a fault: 93_implementation_defined.md U9; notes/assumptions/2.md), so the canonical form is: indices strictly rising. -/
abbrev Memory := List Host.Cell

/-- The canonical form of a memory: indices strictly rising, hence no index twice. No entry can equal what an unlisted
index reads as, since that is no value at all. -/
abbrev Memory.wf (m : Memory) : Prop := m.Pairwise (fun x y => x.1 < y.1)

/-- Every piece of state the spec gives the machine (10_state.md R21 to R47), then the two fields of the model's own
that carry what is left open: the turns the outside world has fixed, and the number of free values drawn (notes/assumptions/3.md, 4.md). -/
structure State where
  /-- R21, 1 bit. -/
  initialized : Bool
  /-- R44, 1 bit, sticky. -/
  halted : Bool
  /-- R45, 4 bits. -/
  lastStatus : Status
  /-- R22, 11 bits. -/
  capacity : BitVec 11
  /-- R23, `pixels`, held as its byte view `PIX` (R61). -/
  pix : Memory
  /-- R24, 12 bits. -/
  cursor : BitVec 12
  /-- R25, 1 bit. -/
  endReached : Bool
  /-- R26, 1 bit. -/
  activeHalf : Half
  /-- R27, 1 bit. -/
  inProgress : Bool
  /-- R28, `gpio_transition_mask`, 8 bits. -/
  mask : Byte
  /-- R29, `idle_slot_buffer`. -/
  isb : Memory
  /-- R30, `waveform_buffer[0]`. -/
  wb0 : Memory
  /-- R30, `waveform_buffer[1]`. -/
  wb1 : Memory
  /-- R36, 2 bits. -/
  phase : Phase
  /-- R37, 2 bits. -/
  drainCount : BitVec 2
  /-- R38, 1 bit. -/
  timEn : Bool
  /-- R38, 2 bits. -/
  timPhase : TimPhase
  /-- R39, 1 bit. -/
  idleEn : Bool
  /-- R40, 1 bit. -/
  encEn : Bool
  /-- R40, 1 bit. -/
  encDbm : Bool
  /-- R40, 1 bit. -/
  encCt : Half
  /-- R40, 9 bits. -/
  encPos : BitVec 9
  /-- R41, 1 bit. -/
  halfDonePending : Bool
  /-- R42, 1 bit, sticky. -/
  refillMissed : Bool
  /-- R43, 1 bit. -/
  pinLevel : Level
  /-- R43, 1 bit. -/
  pinLane : BitVec 1
  /-- R43, 1 bit: 0 push-pull, 1 open-drain. -/
  pinMode : BitVec 1
  /-- R46, ghost, 1 bit. -/
  frameValid : Bool
  /-- R47, ghost. -/
  txCells : List Symbol
  /-- R47, ghost. -/
  wave : List Level
  /-- The MODEL's own: the turns the outside world has fixed, the next one first (R15, R72). -/
  turns : List Turn
  /-- The MODEL's own: how many free values have been drawn. -/
  draws : Nat
  deriving DecidableEq, Repr

/-- Why the machine stops with a fault. No state that a run from reset reaches raises one. -/
inductive Fault where
  /-- A step reads an index outside its address space (rule R68: "An index outside a space's range cannot be produced
  by any rule"). Raised by every read (`State.memRead`); safe. -/
  | noSuchByte (space : Space) (index : Nat)
  /-- A step reads an index of its address space that holds no value, which only a state before INIT can have
  (93_implementation_defined.md U9). Raised by every read (`State.memRead`); safe. -/
  | unwrittenByte (space : Space) (index : Nat)
  deriving DecidableEq, Repr

/-- Why the model gives no step. -/
inductive Refusal where
  /-- Raised by exec's arms for an instruction that has no meaning yet; safe. -/
  | notModelled (mnemonic : String)
  /-- TICK_START, TICK_SLOT or REFILL is asked for in a state whose "Enabled when" line does not hold (rules R15, R177,
  R178, R204): the spec has no transition there. Raised by those three meanings; safe. `step` never asks for it. -/
  | stepNotEnabled (mnemonic : String)
  deriving DecidableEq, Repr

/-- Power-on, the state before any INIT (rules R52, R270). The eight fields with a power-on value, the ghost fields and
the empty memories are the spec's; every other register is "unspec." there and holds the value that
notes/assumptions/1.md names (DESIGN CHOICE). -/
def State.reset : State where
  initialized := false
  halted := false
  lastStatus := .ok
  capacity := 0
  pix := []
  cursor := 0
  endReached := false
  activeHalf := false
  inProgress := false
  mask := 0
  isb := []
  wb0 := []
  wb1 := []
  phase := .idle
  drainCount := 0
  timEn := false
  timPhase := .start
  idleEn := false
  encEn := false
  encDbm := false
  encCt := false
  encPos := 0
  halfDonePending := false
  refillMissed := false
  pinLevel := .low
  pinLane := 0
  pinMode := 0
  frameValid := true
  txCells := []
  wave := []
  turns := []
  draws := 0

end Sys2Proof.Machine
end

