-- ==== Sys2Proof/Machine/Ops.lean ====
section
/-!
DEFINITION. The named operations over memories, ports and the response to the host: `MemRead`, `MemWrite`, `PortWrite`
(rules R13, R60 to R66), ending a host step (`refuse`, `raise`, `status <- OK`: rules R14, R231 to R236), and returning
from the half-buffer-consumed event (rule R245).
-/

namespace Sys2Proof.Machine

/-! ### One memory -/

/-- The byte at an index, if the index holds a value. -/
def Memory.read : Memory → Nat → Option Byte
  | [], _ => none
  | (b, v) :: m, a => if b = a then some v else Memory.read m a

/-- Writing a byte at its place in the rising order of indices. -/
def Memory.write : Memory → Nat → Byte → Memory
  | [], a, v => [(a, v)]
  | (b, u) :: m, a, v =>
    if a < b then (a, v) :: (b, u) :: m
    else if a = b then (a, v) :: m
    else (b, u) :: Memory.write m a v

/-- The memory that lists exactly the indices `0 .. n - 1`, index `a` holding `f a`. -/
def Memory.ofFn (n : Nat) (f : Nat → Byte) : Memory :=
  (List.range n).map (fun a => (a, f a))

/-! ### The address spaces of the Device -/

/-- The contents of a space. -/
def State.mem (s : State) : Space → Memory
  | .pix => s.pix
  | .wb false => s.wb0
  | .wb true => s.wb1
  | .isb => s.isb

/-- The Device with other contents in a space. -/
def State.setMem (s : State) (sp : Space) (m : Memory) : State :=
  match sp with
  | .pix => { s with pix := m }
  | .wb false => { s with wb0 := m }
  | .wb true => { s with wb1 := m }
  | .isb => { s with isb := m }

/-- The end of the pixel byte stream, `3 * capacity` (rules R22, R60, R151). -/
def State.streamEnd (s : State) : Nat := Config.bytesPerLed * s.capacity.toNat

/-- The size of a space in bytes (rule R60). -/
def State.spaceSize (s : State) : Space → Nat
  | .pix => s.streamEnd
  | .wb _ => Config.slotsPerHalf
  | .isb => 1

/-- `MemRead(space, index, 1)` (rule R13). An index outside the space (rule R68) or one that holds no value (U9) is a
fault. -/
def State.memRead (s : State) (sp : Space) (a : Nat) : Except Fault Byte :=
  if a < s.spaceSize sp then
    match Memory.read (s.mem sp) a with
    | some v => .ok v
    | none => .error (.unwrittenByte sp a)
  else .error (.noSuchByte sp a)

/-- `MemWrite(space, index, 1, v)` (rule R13). Every rule computes an index inside the space (rule R68). -/
def State.memWrite (s : State) (sp : Space) (a : Nat) (v : Byte) : State :=
  s.setMem sp (Memory.write (s.mem sp) a v)

/-- `PortWrite(port, v)` (rule R66): a value with the pin's mask bit set drives the pin to the port's level; any other
value is "a deliberate no-op transfer". -/
def State.portWrite (s : State) (port : Port) (v : Byte) : State :=
  if v &&& s.mask ≠ 0 then
    match port with
    | .pulseStart => { s with pinLevel := .high }
    | .pulseEnd => { s with pinLevel := .low }
  else s

/-! ### Ending a host step -/

/-- The 4-bit response to a host step (rules R45, R113). -/
def State.respond (s : State) (st : Status) : State := { s with lastStatus := st }

/-- `refuse`: "no state change other than `last_status <- 15`" (rules R14, R236). -/
def State.refuse (s : State) : State := s.respond .refused

/-- `status <- OK` (rule R14). -/
def State.complete (s : State) : State := s.respond .ok

/-- `raise E`, the one way an error of a host step is taken (rules R230 to R234, R244): nothing is saved and control does
not move; the response is the error's code, and IndexOutOfRange also sets the sticky `halted`. -/
def State.raise (s : State) (e : Status) : State :=
  match e with
  | .indexOutOfRange => { s.respond .indexOutOfRange with halted := true }
  | e => s.respond e

/-- A host step is refused outright when the Device's lifecycle gives it no meaning (rule R236 (b), (d)). -/
def State.deviceReady (s : State) : Bool := s.initialized && !s.halted

/-! ### Returning from the half-buffer-consumed event -/

/-- REFILL "returns" by clearing the latch; "there is no return instruction" (rule R245). -/
def State.returnFromEvent (s : State) : State := { s with halfDonePending := false }

/-- The outcome of a step whose state is computed by operations that may meet a fault. -/
def outcomeOf : Except Fault State → Host.Outcome State Fault Refusal
  | .ok s => .next s
  | .error f => .fault f

end Sys2Proof.Machine
end

