-- ==== Sys2Proof/Machine/Operands.lean ====
section
/-!
DEFINITION. Operand assembly and index arithmetic: the transition mask from the pin (rule R97), INIT's validity checks
(rules R120, R121), the pixel byte view (rule R61), the bit extraction and slot values of the waveform encoding (rules
R91, R94), and where a slot lies in a half-buffer (rule R96).
-/

namespace Sys2Proof.Machine

/-! ### The pin (rule R97) -/

/-- `popcount(v)`: the number of 1 bits (rule R11). -/
def popcount16 (v : BitVec 16) : Nat := (List.range Config.pinCount).countP (fun i => v.getLsbD i)

/-- `log2(v)` of a one-hot `v`: the index of its 1 bit (rule R11), the pin number. -/
def pinNumber (pinMask16 : BitVec 16) : Nat := Nat.log2 pinMask16.toNat

/-- `pin_lane <- p div 8`: which byte half of the 16-bit set/reset register (rules R43, R65). -/
def pinLaneOf (pinMask16 : BitVec 16) : BitVec 1 := BitVec.ofNat 1 (pinNumber pinMask16 / 8)

/-- `gpio_transition_mask <- 1 << (p mod 8)` (rules R28, R97, R120). -/
def transitionMask (pinMask16 : BitVec 16) : Byte := 1#8 <<< (pinNumber pinMask16 % 8)

/-- INIT's checks in their order: range, pin mask, allocation (rules R120, R121, R243 (a)); `pixelRam` is
`PIXEL_RAM_LEDS` (rule R122). -/
def initVerdict (pixelRam : Nat) (maxLeds pinMask16 : BitVec 16) : Status :=
  if maxLeds.toNat < 1 ∨ maxLeds.toNat > Config.maxCapacity then .invalidConfiguration
  else if popcount16 pinMask16 ≠ 1 then .invalidConfiguration
  else if maxLeds.toNat > pixelRam then .allocationFailure
  else .ok

/-! ### The pixel byte view (rule R61) -/

/-- Channel `c` (0 is r, 1 is g, 2 is b) of LED `i` is byte `3 * i + c` of the stream. -/
def pixelIndex (i c : Nat) : Nat := Config.bytesPerLed * i + c

/-- The three byte writes of one pixel (rules R136, R137). -/
def State.writePixel (s : State) (i : Nat) (r g b : Byte) : State :=
  ((s.memWrite .pix (pixelIndex i 0) r).memWrite .pix (pixelIndex i 1) g).memWrite .pix (pixelIndex i 2) b

/-- The same colour in every pixel below `n` (rule R137), in increasing order. -/
def State.writePixels (s : State) (r g b : Byte) : Nat → State
  | 0 => s
  | n + 1 => (State.writePixels s r g b n).writePixel n r g b

/-- `pixels[i]` read through its byte view: the triple `(r, g, b)`, if all three bytes hold a value. -/
def State.pixel (s : State) (i : Nat) : Option (Byte × Byte × Byte) :=
  match Memory.read s.pix (pixelIndex i 0), Memory.read s.pix (pixelIndex i 1), Memory.read s.pix (pixelIndex i 2) with
  | some r, some g, some b => some (r, g, b)
  | _, _, _ => none

/-! ### Bits, slots and cells (rules R91, R94, R96) -/

/-- `(byte >> (7 - j)) AND 1`: bit `j` of a byte counted from the most significant (rules R94, R112 (e)). -/
def byteBit (byte : Byte) (j : Nat) : Bool := byte.getLsbD (7 - j)

/-- The even slot of a data bit: `mask` for a 0 bit (early edge), 0 for a 1 bit (no early edge) (rules R91, R152). -/
def slotFor (mask : Byte) (bit : Bool) : Byte := if bit then 0 else mask

/-- The byte offset of the even slot of bit cell `k` of a half (rules R62, R96). -/
def evenSlot (k : Nat) : Nat := 2 * k

/-- The byte offset of the odd slot of bit cell `k` of a half (rules R62, R96). -/
def oddSlot (k : Nat) : Nat := 2 * k + 1

/-- The idle pattern: every even slot 0, every odd slot `mask` (rules R17, R30). -/
def idlePattern (mask : Byte) : Memory :=
  Memory.ofFn Config.slotsPerHalf (fun a => if a % 2 = 0 then 0 else mask)

/-- Writing `f 0 .. f (n - 1)` into the even slots of cells `k .. k + n - 1` of half `h`, in increasing order. Odd slots
are never written (rules R153, R279). -/
def State.writeEvenSlots (s : State) (h : Half) (k : Nat) (f : Nat → Byte) : Nat → State
  | 0 => s
  | n + 1 => (State.writeEvenSlots s h k f n).memWrite (.wb h) (evenSlot (k + n)) (f n)

end Sys2Proof.Machine
end

