-- ==== Sys2Proof/Machine/Flags.lean ====
section
/-!
DEFINITION. Every flag computation (rule R49), when each hardware and refill step is enabled, and the numeric codes of
the enumerated fields (rules R36, R38, R43, R45).
-/

namespace Sys2Proof.Machine

/-! ### Enabling conditions -/

/-- TICK_START: `tim_en = 1` and `tim_phase = START` (rule R177). -/
def State.tickStartEnabled (s : State) : Bool := s.timEn && s.timPhase == .start

/-- TICK_SLOT: `tim_en = 1` and `tim_phase` is `EVEN` or `ODD` (rule R178). -/
def State.tickSlotEnabled (s : State) : Bool := s.timEn && (s.timPhase == .even || s.timPhase == .odd)

/-- REFILL: `half_done_pending = 1` (rule R204). -/
def State.refillEnabled (s : State) : Bool := s.halfDonePending

/-! ### Pointers, counters and the frame's state -/

/-- `cursor <- c` (rule R24). -/
def State.setCursor (s : State) (c : BitVec 12) : State := { s with cursor := c }

/-- `drain_count <- drain_count + 1` (rules R37, R158, R112 (c)). -/
def State.countDrain (s : State) : State := { s with drainCount := s.drainCount + 1 }

/-- `phase <- p` (rules R36, R206). -/
def State.setPhase (s : State) (p : Phase) : State := { s with phase := p }

/-- `active_half <- 1 - active_half`: the Refill Controller's own record of the half being read (rules R26, R205). -/
def State.toggleActive (s : State) : State := { s with activeHalf := !s.activeHalf }

/-! ### Flags -/

/-- The boundary flag: `reached = (cursor after the fill = 3 * capacity)` (rule R155). -/
def State.updateEndReached (s : State) : State :=
  { s with endReached := decide (s.cursor.toNat = s.streamEnd) }

/-- A pixel write while a frame is in flight voids the frame: `if in_progress = 1 then frame_valid <- 0` (rules R46, R74,
R139). -/
def State.taintFrame (s : State) : State := { s with frameValid := s.frameValid && !s.inProgress }

/-- The half-buffer-consumed event: a second event while one is pending is a missed deadline; the latch is set (rules
R41, R42, R178, R241). -/
def State.raiseHalfDone (s : State) : State :=
  { s with refillMissed := s.refillMissed || s.halfDonePending, halfDonePending := true }

/-- The ghost state of a new frame: `frame_valid <- 1; tx_cells <- []; wave <- []` (rules R46, R47, R201). -/
def State.clearTraces (s : State) : State := { s with frameValid := true, txCells := [], wave := [] }

/-- The symbol of the cell whose odd slot arrives: `ONE` if the pin is still HIGH, `ZERO` if it is LOW (rules R47, R92,
R184). -/
def Level.symbol : Level → Symbol
  | .high => .one
  | .low => .zero

/-- TICK_SLOT appends one symbol at every odd-slot transfer, before that step's port write (rules R178, R184). -/
def State.recordCell (s : State) : State :=
  if s.timPhase = .odd then { s with txCells := s.txCells ++ [s.pinLevel.symbol] } else s

/-- Every TICK appends the pin level after its port write (rules R47, R184). -/
def State.recordLevel (s : State) : State := { s with wave := s.wave ++ [s.pinLevel] }

/-- `tim_phase` advances START, EVEN, ODD, START (rules R38, R176). -/
def TimPhase.next : TimPhase → TimPhase
  | .start => .even
  | .even => .odd
  | .odd => .start

/-! ### Numeric codes -/

/-- `last_status`: 0 OK, 1 AllocationFailure, 2 InvalidConfiguration, 3 IndexOutOfRange, 15 Refused (rules R45, R231). -/
def Status.code : Status → BitVec 4
  | .ok => 0
  | .allocationFailure => 1
  | .invalidConfiguration => 2
  | .indexOutOfRange => 3
  | .refused => 15

/-- `phase`: `IDLE` 0, `FILLING_FIRST_HALF` 1, `STREAMING` 2, `DRAINING` 3 (rule R36). -/
def Phase.code : Phase → BitVec 2
  | .idle => 0
  | .fillingFirstHalf => 1
  | .streaming => 2
  | .draining => 3

/-- `tim_phase`: `START` 0, `EVEN` 1, `ODD` 2 (rule R38). -/
def TimPhase.code : TimPhase → BitVec 2
  | .start => 0
  | .even => 1
  | .odd => 2

/-- `pin_level`: `LOW` 0, `HIGH` 1 (rule R43). -/
def Level.code : Level → BitVec 1
  | .low => 0
  | .high => 1

end Sys2Proof.Machine
end

