-- ==== Sys2Proof/Machine/Device.lean ====
section
/-!
DEFINITION. Device construction: INIT (40_device_init.md, rules R120 to R127).
-/

namespace Sys2Proof.Machine

/-- What a successful INIT establishes (rules R120, R123; rule R52, column "after successful INIT"): every field of the
Device. `pixels` takes a fresh draw of `PIXEL_INIT` (rule R23), a free value; both buffers take the idle pattern. -/
def State.construct (s : State) (maxLeds pinMask16 : BitVec 16) (drive : BitVec 1) : State :=
  { s with
    capacity := maxLeds.setWidth 11
    pinLane := pinLaneOf pinMask16
    mask := transitionMask pinMask16
    isb := Memory.ofFn 1 (fun _ => transitionMask pinMask16)
    wb0 := idlePattern (transitionMask pinMask16)
    wb1 := idlePattern (transitionMask pinMask16)
    pix := Memory.ofFn (Config.bytesPerLed * maxLeds.toNat) (Config.pixelInit s.draws)
    draws := s.draws + 1
    cursor := 0
    endReached := false
    activeHalf := false
    inProgress := false
    phase := .idle
    drainCount := 0
    timEn := false
    idleEn := false
    encEn := false
    encDbm := false
    timPhase := .start
    encCt := false
    encPos := 0
    halfDonePending := false
    refillMissed := false
    pinMode := drive
    pinLevel := .low
    frameValid := true
    txCells := []
    wave := []
    initialized := true }

/-- INIT (rule R120). Refused when a Device exists or after a halt (rule R125); a failed INIT changes nothing but
`last_status` (rule R124). -/
def execInit (maxLeds pinMask16 : BitVec 16) (drive : BitVec 1) (s : State) : Host.Outcome State Fault Refusal :=
  if s.initialized || s.halted then .next s.refuse
  else
    match initVerdict Config.pixelRamLeds maxLeds pinMask16 with
    | .ok => .next (s.construct maxLeds pinMask16 drive).complete
    | e => .next (s.raise e)

end Sys2Proof.Machine
end

