-- ==== Sys2Proof/Machine/PixelStore.lean ====
section
/-!
DEFINITION. The Pixel Store: SET and SET_ALL (41_pixel_store.md, rules R135 to R140).
-/

namespace Sys2Proof.Machine

/-- SET (rule R136): one pixel, or IndexOutOfRange (rule R234) with no byte written. -/
def execSet (index : BitVec 16) (r g b : Byte) (s : State) : Host.Outcome State Fault Refusal :=
  if !s.deviceReady then .next s.refuse
  else if index.toNat ≥ s.capacity.toNat then .next (s.raise .indexOutOfRange)
  else .next (s.writePixel index.toNat r g b).taintFrame.complete

/-- SET_ALL (rule R137): the same colour in every pixel, in one atomic step. -/
def execSetAll (r g b : Byte) (s : State) : Host.Outcome State Fault Refusal :=
  if !s.deviceReady then .next s.refuse
  else .next (s.writePixels r g b s.capacity.toNat).taintFrame.complete

end Sys2Proof.Machine
end

