-- ==== Sys2Proof/Machine/Encoder.lean ====
section
/-!
DEFINITION. The Bit Encoder: ENCODE_HALF, FILL_IDLE and FILL (42_bit_encoder.md, rules R150 to R161). They are
subroutines, not steps: they run inside TRIGGER_UPDATE and REFILL.
-/

namespace Sys2Proof.Machine

/-- One pixel byte into the eight cells from cell `k` on, most significant bit first (rules R151, R152). -/
def State.encodeByte (s : State) (h : Half) (k : Nat) (byte : Byte) : State :=
  s.writeEvenSlots h k (fun j => slotFor s.mask (byteBit byte j)) 8

/-- ENCODE_HALF's loop (rule R151): `while k < 144 and cursor < end`, with room left for `n` bytes and the next cell `k`.
It answers the first cell that was not encoded. -/
def State.encodeBytes (s : State) (h : Half) (k : Nat) : Nat → Except Fault (Nat × State)
  | 0 => .ok (k, s)
  | n + 1 =>
    if s.cursor.toNat < s.streamEnd then
      match s.memRead .pix s.cursor.toNat with
      | .ok byte => State.encodeBytes ((s.encodeByte h k byte).setCursor (s.cursor + 1)) h (k + 8) n
      | .error f => .error f
    else .ok (k, s)

/-- The tail of a short half from cell `k` on (rule R156): padded with the idle pattern, or left stale (rule R282). -/
def State.padTail (s : State) (policy : Config.TailPolicy) (h : Half) (k : Nat) : State :=
  match policy with
  | .padIdle => s.writeEvenSlots h k (fun _ => 0) (Config.cellsPerHalf - k)
  | .keepStale => s

/-- ENCODE_HALF(h) under a tail policy (rules R150, R151, R155, R156). -/
def State.encodeHalfWith (policy : Config.TailPolicy) (s : State) (h : Half) : Except Fault State :=
  match s.encodeBytes h 0 Config.bytesPerHalf with
  | .ok (k, t) => .ok (t.padTail policy h k).updateEndReached
  | .error f => .error f

/-- ENCODE_HALF(h) under the decided policy `pad_idle` (rule R156, D11). -/
def State.encodeHalf (s : State) (h : Half) : Except Fault State := s.encodeHalfWith Config.tailPolicy h

/-- FILL_IDLE(h): all 144 even slots 0 (rule R157). -/
def State.fillIdle (s : State) (h : Half) : State := s.writeEvenSlots h 0 (fun _ => 0) Config.cellsPerHalf

/-- FILL(h) (rule R158): the idle pattern, counted, once the boundary was reached; the encoder before. -/
def State.fill (s : State) (h : Half) : Except Fault State :=
  if s.endReached then .ok (s.fillIdle h).countDrain
  else s.encodeHalf h

end Sys2Proof.Machine
end

