-- ==== Sys2Proof/Machine/Orchestrator.lean ====
section
/-!
DEFINITION. The Transfer Orchestrator: ARM, STOP, TICK_START and TICK_SLOT (43_transfer_orchestrator.md, rules R170 to
R184).
-/

namespace Sys2Proof.Machine

/-- ARM (rule R174), a sequence: stop and fully reset both engines and the timer; (addresses, counts and pointers are
constants of the model: rules R39, R40, R54); double-buffer mode; enable both engines; "only then start the timer". -/
def State.arm (s : State) : State :=
  let s := { s with timEn := false, idleEn := false, encEn := false }
  let s := { s with timPhase := .start, encPos := 0, encCt := false, halfDonePending := false }
  let s := { s with encDbm := true }
  let s := { s with idleEn := true, encEn := true }
  { s with timEn := true }

/-- STOP (rule R180), a sequence: the timer, the engines, then the pin to its pulse-end level. -/
def State.stop (s : State) : State :=
  let s := { s with timEn := false }
  let s := { s with idleEn := false, encEn := false }
  s.portWrite .pulseEnd s.mask

/-- The end of a TICK: the timer's next event and the ghost sample (rules R177, R178). -/
def State.endTick (s : State) : State := { s with timPhase := s.timPhase.next }.recordLevel

/-- TICK_START (rule R177): the idle channel's transfer at the start of a bit cell. A disabled idle channel makes no
transfer (D26). -/
def execTickStart (s : State) : Host.Outcome State Fault Refusal :=
  if !s.tickStartEnabled then .refused (.stepNotEnabled "TICK_START")
  else if s.idleEn then
    match s.memRead .isb 0 with
    | .ok v => .next (s.portWrite .pulseStart v).endTick
    | .error f => .fault f
  else .next s.endTick

/-- The encode channel's pointer after a transfer: the next slot, or slot 0 of the other buffer with the
half-buffer-consumed event (rules R178, R179, R112 (b)). -/
def State.advanceSlot (s : State) : State :=
  if s.encPos + 1 = BitVec.ofNat 9 Config.slotsPerHalf then
    { s with encPos := 0, encCt := !s.encCt }.raiseHalfDone
  else { s with encPos := s.encPos + 1 }

/-- TICK_SLOT (rule R178): one transfer of the encode channel, whatever the parity of its slot (rule R105). A disabled
encode channel makes no transfer (D26). -/
def execTickSlot (s : State) : Host.Outcome State Fault Refusal :=
  if !s.tickSlotEnabled then .refused (.stepNotEnabled "TICK_SLOT")
  else if s.encEn then
    match s.memRead (.wb s.encCt) s.encPos.toNat with
    | .ok v => .next ((s.recordCell.portWrite .pulseEnd v).advanceSlot).endTick
    | .error f => .fault f
  else .next s.endTick

end Sys2Proof.Machine
end

