-- ==== Sys2Proof/Machine/RefillController.lean ====
section
/-!
DEFINITION. The Refill Controller: TRIGGER_UPDATE, REFILL and the frame state machine (44_refill_controller.md, rules
R200 to R215).
-/

namespace Sys2Proof.Machine

/-- `cursor <- 0; end_reached <- 0; drain_count <- 0`: a new frame starts at the first pixel byte (rules R24, R25, R37,
R201). -/
def State.rewind (s : State) : State := { s with cursor := 0, endReached := false, drainCount := 0 }

/-- The prefill: buffer 0 first, then buffer 1, from `cursor = 0` (rules R201, R203). -/
def State.prefill (s : State) : Except Fault State :=
  match s.rewind.fill false with
  | .ok t => t.fill true
  | .error f => .error f

/-- What an accepted TRIGGER_UPDATE does after the prefill (rules R201, R206). -/
def State.launch (s : State) : State :=
  ({ s.arm with
    activeHalf := false
    inProgress := true
    phase := if s.endReached then .draining else .fillingFirstHalf }).clearTraces.complete

/-- TRIGGER_UPDATE (rule R201); dropped, and not remembered, while a frame is in flight (rule R202). -/
def execTriggerUpdate (s : State) : Host.Outcome State Fault Refusal :=
  if !s.deviceReady then .next s.refuse
  else if s.inProgress then .next s.complete
  else
    match s.prefill with
    | .ok t => .next t.launch
    | .error f => .fault f

/-- The drain is over: `phase = DRAINING and drain_count >= DRAIN_HALVES + 1` (rules R204, R209). -/
def State.drained (s : State) : Bool :=
  s.phase == .draining && decide (s.drainCount.toNat ≥ Config.drainHalves + 1)

/-- The last REFILL of a frame: STOP, and the frame is over (rules R204, R209). -/
def State.finishFrame (s : State) : State := { s.stop with inProgress := false, phase := .idle }

/-- A REFILL that fills half `t`, and the state machine after the fill (rules R204, R206). -/
def State.refillHalf (s : State) (t : Half) : Except Fault State :=
  match s.fill t with
  | .ok u => .ok (u.setPhase (if u.endReached then .draining else .streaming))
  | .error f => .error f

/-- REFILL (rule R204): toggle `active_half`, then end the frame or fill the half just consumed, `1 - active_half` (rule
R205), then return from the event (rule R245). -/
def execRefill (s : State) : Host.Outcome State Fault Refusal :=
  if !s.refillEnabled then .refused (.stepNotEnabled "REFILL")
  else
    if s.toggleActive.drained then .next s.toggleActive.finishFrame.returnFromEvent
    else
      match s.toggleActive.refillHalf (!s.toggleActive.activeHalf) with
      | .ok u => .next u.returnFromEvent
      | .error f => .fault f

end Sys2Proof.Machine
end

