-- ==== Sys2Proof/Syntax.lean ====
section
/-!
DEFINITION. The seven steps of WS2811-ENC (rule R107, `opcode_table.json`), one constructor per row, with the operands
of rules R99 to R106 at their encoded widths.
-/

namespace Sys2Proof

/-- A step. The operands are "unsigned and used as they stand" (rule R98). The subroutines ENCODE_HALF, FILL_IDLE,
FILL, ARM and STOP are not steps (rule R15). -/
inductive Instr where
  /-- `INIT max_leds, pin_mask16, drive` (rules R99, R120); `drive` is 0 for push-pull and 1 for open-drain. -/
  | init (maxLeds : BitVec 16) (pinMask16 : BitVec 16) (drive : BitVec 1)
  /-- `SET index, r, g, b` (rules R100, R136). -/
  | set (index : BitVec 16) (r g b : Byte)
  /-- `SETALL r, g, b` (rules R101, R137). -/
  | setAll (r g b : Byte)
  /-- `TRIGGER` (rules R102, R201). -/
  | triggerUpdate
  /-- The idle channel's transfer at the start of a bit cell (rules R104, R177). -/
  | tickStart
  /-- One transfer of the encode channel (rules R105, R178). -/
  | tickSlot
  /-- The service of one half-buffer-consumed event (rules R106, R204). -/
  | refill
  deriving DecidableEq, Repr

end Sys2Proof
end

