-- ==== Sys2Proof/Machine/Dispatch.lean ====
section
/-!
DEFINITION. One arm per step of `opcode_table.json`, each a direct call of its meaning.
-/

namespace Sys2Proof.Machine

/-- The meaning of a step. -/
def exec (i : Instr) (s : State) : Host.Outcome State Fault Refusal :=
  match i with
  | .init maxLeds pinMask16 drive => Sys2Proof.Machine.execInit maxLeds pinMask16 drive s
  | .set index r g b => Sys2Proof.Machine.execSet index r g b s
  | .setAll r g b => Sys2Proof.Machine.execSetAll r g b s
  | .triggerUpdate => Sys2Proof.Machine.execTriggerUpdate s
  | .tickStart => Sys2Proof.Machine.execTickStart s
  | .tickSlot => Sys2Proof.Machine.execTickSlot s
  | .refill => Sys2Proof.Machine.execRefill s

end Sys2Proof.Machine
end

