-- ==== Sys2Proof/WellFormed.lean ====
section
/-!
DEFINITION. Which encoded forms are legal, read off the match and mask columns of the opcode table (rules R99 to R108),
and the well-formedness of an instruction as syntax.
-/

namespace Sys2Proof

/-- An instruction is well-formed if the encoding of its row can hold its operands. Every operand is typed at its
encoded width and "used as it stands" (rule R98), so each constructor is well-formed for all its operands: the values
the operation itself rejects (rule R98: `max_leds = 2000`, an `index` out of range) decode like any other. -/
def Instr.wellFormed : Instr → Bool
  | .init _ _ _ => true
  | .set _ _ _ _ => true
  | .setAll _ _ _ => true
  | .triggerUpdate => true
  | .tickStart => true
  | .tickSlot => true
  | .refill => true

/-- A row of the opcode table: the bits under `mask` must equal `pattern`. -/
structure CommandRow where
  pattern : BitVec 64
  mask : BitVec 64
  deriving DecidableEq, Repr

/-- `word AND mask = match` (95_test_vectors.md section 2.1). -/
def CommandRow.admits (row : CommandRow) (word : BitVec 64) : Bool :=
  word &&& row.mask == row.pattern

/-- The four `CMD64` rows: INIT, SET, SET_ALL, TRIGGER_UPDATE (rules R99 to R102). -/
def commandRows : List CommandRow :=
  [ ⟨0x0100000000000000#64, 0xFF00000000FFFFFE#64⟩,
    ⟨0x0200000000000000#64, 0xFF0000FFFF000000#64⟩,
    ⟨0x0300000000000000#64, 0xFFFFFFFFFF000000#64⟩,
    ⟨0x0400000000000000#64, 0xFFFFFFFFFFFFFFFF#64⟩ ]

/-- The three `EVT3` vectors: "Exactly one bit is set in a step" (rule R103). -/
def eventRows : List (BitVec 3) := [0b100#3, 0b010#3, 0b001#3]

/-- A legal encoded form: some row of the table admits it; every other form is reserved (rules R107, R108). -/
def Packet.wellFormed : Packet → Bool
  | .command word => commandRows.any (fun row => row.admits word)
  | .event vector => eventRows.contains vector

end Sys2Proof
end

