-- ==== Sys2Proof/Decode.lean ====
section
/-!
DEFINITION. The decoder, total on every command word, event vector and list of bytes, rejecting by name (rules R98 to
R109); the encoder, written from the same tables; and the byte form of a command word (rule R67 (d)).
-/

namespace Sys2Proof

/-- Why an encoded form is reserved (rules R107, R108). -/
inductive DecodeError where
  /-- `CMD64.opcode` is 0x00 or 0x05..0xFF. -/
  | reservedOpcode (opcode : BitVec 8)
  /-- `a16` must be 0 for this opcode. -/
  | nonzeroA16
  /-- `m16` must be 0 for this opcode. -/
  | nonzeroM16
  /-- `c2` must be 0 for this opcode. -/
  | nonzeroC2
  /-- `c1` must be 0 for this opcode. -/
  | nonzeroC1
  /-- The must-be-zero bits of `c0` are not 0 for this opcode. -/
  | nonzeroC0
  /-- The event vector `0b000`: no request, no step. -/
  | noRequest
  /-- An event vector with two or more bits set. -/
  | severalRequests
  /-- A byte list that is not the eight bytes of one command word. -/
  | wrongLength
  deriving DecidableEq, Repr

/-! ### The fields of a command word (rule R98) -/

/-- Bits 63:56. -/
def cmdOpcode (w : BitVec 64) : BitVec 8 := w.extractLsb' 56 8
/-- Bits 55:40. -/
def cmdA16 (w : BitVec 64) : BitVec 16 := w.extractLsb' 40 16
/-- Bits 39:24. -/
def cmdM16 (w : BitVec 64) : BitVec 16 := w.extractLsb' 24 16
/-- Bits 23:16. -/
def cmdC2 (w : BitVec 64) : BitVec 8 := w.extractLsb' 16 8
/-- Bits 15:8. -/
def cmdC1 (w : BitVec 64) : BitVec 8 := w.extractLsb' 8 8
/-- Bits 7:0. -/
def cmdC0 (w : BitVec 64) : BitVec 8 := w.extractLsb' 0 8

/-- The command word with the given fields, most significant first (rule R98). -/
def cmdWord (opcode : BitVec 8) (a16 m16 : BitVec 16) (c2 c1 c0 : BitVec 8) : BitVec 64 :=
  ((((opcode ++ a16) ++ m16) ++ c2) ++ c1) ++ c0

/-! ### Decoding -/

/-- INIT's must-be-zero fields: `c2`, `c1` and bits 7:1 of `c0` (rule R99). -/
def decodeInit (w : BitVec 64) : Except DecodeError Instr :=
  if cmdC2 w ≠ 0 then .error .nonzeroC2
  else if cmdC1 w ≠ 0 then .error .nonzeroC1
  else if (cmdC0 w).extractLsb' 1 7 ≠ 0 then .error .nonzeroC0
  else .ok (.init (cmdA16 w) (cmdM16 w) ((cmdC0 w).extractLsb' 0 1))

/-- SET's must-be-zero field: `m16` (rule R100). -/
def decodeSet (w : BitVec 64) : Except DecodeError Instr :=
  if cmdM16 w ≠ 0 then .error .nonzeroM16
  else .ok (.set (cmdA16 w) (cmdC2 w) (cmdC1 w) (cmdC0 w))

/-- SET_ALL's must-be-zero fields: `a16` and `m16` (rule R101). -/
def decodeSetAll (w : BitVec 64) : Except DecodeError Instr :=
  if cmdA16 w ≠ 0 then .error .nonzeroA16
  else if cmdM16 w ≠ 0 then .error .nonzeroM16
  else .ok (.setAll (cmdC2 w) (cmdC1 w) (cmdC0 w))

/-- TRIGGER_UPDATE: "every other bit 0" (rule R102). -/
def decodeTrigger (w : BitVec 64) : Except DecodeError Instr :=
  if cmdA16 w ≠ 0 then .error .nonzeroA16
  else if cmdM16 w ≠ 0 then .error .nonzeroM16
  else if cmdC2 w ≠ 0 then .error .nonzeroC2
  else if cmdC1 w ≠ 0 then .error .nonzeroC1
  else if cmdC0 w ≠ 0 then .error .nonzeroC0
  else .ok .triggerUpdate

/-- A host command word (rules R98 to R102, R107, R108). -/
def decodeCommand (w : BitVec 64) : Except DecodeError Instr :=
  if cmdOpcode w = 0x01#8 then decodeInit w
  else if cmdOpcode w = 0x02#8 then decodeSet w
  else if cmdOpcode w = 0x03#8 then decodeSetAll w
  else if cmdOpcode w = 0x04#8 then decodeTrigger w
  else .error (.reservedOpcode (cmdOpcode w))

/-- A hardware or refill event vector (rules R103 to R108). -/
def decodeEvent (ev : BitVec 3) : Except DecodeError Instr :=
  if ev = 0b100#3 then .ok .tickStart
  else if ev = 0b010#3 then .ok .tickSlot
  else if ev = 0b001#3 then .ok .refill
  else if ev = 0b000#3 then .error .noRequest
  else .error .severalRequests

/-- Every encoded form decodes to an instruction or to a named reason; "no mode bit changes decoding" (rule R109). -/
def decode : Packet → Except DecodeError Instr
  | .command w => decodeCommand w
  | .event ev => decodeEvent ev

/-! ### Encoding -/

/-- The encoded form of an instruction (rules R99 to R106). -/
def encode : Instr → Packet
  | .init maxLeds pinMask16 drive => .command (cmdWord 0x01#8 maxLeds pinMask16 0#8 0#8 (0#7 ++ drive))
  | .set index r g b => .command (cmdWord 0x02#8 index 0#16 r g b)
  | .setAll r g b => .command (cmdWord 0x03#8 0#16 0#16 r g b)
  | .triggerUpdate => .command (cmdWord 0x04#8 0#16 0#16 0#8 0#8 0#8)
  | .tickStart => .event 0b100#3
  | .tickSlot => .event 0b010#3
  | .refill => .event 0b001#3

/-! ### Command words as bytes -/

/-- A command word transported as bytes, most significant byte first (rule R67 (d)). -/
def commandBytes (w : BitVec 64) : List Byte :=
  [w.extractLsb' 56 8, w.extractLsb' 48 8, w.extractLsb' 40 8, w.extractLsb' 32 8,
   w.extractLsb' 24 8, w.extractLsb' 16 8, w.extractLsb' 8 8, w.extractLsb' 0 8]

/-- The command word that eight bytes carry, most significant byte first (rule R67 (d)); "Every command word has the
same length" (rule R98). -/
def assembleCommand : List Byte → Except DecodeError (BitVec 64)
  | [b7, b6, b5, b4, b3, b2, b1, b0] => .ok (((((((b7 ++ b6) ++ b5) ++ b4) ++ b3) ++ b2) ++ b1) ++ b0)
  | _ => .error .wrongLength

/-- Decoding the bytes of a command word. -/
def decodeBytes (bytes : List Byte) : Except DecodeError Instr :=
  match assembleCommand bytes with
  | .ok w => decodeCommand w
  | .error e => .error e

/-- The instruction, if the decoder gave one. -/
def accepted : Except DecodeError Instr → Option Instr
  | .ok i => some i
  | .error _ => none

/-- What the decoder reads from the bits `w` of an opcode-table row of `nbits` bits: a row of at most one byte is an
`EVT3` vector (rule R103), a row of up to 64 bits is a `CMD64` word, laid out as its eight bytes (rules R67 (d), R98). -/
def decodeTableWord (nbits w : Nat) : Option Instr :=
  if nbits ≤ 8 then
    if w < 8 then accepted (decodeEvent (BitVec.ofNat 3 w)) else none
  else if nbits ≤ 64 ∧ w < 2 ^ 64 then accepted (decodeBytes (commandBytes (BitVec.ofNat 64 w)))
  else none

end Sys2Proof
end

