-- ==== Sys2Proof/Machine/Fetch.lean ====
section
/-!
DEFINITION. Which agent takes the next turn and which encoded form it presents (rules R15, R72, R103, R176), and how the
outside world places a step. WS2811-ENC "fetches no instructions and has no program counter" (rule R48).
-/

namespace Sys2Proof.Machine

/-- The next turn: the first one the outside world has fixed, or a free value if it has fixed none (rule R15; U12). -/
def State.nextTurn (s : State) : Turn :=
  match s.turns with
  | t :: _ => t
  | [] => Config.freeTurn s.draws

/-- The state once the turn has been taken off; a drawn turn counts as a draw. -/
def State.takeTurn (s : State) : State :=
  match s.turns with
  | _ :: ts => { s with turns := ts }
  | [] => { s with draws := s.draws + 1 }

/-- The request the timer raises, decided by the state alone: `req_idle` at the start of a cell, `req_enc` at its two
slots, none while the timer is stopped (rules R103, R171, R176). -/
def State.timerRequest (s : State) : BitVec 3 :=
  if s.tickStartEnabled then 0b100#3
  else if s.tickSlotEnabled then 0b010#3
  else 0b000#3

/-- The event being serviced: `irq_half`, or none while no event is pending (rules R103, R240). -/
def State.refillRequest (s : State) : BitVec 3 :=
  if s.refillEnabled then 0b001#3 else 0b000#3

/-- The encoded form a turn presents. -/
def State.packetOf (s : State) : Turn → Packet
  | .host word => .command word
  | .timer => .event s.timerRequest
  | .refill => .event s.refillRequest

/-- What the next turn brings. -/
inductive Fetched where
  /-- A step to take. -/
  | run (i : Instr)
  /-- A reserved command word: refused (rules R108, R236 (a)). -/
  | reservedWord
  /-- The agent has no enabled step: nothing happens (rules R15, R108: "not a step"; notes/assumptions/5.md). -/
  | noStep
  deriving DecidableEq, Repr

/-- Decoding what the next turn presents. -/
def State.fetch (s : State) : Fetched :=
  match decode (s.packetOf s.nextTurn), s.nextTurn with
  | .ok i, _ => .run i
  | .error _, .host _ => .reservedWord
  | .error _, _ => .noStep

/-- Placing a command word: the host's next turn issues it. -/
def State.placeCommand (s : State) (word : BitVec 64) : State := { s with turns := .host word :: s.turns }

/-- Placing an event vector: the agent that raises it has the next turn, and the state makes it raise that vector, since
no one supplies a vector from outside (rule R103; 93_implementation_defined.md U7). A reserved vector is raised by no
state, so nothing is placed (notes/assumptions/6.md). -/
def State.placeEvent (s : State) (ev : BitVec 3) : State :=
  if ev = 0b100#3 then { s with turns := .timer :: s.turns, timEn := true, timPhase := .start }
  else if ev = 0b010#3 then
    { s with turns := .timer :: s.turns, timEn := true, timPhase := if s.timPhase = .odd then .odd else .even }
  else if ev = 0b001#3 then { s with turns := .refill :: s.turns, halfDonePending := true }
  else s

/-- Placing the bits `w` of an opcode-table row of `nbits` bits. -/
def State.placeTableWord (s : State) (nbits w : Nat) : State :=
  if nbits ≤ 8 then s.placeEvent (BitVec.ofNat 3 w) else s.placeCommand (BitVec.ofNat 64 w)

end Sys2Proof.Machine
end

