-- ==== Sys2Proof/Machine/Step.lean ====
section
/-!
DEFINITION. One step of the machine: the next turn's step, taken atomically (rules R15, R72), and the placing of one
step for the host.
-/

namespace Sys2Proof.Machine

/-- The next turn is taken off; then its step runs, or its reserved word is refused, or nothing happens. -/
def step (s : State) : Host.Outcome State Fault Refusal :=
  match s.fetch with
  | .run i => exec i s.takeTurn
  | .reservedWord => .next s.takeTurn.refuse
  | .noStep => .next s.takeTurn

/-- `s` with the instruction whose table bits are `w` placed so that the very next step runs it. -/
def State.withFetchWord (s : State) (nbits w : Nat) : State := s.placeTableWord nbits w

end Sys2Proof.Machine
end

