-- ==== Sys2Proof/Safety.lean ====
section
/-!
DEFINITION. What claims are stated over: the canonical form of the memories, the consistent states of rule R53, the
observation of a frame (rules R19, R47, R94, R214), and which states are faulted or final (rule R285).
-/

namespace Sys2Proof.Machine

/-! ### Memories -/

/-- The indices a memory lists, in order. -/
def Memory.keys (m : Memory) : List Nat := m.map Prod.fst

/-- The memory lists exactly the indices `0 .. n - 1`. -/
abbrev Memory.Holds (m : Memory) (n : Nat) : Prop := Memory.keys m = List.range n

/-- Every memory of the Device is in canonical form. -/
abbrev State.canonical (s : State) : Prop :=
  Memory.wf s.pix ∧ Memory.wf s.isb ∧ Memory.wf s.wb0 ∧ Memory.wf s.wb1

/-! ### Agents -/

/-- The steps the host takes (rule R15); the others are taken by the timer and by the refill controller. -/
def isHostStep : Instr → Bool
  | .init _ _ _ => true
  | .set _ _ _ _ => true
  | .setAll _ _ _ => true
  | .triggerUpdate => true
  | .tickStart => false
  | .tickSlot => false
  | .refill => false

/-! ### Faulted and final states -/

/-- A faulted state lies outside every claim (rules R212, R234, R285; 93_implementation_defined.md U2, U4). -/
def State.faulted (s : State) : Bool := s.refillMissed || s.halted

/-- The end of a run (rule R285): the frame is over, and the state is not faulted. -/
def State.final (s : State) : Bool :=
  !s.inProgress && s.phase == .idle && !s.timEn && !s.halfDonePending && !s.faulted

/-- The premise of every claim about a frame's waveform (rules R46, R212, R234; U1, U2, U4): no pixel was written during the
frame, and the state is not faulted: no refill deadline was missed and no SET has halted the machine. -/
def State.frameSound (s : State) : Bool := s.frameValid && !s.faulted

/-! ### Consistent states (rules R22 to R43, R53) -/

/-- A transition mask: exactly one bit set (rule R28). -/
abbrev oneHot (mask : Byte) : Prop := ∃ i, i < 8 ∧ mask = 1#8 <<< i

/-- Every odd slot of a waveform buffer holds the mask, and every even slot holds 0 or the mask (rules R35, R93). -/
abbrev slotsLegal (mask : Byte) (m : Memory) : Prop :=
  ∀ k, k < 144 → Memory.read m (oddSlot k) = some mask ∧
    (Memory.read m (evenSlot k) = some 0 ∨ Memory.read m (evenSlot k) = some mask)

/-- What holds of a Device from INIT on (the invariants of 10_state.md R31 to R35, R53, with the value ranges of R22 to
R43). -/
structure State.DeviceOk (s : State) : Prop where
  capacity_pos : 1 ≤ s.capacity.toNat
  capacity_le : s.capacity.toNat ≤ 1024
  mask_oneHot : oneHot s.mask
  /-- R31: "`pixels` length always equals `capacity`". -/
  pix_holds : Memory.Holds s.pix (3 * s.capacity.toNat)
  /-- R29: "always holding `gpio_transition_mask`". -/
  isb_eq : s.isb = [(0, s.mask)]
  wb0_holds : Memory.Holds s.wb0 288
  wb1_holds : Memory.Holds s.wb1 288
  /-- R35, R53 (g). -/
  wb0_slots : slotsLegal s.mask s.wb0
  wb1_slots : slotsLegal s.mask s.wb1
  encPos_lt : s.encPos.toNat < 288
  /-- R53 (a). -/
  engines : s.timEn = s.inProgress ∧ s.idleEn = s.inProgress ∧ s.encEn = s.inProgress
  /-- R53 (b). -/
  mirror : s.timEn = true → s.refillMissed = false → s.activeHalf = (s.encCt ^^ s.halfDonePending)
  /-- R53 (c). -/
  parity : s.encPos.toNat % 2 = (if s.timPhase = .odd then 1 else 0)
  /-- R53 (d). -/
  idle_iff : s.phase = .idle ↔ s.inProgress = false
  /-- R53 (e). -/
  draining_end : s.phase = .draining → s.endReached = true
  end_draining : s.inProgress = true → s.endReached = true → s.phase = .draining
  /-- R53 (f). -/
  cursor_le : s.cursor.toNat ≤ 3 * s.capacity.toNat
  end_cursor : s.endReached = true → s.cursor.toNat = 3 * s.capacity.toNat
  /-- R37: `drain_count` never passes `DRAIN_HALVES + 1`. -/
  drain_le : s.drainCount.toNat ≤ 2
  /-- R204: an event is pending only while the timer runs. -/
  pending_running : s.halfDonePending = true → s.timEn = true
  /-- R126, R180, R253: the pin rests LOW while the timer is stopped. -/
  rests_low : s.timEn = false → s.pinLevel = .low
  /-- R181: a cell starts from LOW, and TICK_START has driven the pin HIGH before the even slot. -/
  start_low : s.timPhase = .start → s.pinLevel = .low
  even_high : s.timEn = true → s.timPhase = .even → s.pinLevel = .high

/-- Before INIT nothing runs and no fault can have happened (rules R52, R270). -/
structure State.PoweredOn (s : State) : Prop where
  halted : s.halted = false
  timEn : s.timEn = false
  idleEn : s.idleEn = false
  encEn : s.encEn = false
  halfDonePending : s.halfDonePending = false
  refillMissed : s.refillMissed = false

/-- A consistent state: canonical memories, and power-on's fields before INIT or a consistent Device after it. -/
structure State.Consistent (s : State) : Prop where
  canonical : s.canonical
  before : s.initialized = false → s.PoweredOn
  after : s.initialized = true → s.DeviceOk

/-! ### The observation of a frame (rules R19, R94, R95, R210, R214) -/

/-- Stream bit `n`: `(MemRead(PIX, n div 8, 1) >> (7 - (n mod 8))) AND 1` (rule R94). -/
def State.streamBit (s : State) (n : Nat) : Bool :=
  match Memory.read s.pix (n / 8) with
  | some byte => byteBit byte (n % 8)
  | none => false

/-- A data bit as the symbol it is sent as (rules R91, R92). -/
def symbolOf (bit : Bool) : Symbol := if bit then .one else .zero

/-- What cell `n` of a frame (counted from 0) must send: stream bit `n` while data lasts, then the idle pattern's long
pulse (rules R95, R207, R214). -/
def State.cellBit (s : State) (n : Nat) : Bool := if n < 24 * s.capacity.toNat then s.streamBit n else true

/-- The `24 * capacity` symbols of the pixel data in stream order (rule R214). -/
def State.dataSymbols (s : State) : List Symbol :=
  (List.range (24 * s.capacity.toNat)).map (fun n => symbolOf (s.streamBit n))

/-- `n_data = ceil(capacity / 6)`: how many half-buffers hold pixel data (rules R17, R210). -/
def State.dataHalves (s : State) : Nat := (s.capacity.toNat + 5) / 6

/-- Decoding an even slot back to its bit: "bit = 1 if the even slot is 0" (rule R92). -/
def slotBit (slot : Byte) : Bool := slot == 0

/-- How many half-buffers the hardware has finished in this frame: one symbol per cell, 144 cells per half (rule R183). -/
def State.halvesSent (s : State) : Nat := s.txCells.length / 144

/-- How many fills the frame has made: the two of the prefill, and one for every event serviced (rule R210). -/
def State.fillsMade (s : State) : Nat := s.halvesSent + (if s.halfDonePending then 1 else 2)

/-- The three pin levels of a bit cell, after its cell start, its even slot and its odd slot (rule R181). -/
def cellWave (bit : Bool) : List Level := [.high, if bit then .high else .low, .low]

/-- The pin levels of the cell in progress so far, by the event the timer raises next (rules R38, R181). -/
def cellWaveSoFar (p : TimPhase) (bit : Bool) : List Level :=
  match p with
  | .start => []
  | .even => [.high]
  | .odd => [.high, if bit then .high else .low]

/-- Where a frame in flight stands (rules R95, R183, R210): fill `q` carries cells `144 * q .. 144 * q + 143` in buffer
`q mod 2`; what was sent is what the pixels say, cell by cell. -/
structure State.FrameOk (s : State) : Prop where
  /-- The symbols sent so far. -/
  sent : s.txCells = (List.range s.txCells.length).map (fun n => symbolOf (s.cellBit n))
  /-- The pin levels so far, three for every cell sent, then those of the cell in progress. -/
  waveform : s.wave = (List.range s.txCells.length).flatMap (fun n => cellWave (s.cellBit n)) ++
    cellWaveSoFar s.timPhase (s.cellBit s.txCells.length)
  /-- The slot the hardware transfers next. -/
  position : s.txCells.length % 144 = s.encPos.toNat / 2
  /-- The buffer the hardware reads. -/
  target : s.encCt = decide (s.halvesSent % 2 = 1)
  /-- An event is pending only after a half was sent. -/
  pending_sent : s.halfDonePending = true → 1 ≤ s.halvesSent
  /-- How far the encoder is. -/
  encoded : s.cursor.toNat = min (18 * s.fillsMade) (3 * s.capacity.toNat)
  boundary : s.endReached = decide (3 * s.capacity.toNat ≤ 18 * s.fillsMade)
  /-- How many idle fills were made. -/
  drain : s.drainCount.toNat = s.fillsMade - s.dataHalves
  fills_le : s.fillsMade ≤ s.dataHalves + 2
  /-- The two last fills stand in the two buffers. -/
  buffers : ∀ q, q < s.fillsMade → s.fillsMade ≤ q + 2 → ∀ k, k < 144 →
    Memory.read (s.mem (.wb (decide (q % 2 = 1)))) (evenSlot k) = some (slotFor s.mask (s.cellBit (144 * q + k)))
  /-- Between its two slots a cell has had its early edge exactly if its bit is 0. -/
  early_edge : s.timPhase = .odd → s.pinLevel = if s.cellBit s.txCells.length then .high else .low

/-- The frame invariant: a consistent state in which a frame in flight, no pixel written during it and the state not
faulted, stands where its pixels say. -/
structure State.FrameInv (s : State) : Prop where
  consistent : s.Consistent
  frame : s.initialized = true → s.inProgress = true → s.frameSound = true → s.FrameOk

/-- The high time of a symbol's pulse, `T_EARLY` or `T_LATE`, measured from the start of its cell (rule R181). -/
def Symbol.highTime : Symbol → Nat
  | .zero => Config.tEarly
  | .one => Config.tLate

/-- The order of the events of a bit cell in time: `0 < T_EARLY < T_LATE < T_CELL` (rules R9, R171). No step reads it. -/
def timingOrdered : Prop := 0 < Config.tEarly ∧ Config.tEarly < Config.tLate ∧ Config.tLate < Config.tCell

end Sys2Proof.Machine
end

