-- ==== Sys2Proof/Certificates/Slice0/Obligations.lean ====
section
/-!
DEFINITION. The statements for the provers: what the spec says the steps and the machine do. OBLIGATIONS.json lists them
in this order, with the rule or the section each one formalises.
-/

open Sys2Proof Sys2Proof.Machine

/-! ### Encodings (30_encoding.md) -/

/-- Decoding the encoding of an instruction gives it back, every operand at every value (30_encoding.md sections 3, 4). -/
def Obligations.DecodeEncodeRoundTrip : Prop :=
  ∀ i : Instr, i.wellFormed = true → decode (encode i) = .ok i

/-- Every encoded form has at most one meaning: what decodes to `i` is the encoding of `i`. -/
def Obligations.DecodedFormIsTheEncoding : Prop :=
  ∀ (p : Packet) (i : Instr), decode p = .ok i → encode i = p

/-- A form decodes exactly if a row of the opcode table admits it, and no command word is admitted by two rows (30_encoding.md sections
3 to 5; 95_test_vectors.md section 2.1). -/
def Obligations.DecoderAcceptsTheTable : Prop :=
  (∀ p : Packet, (∃ i, decode p = .ok i) ↔ p.wellFormed = true) ∧
  ∀ w : BitVec 64, (commandRows.filter (fun row => row.admits w)).length ≤ 1

/-- A command word travels as eight bytes, most significant first, and comes back unchanged (20_memory.md section 2). -/
def Obligations.CommandWordBytesRoundTrip : Prop :=
  ∀ w : BitVec 64, (commandBytes w).length = 8 ∧ assembleCommand (commandBytes w) = .ok w ∧
    ∀ k, k < 8 → (commandBytes w)[k]? = some ((w >>> (8 * (7 - k))).setWidth 8)

/-- Words of 95_test_vectors.md section 2.1, one or two per row of the table. -/
def Obligations.SampleWordsDecode : Prop :=
  decode (.command 0x0100020100000001#64) = .ok (.init 2 0x0100 1) ∧
  decode (.command 0x0107D00020000000#64) = .ok (.init 2000 0x0020 0) ∧
  decode (.command 0x0200020000123456#64) = .ok (.set 2 0x12 0x34 0x56) ∧
  decode (.command 0x030000000055AA00#64) = .ok (.setAll 0x55 0xAA 0x00) ∧
  decode (.command 0x0400000000000000#64) = .ok .triggerUpdate ∧
  decode (.event 0b100#3) = .ok .tickStart ∧
  decode (.event 0b010#3) = .ok .tickSlot ∧
  decode (.event 0b001#3) = .ok .refill

/-! ### One step of the machine (00_scope.md section 4) -/

/-- When what the next turn presents decodes to `i`, the step is `exec i` on the state whose turn was taken off: only the
model's own turn list and draw counter differ. -/
def Obligations.StepRunsDecodedInstruction : Prop :=
  ∀ (s : State) (i : Instr), i.wellFormed = true → decode (s.packetOf s.nextTurn) = .ok i →
    step s = exec i s.takeTurn ∧
    s.takeTurn = { s with turns := s.turns.tail, draws := if s.turns = [] then s.draws + 1 else s.draws }

/-- A reserved command word is refused: the response is Refused and nothing else changes (30_encoding.md section 5). -/
def Obligations.ReservedWordRefused : Prop :=
  ∀ (s : State) (w : BitVec 64), s.nextTurn = .host w → Packet.wellFormed (.command w) = false →
    step s = .next { s.takeTurn with lastStatus := .refused }

/-- Which step the hardware or the refill controller takes is decided by the state: the cell start, a slot, or nothing
while the timer is stopped; REFILL exactly while an event is pending (30_encoding.md section 4; 43_transfer_orchestrator.md section 2). An
agent with no enabled step passes its turn: the model's choice, notes/assumptions/5.md. -/
def Obligations.AgentTakesItsEnabledStep : Prop :=
  ∀ s : State,
    (s.nextTurn = .timer →
      step s = if s.timEn = false then .next s.takeTurn
        else if s.timPhase = .start then exec .tickStart s.takeTurn else exec .tickSlot s.takeTurn) ∧
    (s.nextTurn = .refill →
      step s = if s.halfDonePending then exec .refill s.takeTurn else .next s.takeTurn)

/-- A hardware or refill step asked for where its "Enabled when" line fails has no transition: `exec` refuses it under
the step's name (00_scope.md section 4). -/
def Obligations.StepNotEnabledHasNoTransition : Prop :=
  ∀ s : State,
    (s.timEn = false ∨ s.timPhase ≠ .start → exec .tickStart s = .refused (.stepNotEnabled "TICK_START")) ∧
    (s.timEn = false ∨ s.timPhase = .start → exec .tickSlot s = .refused (.stepNotEnabled "TICK_SLOT")) ∧
    (s.halfDonePending = false → exec .refill s = .refused (.stepNotEnabled "REFILL"))

/-! ### Power-on and INIT (70_reset_and_hazards.md section 1, 40_device_init.md) -/

/-- The eight registers and the ghost fields that have a power-on value hold it; no TICK and no REFILL is enabled, and
every host step but INIT is refused. -/
def Obligations.PowerOnState : Prop :=
  State.reset.initialized = false ∧ State.reset.halted = false ∧ State.reset.lastStatus.code = 0 ∧
  State.reset.timEn = false ∧ State.reset.idleEn = false ∧ State.reset.encEn = false ∧
  State.reset.halfDonePending = false ∧ State.reset.refillMissed = false ∧
  State.reset.frameValid = true ∧ State.reset.txCells = [] ∧ State.reset.wave = [] ∧
  State.reset.tickStartEnabled = false ∧ State.reset.tickSlotEnabled = false ∧ State.reset.refillEnabled = false ∧
  ∀ i, isHostStep i = true → (∀ maxLeds pin drive, i ≠ .init maxLeds pin drive) →
    exec i State.reset = .next { State.reset with lastStatus := .refused }

/-- INIT with a legal count and a one-hot pin mask, before any Device exists, makes the Device: every field, the idle
pattern in both buffers, and free pixel bytes (40_device_init.md; 10_state.md section 7). -/
def Obligations.InitConstructsTheDevice : Prop :=
  ∀ (s : State) (maxLeds : BitVec 16) (drive : BitVec 1) (p : Nat), s.initialized = false → s.halted = false →
    1 ≤ maxLeds.toNat → maxLeds.toNat ≤ 1024 → p < 16 →
    ∃ t, exec (.init maxLeds (1#16 <<< p) drive) s = .next t ∧
      t.initialized = true ∧ t.halted = false ∧ t.lastStatus = .ok ∧ t.capacity.toNat = maxLeds.toNat ∧
      t.mask = 1#8 <<< (p % 8) ∧ t.pinLane.toNat = p / 8 ∧ t.pinMode = drive ∧ t.pinLevel = .low ∧
      Memory.Holds t.isb 1 ∧ Memory.read t.isb 0 = some (1#8 <<< (p % 8)) ∧
      (∀ h, Memory.Holds (t.mem (.wb h)) 288 ∧ ∀ k, k < 144 →
        Memory.read (t.mem (.wb h)) (2 * k) = some 0 ∧
        Memory.read (t.mem (.wb h)) (2 * k + 1) = some (1#8 <<< (p % 8))) ∧
      Memory.Holds t.pix (3 * maxLeds.toNat) ∧
      (∀ j, j < 3 * maxLeds.toNat → Memory.read t.pix j = some (Config.pixelInit s.draws j)) ∧
      t.cursor = 0 ∧ t.endReached = false ∧ t.activeHalf = false ∧ t.inProgress = false ∧ t.phase = .idle ∧
      t.drainCount = 0 ∧ t.timEn = false ∧ t.idleEn = false ∧ t.encEn = false ∧ t.encDbm = false ∧
      t.timPhase = .start ∧ t.encCt = false ∧ t.encPos = 0 ∧ t.halfDonePending = false ∧ t.refillMissed = false ∧
      t.frameValid = true ∧ t.txCells = [] ∧ t.wave = [] ∧ t.turns = s.turns ∧ t.draws = s.draws + 1

/-- The mask and the lane of a one-hot pin mask, and that only the sixteen one-hot values pass the check
(30_encoding.md section 2). -/
def Obligations.PinMaskDerivation : Prop :=
  ∀ pinMask16 : BitVec 16,
    (popcount16 pinMask16 = 1 ↔ ∃ p, p < 16 ∧ pinMask16 = 1#16 <<< p) ∧
    ∀ p, p < 16 → pinMask16 = 1#16 <<< p →
      transitionMask pinMask16 = 1#8 <<< (p % 8) ∧ (pinLaneOf pinMask16).toNat = p / 8 ∧
      transitionMask pinMask16 = (pinMask16 >>> (8 * (p / 8))).setWidth 8

/-- R233: a count out of range or a malformed pin mask makes INIT fail with code 2 and no other change, scenario 3's
counts among them; no other step raises the error. -/
def Obligations.InvalidConfiguration : Prop :=
  Status.invalidConfiguration.code = 2 ∧
  (∀ (s : State) (maxLeds pinMask16 : BitVec 16) (drive : BitVec 1), s.initialized = false → s.halted = false →
    (maxLeds.toNat < 1 ∨ 1024 < maxLeds.toNat ∨ popcount16 pinMask16 ≠ 1) →
    exec (.init maxLeds pinMask16 drive) s = .next { s with lastStatus := .invalidConfiguration }) ∧
  (∀ (s : State) (pinMask16 : BitVec 16) (drive : BitVec 1), s.initialized = false → s.halted = false →
    exec (.init 0 pinMask16 drive) s = .next { s with lastStatus := .invalidConfiguration } ∧
    exec (.init 2000 pinMask16 drive) s = .next { s with lastStatus := .invalidConfiguration }) ∧
  ∀ (i : Instr) (s t : State), exec i s = .next t → s.lastStatus ≠ .invalidConfiguration →
    t.lastStatus = .invalidConfiguration → ∃ maxLeds pinMask16 drive, i = .init maxLeds pinMask16 drive

/-- The order of INIT's checks for any size of the pixel storage: the count, the pin mask, then the allocation; with
the decided size the allocation never fails (40_device_init.md). -/
def Obligations.InitCheckOrder : Prop :=
  (∀ (ram : Nat) (maxLeds pinMask16 : BitVec 16),
    (initVerdict ram maxLeds pinMask16 = .allocationFailure ↔
      1 ≤ maxLeds.toNat ∧ maxLeds.toNat ≤ 1024 ∧ popcount16 pinMask16 = 1 ∧ ram < maxLeds.toNat) ∧
    (initVerdict ram maxLeds pinMask16 = .ok ↔
      1 ≤ maxLeds.toNat ∧ maxLeds.toNat ≤ 1024 ∧ popcount16 pinMask16 = 1 ∧ maxLeds.toNat ≤ ram) ∧
    (initVerdict ram maxLeds pinMask16 = .invalidConfiguration ↔
      maxLeds.toNat < 1 ∨ 1024 < maxLeds.toNat ∨ popcount16 pinMask16 ≠ 1)) ∧
  ∀ (i : Instr) (s t : State), exec i s = .next t → s.lastStatus ≠ .allocationFailure →
    t.lastStatus ≠ .allocationFailure

/-- A failed INIT changes nothing but the response, no Device exists after it, and an INIT with good operands then
succeeds (40_device_init.md). -/
def Obligations.FailedInitMayBeRetried : Prop :=
  ∀ (s t : State) (maxLeds pinMask16 : BitVec 16) (drive : BitVec 1), s.initialized = false → s.halted = false →
    exec (.init maxLeds pinMask16 drive) s = .next t → t.lastStatus ≠ .ok →
    t = { s with lastStatus := t.lastStatus } ∧
    ∀ (m : BitVec 16) (d : BitVec 1) (p : Nat), 1 ≤ m.toNat → m.toNat ≤ 1024 → p < 16 →
      ∃ u, exec (.init m (1#16 <<< p) d) t = .next u ∧ u.initialized = true ∧ u.lastStatus = .ok

/-! ### The Pixel Store (41_pixel_store.md) -/

/-- SET on a Device that is not halted, with an index below the capacity: three bytes of the stream, the response, and
the mark of a frame in flight; nothing else changes. -/
def Obligations.SetWritesOnePixel : Prop :=
  ∀ (s : State) (index : BitVec 16) (r g b : Byte), s.initialized = true → s.halted = false →
    index.toNat < s.capacity.toNat →
    ∃ t, exec (.set index r g b) s = .next t ∧
      t = { s with pix := t.pix, frameValid := s.frameValid && !s.inProgress, lastStatus := .ok } ∧
      Memory.read t.pix (3 * index.toNat) = some r ∧ Memory.read t.pix (3 * index.toNat + 1) = some g ∧
      Memory.read t.pix (3 * index.toNat + 2) = some b ∧
      ∀ j, j < 3 * index.toNat ∨ 3 * index.toNat + 2 < j → Memory.read t.pix j = Memory.read s.pix j

/-- SET with an index at or above the capacity: the code is 3, no pixel byte is written, the halt is set, and from then
on every host step is refused (60_exceptions.md section 1). -/
def Obligations.SetOutOfRangeHalts : Prop :=
  Status.indexOutOfRange.code = 3 ∧
  ∀ (s : State) (index : BitVec 16) (r g b : Byte), s.initialized = true → s.halted = false →
    s.capacity.toNat ≤ index.toNat →
    exec (.set index r g b) s = .next { s with lastStatus := .indexOutOfRange, halted := true } ∧
    ∀ (i : Instr) (t : State), isHostStep i = true → t.halted = true → exec i t = .next { t with lastStatus := .refused }

/-- SET_ALL on a Device that is not halted: the three bytes of every pixel below the capacity and no other byte; the
response and the mark of a frame in flight; nothing else changes. -/
def Obligations.SetAllWritesEveryPixel : Prop :=
  ∀ (s : State) (r g b : Byte), s.initialized = true → s.halted = false →
    ∃ t, exec (.setAll r g b) s = .next t ∧
      t = { s with pix := t.pix, frameValid := s.frameValid && !s.inProgress, lastStatus := .ok } ∧
      (∀ i, i < s.capacity.toNat → Memory.read t.pix (3 * i) = some r ∧ Memory.read t.pix (3 * i + 1) = some g ∧
        Memory.read t.pix (3 * i + 2) = some b) ∧
      ∀ j, 3 * s.capacity.toNat ≤ j → Memory.read t.pix j = Memory.read s.pix j

/-- SET_ALL is the same as a SET of every pixel below the capacity, in any order (41_pixel_store.md). -/
def Obligations.SetAllIsEverySet : Prop :=
  ∀ (s : State) (r g b : Byte) (order : List (BitVec 16)), s.initialized = true → s.halted = false →
    1 ≤ s.capacity.toNat → Memory.wf s.pix → (order.map BitVec.toNat).Perm (List.range s.capacity.toNat) →
    order.foldl (fun o index => match o with
      | .next u => exec (.set index r g b) u
      | .fault f => .fault f
      | .refused f => .refused f) (.next s) = exec (.setAll r g b) s

/-- R94: after SET of LED `i` its bits stand in the stream at `24 * i` on, red, green, blue, each from bit 7 down; every
other bit of the stream is as before. -/
def Obligations.StreamBitOrder : Prop :=
  (∀ (s : State) (n : Nat) (byte : Byte), Memory.read s.pix (n / 8) = some byte →
    s.streamBit n = (byte >>> (7 - n % 8)).getLsbD 0) ∧
  ∀ (s t : State) (index : BitVec 16) (r g b : Byte), s.initialized = true → s.halted = false →
    index.toNat < s.capacity.toNat → exec (.set index r g b) s = .next t →
    (∀ j, j < 8 → t.streamBit (24 * index.toNat + j) = r.getLsbD (7 - j) ∧
      t.streamBit (24 * index.toNat + 8 + j) = g.getLsbD (7 - j) ∧
      t.streamBit (24 * index.toNat + 16 + j) = b.getLsbD (7 - j)) ∧
    ∀ n, n / 24 ≠ index.toNat → t.streamBit n = s.streamBit n

/-- A host step is refused exactly when a Device is missing, when INIT finds one, or after a halt, and a refusal changes
only the response (60_exceptions.md section 1). -/
def Obligations.HostStepRefusedExactlyWhen : Prop :=
  Status.refused.code = 15 ∧
  ∀ (i : Instr) (s t : State), isHostStep i = true → exec i s = .next t →
    (t.lastStatus = .refused ↔ s.halted = true ∨
      ((∃ maxLeds pinMask16 drive, i = .init maxLeds pinMask16 drive) ∧ s.initialized = true) ∨
      ((∀ maxLeds pinMask16 drive, i ≠ .init maxLeds pinMask16 drive) ∧ s.initialized = false)) ∧
    (t.lastStatus = .refused → t = { s with lastStatus := .refused })

/-! ### Memory (20_memory.md) -/

/-- A read after a write to the same index gives the byte written, every other index of every space reads as before, and
the canonical form is kept (20_memory.md sections 1 and 3). -/
def Obligations.ReadAfterWrite : Prop :=
  ∀ (s : State) (sp : Space) (a : Nat) (v : Byte), a < s.spaceSize sp →
    (s.memWrite sp a v).memRead sp a = .ok v ∧
    (∀ sq b, (sq ≠ sp ∨ b ≠ a) → (s.memWrite sp a v).memRead sq b = s.memRead sq b) ∧
    (s.canonical → (s.memWrite sp a v).canonical)

/-- A read outside a space and a read of a byte that holds no value are faults with a name of their own, whatever else
the state holds: the model's choice, notes/assumptions/2.md. -/
def Obligations.ReadOfNoByteFaults : Prop :=
  ∀ (s : State) (sp : Space) (a : Nat),
    (s.spaceSize sp ≤ a → s.memRead sp a = .error (.noSuchByte sp a)) ∧
    (a < s.spaceSize sp → Memory.read (s.mem sp) a = none → s.memRead sp a = .error (.unwrittenByte sp a))

/-! ### The Bit Encoder (42_bit_encoder.md) -/

/-- ENCODE_HALF: the next 18 bytes or what is left of the stream go to the even slots, most significant bit first, the
rest of the half is padded with 0; `cursor` and the boundary flag follow; no other byte and no other field changes. -/
def Obligations.EncodeHalfResult : Prop :=
  ∀ (s : State) (h : Half), s.capacity.toNat ≤ 1024 → Memory.Holds s.pix (3 * s.capacity.toNat) →
    s.cursor.toNat ≤ 3 * s.capacity.toNat →
    ∃ t, s.encodeHalf h = .ok t ∧
      t = { s with cursor := t.cursor, endReached := t.endReached }.setMem (.wb h) (t.mem (.wb h)) ∧
      t.cursor.toNat = min (s.cursor.toNat + 18) (3 * s.capacity.toNat) ∧
      t.endReached = decide (t.cursor.toNat = 3 * s.capacity.toNat) ∧
      (∀ k, k < 144 → Memory.read (t.mem (.wb h)) (2 * k) =
        some (if 8 * s.cursor.toNat + k < 24 * s.capacity.toNat then
          (if s.streamBit (8 * s.cursor.toNat + k) then 0 else s.mask) else 0)) ∧
      ∀ a, a % 2 = 1 ∨ 288 ≤ a → Memory.read (t.mem (.wb h)) a = Memory.read (s.mem (.wb h)) a

/-- Decoding the even slots of an encoded half gives back the stream bits it was given, for a nonzero mask
(42_bit_encoder.md; 30_encoding.md section 1). -/
def Obligations.EncodedHalfDecodesBack : Prop :=
  ∀ (s t : State) (h : Half), s.capacity.toNat ≤ 1024 → Memory.Holds s.pix (3 * s.capacity.toNat) →
    s.cursor.toNat ≤ 3 * s.capacity.toNat → s.mask ≠ 0 → s.encodeHalf h = .ok t →
    ∀ k, k < 144 → 8 * s.cursor.toNat + k < 24 * s.capacity.toNat →
      ∃ slot, Memory.read (t.mem (.wb h)) (evenSlot k) = some slot ∧ (slot = 0 ∨ slot = s.mask) ∧
        slotBit slot = s.streamBit (8 * s.cursor.toNat + k)

/-- Under the other tail policy the even slots after the last encoded byte keep what they held (70_reset_and_hazards.md
section 3). -/
def Obligations.KeepStaleLeavesTheTail : Prop :=
  ∀ (s t : State) (h : Half), s.capacity.toNat ≤ 1024 → s.encodeHalfWith .keepStale h = .ok t →
    ∀ k, k < 144 → 24 * s.capacity.toNat ≤ 8 * s.cursor.toNat + k →
      Memory.read (t.mem (.wb h)) (evenSlot k) = Memory.read (s.mem (.wb h)) (evenSlot k)

/-- R157: FILL_IDLE writes 0 into the 144 even slots of its half and nothing else; with the mask in the odd slots the
half is then exactly the idle pattern. -/
def Obligations.FillIdleResult : Prop :=
  ∀ (s : State) (h : Half),
    s.fillIdle h = s.setMem (.wb h) ((s.fillIdle h).mem (.wb h)) ∧
    (∀ k, k < 144 → Memory.read ((s.fillIdle h).mem (.wb h)) (2 * k) = some 0) ∧
    (∀ a, a % 2 = 1 ∨ 288 ≤ a → Memory.read ((s.fillIdle h).mem (.wb h)) a = Memory.read (s.mem (.wb h)) a) ∧
    (Memory.Holds (s.mem (.wb h)) 288 →
      (∀ k, k < 144 → Memory.read (s.mem (.wb h)) (2 * k + 1) = some s.mask) →
      (s.fillIdle h).mem (.wb h) = idlePattern s.mask)

/-- Nothing of what a half held before survives a fill: two Devices that differ only in that half's even slots agree
after it (44_refill_controller.md section 3, scenario 4 of the source). -/
def Obligations.FillLeavesNothingStale : Prop :=
  ∀ (s u : State) (h : Half) (m : Memory), u = s.setMem (.wb h) m → s.capacity.toNat ≤ 1024 →
    Memory.Holds s.pix (3 * s.capacity.toNat) → s.cursor.toNat ≤ 3 * s.capacity.toNat →
    Memory.Holds (s.mem (.wb h)) 288 → Memory.Holds m 288 →
    (∀ k, k < 144 → Memory.read m (oddSlot k) = Memory.read (s.mem (.wb h)) (oddSlot k)) →
    u.fill h = s.fill h

/-- R35: from INIT on every odd slot of both buffers is the mask and every even slot 0 or the mask; every step keeps it,
and no step but INIT writes an odd slot. -/
def Obligations.OddSlotInvariant : Prop :=
  (∀ (s t : State) (maxLeds pinMask16 : BitVec 16) (drive : BitVec 1),
    exec (.init maxLeds pinMask16 drive) s = .next t → s.initialized = false → t.initialized = true →
    slotsLegal t.mask t.wb0 ∧ slotsLegal t.mask t.wb1) ∧
  (∀ s t : State, s.initialized = true → slotsLegal s.mask s.wb0 ∧ slotsLegal s.mask s.wb1 → step s = .next t →
    slotsLegal t.mask t.wb0 ∧ slotsLegal t.mask t.wb1) ∧
  ∀ (i : Instr) (s t : State), (∀ maxLeds pinMask16 drive, i ≠ .init maxLeds pinMask16 drive) → exec i s = .next t →
    ∀ (h : Half) (a : Nat), a % 2 = 1 → Memory.read (t.mem (.wb h)) a = Memory.read (s.mem (.wb h)) a

/-! ### The Transfer Orchestrator (20_memory.md section 1, 43_transfer_orchestrator.md) -/

/-- A port write drives the pin exactly if the value has the mask's bit, and has no other effect. -/
def Obligations.PortWriteEffect : Prop :=
  ∀ (s : State) (v : Byte),
    s.portWrite .pulseStart v = { s with pinLevel := if v &&& s.mask = 0 then s.pinLevel else .high } ∧
    s.portWrite .pulseEnd v = { s with pinLevel := if v &&& s.mask = 0 then s.pinLevel else .low }

/-- What ARM leaves: both engines and the timer running from the first slot of buffer 0, double-buffered, with no event
pending; it writes no other field. -/
def Obligations.ArmResult : Prop :=
  ∀ s : State, s.arm = { s with timEn := true, idleEn := true, encEn := true, encDbm := true, timPhase := .start, encPos := 0, encCt := false, halfDonePending := false }

/-- What STOP leaves: the timer and both engines stopped and the pin LOW; it writes no other field. -/
def Obligations.StopResult : Prop :=
  ∀ s : State, s.stop = { s with timEn := false, idleEn := false, encEn := false, pinLevel := if s.mask = 0 then s.pinLevel else .low }

/-- TICK_START: the idle channel's byte to the pulse-start port, the phase EVEN, one sample; a disabled idle channel makes
no transfer. Nothing else changes. -/
def Obligations.TickStartResult : Prop :=
  ∀ s : State, s.timEn = true → s.timPhase = .start →
    (∀ v, s.idleEn = true → Memory.read s.isb 0 = some v →
      exec .tickStart s = .next { s.portWrite .pulseStart v with timPhase := .even, wave := s.wave ++ [(s.portWrite .pulseStart v).pinLevel] }) ∧
    (s.idleEn = false → exec .tickStart s = .next { s with timPhase := .even, wave := s.wave ++ [s.pinLevel] })

/-- TICK_SLOT: the slot the pointer names to the pulse-end port, the pointer forward, and at the wrap the other buffer
and the event; the phase, one sample, and one symbol at an odd slot. Nothing else changes. -/
def Obligations.TickSlotResult : Prop :=
  ∀ s : State, s.timEn = true → s.timPhase ≠ .start → s.encPos.toNat < 288 →
    (∀ v, s.encEn = true → Memory.read (s.mem (.wb s.encCt)) s.encPos.toNat = some v →
      exec .tickSlot s = .next
        { s.portWrite .pulseEnd v with
          txCells := if s.timPhase = .odd then s.txCells ++ [if s.pinLevel = .high then .one else .zero] else s.txCells
          encPos := if s.encPos.toNat = 287 then 0 else s.encPos + 1
          encCt := if s.encPos.toNat = 287 then !s.encCt else s.encCt
          refillMissed := if s.encPos.toNat = 287 then s.refillMissed || s.halfDonePending else s.refillMissed
          halfDonePending := if s.encPos.toNat = 287 then true else s.halfDonePending
          timPhase := if s.timPhase = .even then .odd else .start
          wave := s.wave ++ [(s.portWrite .pulseEnd v).pinLevel] }) ∧
    (s.encEn = false →
      exec .tickSlot s = .next { s with timPhase := if s.timPhase = .even then .odd else .start, wave := s.wave ++ [s.pinLevel] })

/-- The pin during one bit cell: HIGH at the cell start, LOW from the even slot for a 0 bit and from the odd slot for a 1
bit; one symbol is recorded (43_transfer_orchestrator.md section 3). -/
def Obligations.BitCellWaveform : Prop :=
  ∀ (s : State) (bit : Bool), s.timEn = true → s.idleEn = true → s.encEn = true → s.timPhase = .start → s.mask ≠ 0 →
    Memory.read s.isb 0 = some s.mask → s.encPos.toNat < 287 →
    Memory.read (s.mem (.wb s.encCt)) s.encPos.toNat = some (slotFor s.mask bit) →
    Memory.read (s.mem (.wb s.encCt)) (s.encPos.toNat + 1) = some s.mask →
    ∃ t₁ t₂ t₃, exec .tickStart s = .next t₁ ∧ exec .tickSlot t₁ = .next t₂ ∧ exec .tickSlot t₂ = .next t₃ ∧
      t₃.wave = s.wave ++ [.high, if bit then .high else .low, .low] ∧
      t₃.txCells = s.txCells ++ [if bit then .one else .zero] ∧ t₃.pinLevel = .low ∧ t₃.timPhase = .start ∧
      t₃.encPos.toNat = (s.encPos.toNat + 2) % 288

/-- The event latch: only TICK_SLOT at the wrap sets it; only REFILL, an accepted TRIGGER_UPDATE and the INIT that makes the
Device clear it (60_exceptions.md section 2). -/
def Obligations.EventLatchSetAndCleared : Prop :=
  ∀ (i : Instr) (s t : State), exec i s = .next t →
    (s.halfDonePending = false → t.halfDonePending = true → i = .tickSlot ∧ s.encPos.toNat = 287 ∧ s.encEn = true) ∧
    (s.halfDonePending = true → t.halfDonePending = false →
      i = .refill ∨ (i = .triggerUpdate ∧ s.initialized = true ∧ s.halted = false ∧ s.inProgress = false) ∨
      ((∃ maxLeds pinMask16 drive, i = .init maxLeds pinMask16 drive) ∧ s.initialized = false ∧ s.halted = false ∧
        t.initialized = true)) ∧
    (i = .refill → t.halfDonePending = false)

/-- The missed-deadline flag: set exactly by the TICK_SLOT that wraps while an event is pending, and once a Device exists
never cleared (44_refill_controller.md section 5). -/
def Obligations.MissedDeadlineIsStickyAndExact : Prop :=
  ∀ (i : Instr) (s t : State), exec i s = .next t →
    (s.initialized = true → s.refillMissed = true → t.refillMissed = true) ∧
    (s.refillMissed = false →
      (t.refillMissed = true ↔ i = .tickSlot ∧ s.encEn = true ∧ s.encPos.toNat = 287 ∧ s.halfDonePending = true))

/-- R182, R179: while the timer runs a TICK is enabled and completes, whether or not an event is pending; only the REFILL that
performs STOP leaves the timer stopped; the step that transfers slot 287 switches to slot 0 of the other buffer and
raises the event, and the next bit cell follows, whether or not a REFILL is late. -/
def Obligations.HardwareIsAutonomous : Prop :=
  (∀ s : State, s.Consistent → s.timEn = true →
    if s.timPhase = .start then ∃ t, exec .tickStart s = .next t else ∃ t, exec .tickSlot s = .next t) ∧
  (∀ s : State, s.Consistent → s.timEn = true → s.timPhase ≠ .start → s.encPos.toNat = 287 →
    ∃ t, exec .tickSlot s = .next t ∧ t.encCt = (!s.encCt) ∧ t.encPos = 0 ∧ t.halfDonePending = true ∧ t.timEn = true ∧
      t.timPhase = .start ∧ ∀ h, t.mem (.wb h) = s.mem (.wb h)) ∧
  ∀ (i : Instr) (s t : State), s.initialized = true → exec i s = .next t → s.timEn = true → t.timEn = false →
    i = .refill ∧ s.phase = .draining ∧ 2 ≤ s.drainCount.toNat

/-- R237: the steps of the hardware and of the refill controller raise no error: they never change the response or the
halt; a missed deadline is latched in `refill_missed` and reported to nobody. -/
def Obligations.EventStepsRaiseNoError : Prop :=
  (∀ (i : Instr) (s t : State), isHostStep i = false → exec i s = .next t →
    t.lastStatus = s.lastStatus ∧ t.halted = s.halted) ∧
  ∀ s : State, s.DeviceOk → s.timEn = true → s.timPhase = .odd → s.encPos.toNat = 287 → s.halfDonePending = true →
    ∃ t, exec .tickSlot s = .next t ∧ t.refillMissed = true ∧ t.lastStatus = s.lastStatus ∧ t.halted = s.halted

/-! ### The Refill Controller (44_refill_controller.md) -/

/-- TRIGGER_UPDATE on an idle Device that is not halted: both buffers filled from the first pixel byte, the hardware
armed, the frame started; every other field and every other byte as before. -/
def Obligations.TriggerStartsTheFrame : Prop :=
  ∀ s : State, s.initialized = true → s.halted = false → s.inProgress = false → 1 ≤ s.capacity.toNat →
    s.capacity.toNat ≤ 1024 → Memory.Holds s.pix (3 * s.capacity.toNat) →
    ∃ t, exec .triggerUpdate s = .next t ∧
      t = { s with
        wb0 := t.wb0, wb1 := t.wb1, cursor := BitVec.ofNat 12 (min 36 (3 * s.capacity.toNat)),
        endReached := decide (s.capacity.toNat ≤ 12), drainCount := if s.capacity.toNat ≤ 6 then 1 else 0,
        activeHalf := false, inProgress := true,
        phase := if s.capacity.toNat ≤ 12 then .draining else .fillingFirstHalf,
        timEn := true, idleEn := true, encEn := true, encDbm := true, timPhase := .start, encCt := false, encPos := 0,
        halfDonePending := false, frameValid := true, txCells := [], wave := [], lastStatus := .ok } ∧
      (∀ k, k < 144 →
        Memory.read t.wb0 (2 * k) = some (if k < 24 * s.capacity.toNat then (if s.streamBit k then 0 else s.mask) else 0) ∧
        Memory.read t.wb1 (2 * k) = some (if 144 + k < 24 * s.capacity.toNat then (if s.streamBit (144 + k) then 0 else s.mask) else 0)) ∧
      ∀ a, a % 2 = 1 ∨ 288 ≤ a → Memory.read t.wb0 a = Memory.read s.wb0 a ∧ Memory.read t.wb1 a = Memory.read s.wb1 a

/-- R202: a TRIGGER_UPDATE while a frame is in flight is dropped: the response is OK and nothing else changes; and no
frame ever starts but by an accepted TRIGGER_UPDATE. -/
def Obligations.TriggerDuringFrameDropped : Prop :=
  (∀ s : State, s.initialized = true → s.halted = false → s.inProgress = true →
    exec .triggerUpdate s = .next { s with lastStatus := .ok }) ∧
  ∀ (i : Instr) (s t : State), exec i s = .next t → s.inProgress = false → t.inProgress = true →
    i = .triggerUpdate ∧ s.initialized = true ∧ s.halted = false

/-- Scenario 1 of the source: after SET_ALL of black and TRIGGER_UPDATE every even slot that carries a pixel bit equals
the mask, and the others are 0 (44_refill_controller.md section 3). -/
def Obligations.BlackFrameSlots : Prop :=
  ∀ s : State, s.Consistent → s.initialized = true → s.halted = false → s.inProgress = false →
    ∃ t u, exec (.setAll 0 0 0) s = .next t ∧ exec .triggerUpdate t = .next u ∧
      ∀ n, n < 288 → Memory.read (u.mem (.wb (decide (144 ≤ n)))) (evenSlot (n % 144)) =
        some (if n < 24 * s.capacity.toNat then s.mask else 0)

/-- REFILL while the drain is not over: the half just consumed is filled, `active_half` toggled, the event cleared, the
phase set by the boundary flag; nothing else changes. -/
def Obligations.RefillFillsTheConsumedHalf : Prop :=
  ∀ s : State, s.halfDonePending = true → ¬ (s.phase = .draining ∧ 2 ≤ s.drainCount.toNat) →
    s.capacity.toNat ≤ 1024 → Memory.Holds s.pix (3 * s.capacity.toNat) → s.cursor.toNat ≤ 3 * s.capacity.toNat →
    ∃ t, exec .refill s = .next t ∧
      t = { s with activeHalf := !s.activeHalf, halfDonePending := false, cursor := t.cursor, endReached := t.endReached, drainCount := if s.endReached then s.drainCount + 1 else s.drainCount, phase := if t.endReached then .draining else .streaming }.setMem (.wb s.activeHalf) (t.mem (.wb s.activeHalf)) ∧
      t.cursor.toNat = (if s.endReached then s.cursor.toNat else min (s.cursor.toNat + 18) (3 * s.capacity.toNat)) ∧
      t.endReached = (s.endReached || decide (3 * s.capacity.toNat ≤ s.cursor.toNat + 18)) ∧
      (∀ k, k < 144 → Memory.read (t.mem (.wb s.activeHalf)) (2 * k) =
        some (if s.endReached then 0 else if 8 * s.cursor.toNat + k < 24 * s.capacity.toNat then
          (if s.streamBit (8 * s.cursor.toNat + k) then 0 else s.mask) else 0)) ∧
      ∀ a, a % 2 = 1 ∨ 288 ≤ a → Memory.read (t.mem (.wb s.activeHalf)) a = Memory.read (s.mem (.wb s.activeHalf)) a

/-- REFILL when the drain is over: STOP, and the frame is over; no byte of any memory changes
(44_refill_controller.md section 4). -/
def Obligations.RefillEndsTheFrame : Prop :=
  ∀ s : State, s.halfDonePending = true → s.phase = .draining → 2 ≤ s.drainCount.toNat →
    exec .refill s = .next { s with activeHalf := !s.activeHalf, timEn := false, idleEn := false, encEn := false, pinLevel := if s.mask = 0 then s.pinLevel else .low, inProgress := false, phase := .idle, halfDonePending := false }

/-- The frame state machine makes exactly the transitions of the table of 44_refill_controller.md section 1: every step that
changes `phase` is a row of the table, every row is taken where its condition holds, and REFILL cannot occur in IDLE. -/
def Obligations.PhaseTransitions : Prop :=
  (∀ (i : Instr) (s t : State), s.Consistent → s.initialized = true → exec i s = .next t → t.phase ≠ s.phase →
    (i = .triggerUpdate ∧ s.phase = .idle ∧ 13 ≤ s.capacity.toNat ∧ t.endReached = false ∧ t.phase = .fillingFirstHalf) ∨
    (i = .triggerUpdate ∧ s.phase = .idle ∧ s.capacity.toNat ≤ 12 ∧ t.endReached = true ∧ t.phase = .draining) ∨
    (i = .refill ∧ s.phase = .fillingFirstHalf ∧ t.endReached = false ∧ t.phase = .streaming) ∨
    (i = .refill ∧ (s.phase = .fillingFirstHalf ∨ s.phase = .streaming) ∧ t.endReached = true ∧ t.phase = .draining) ∨
    (i = .refill ∧ s.phase = .draining ∧ 2 ≤ s.drainCount.toNat ∧ t.phase = .idle)) ∧
  ∀ s : State, s.Consistent → s.initialized = true →
    (s.phase = .idle → s.halted = false → ∃ t, exec .triggerUpdate s = .next t ∧
      t.endReached = decide (s.capacity.toNat ≤ 12) ∧ t.phase = if t.endReached then .draining else .fillingFirstHalf) ∧
    (s.phase ≠ .idle → s.inProgress = true ∧ ∃ t, exec .triggerUpdate s = .next t ∧ t.phase = s.phase) ∧
    (s.phase = .fillingFirstHalf ∨ s.phase = .streaming → s.halfDonePending = true → ∃ t, exec .refill s = .next t ∧
      t.phase = if t.endReached then .draining else .streaming) ∧
    (s.phase = .draining → s.halfDonePending = true → ∃ t, exec .refill s = .next t ∧
      t.phase = if 2 ≤ s.drainCount.toNat then .idle else .draining) ∧
    (s.phase = .idle → s.halfDonePending = false)

/-- While the timer runs and no deadline was missed, no step writes the half the hardware reads, and only REFILL writes
the other one (10_state.md section 2; 70_reset_and_hazards.md section 3). -/
def Obligations.HalfBeingReadIsNotWritten : Prop :=
  ∀ (i : Instr) (s t : State), s.Consistent → s.timEn = true → s.refillMissed = false → exec i s = .next t →
    t.mem (.wb s.encCt) = s.mem (.wb s.encCt) ∧
    (i ≠ .refill → t.mem (.wb (!s.encCt)) = s.mem (.wb (!s.encCt)))

/-- R33: within a frame `cursor` never decreases; only an accepted TRIGGER_UPDATE takes it back, to the first byte, from
where its two fills advance it; a dropped or refused one leaves it. -/
def Obligations.CursorMonotone : Prop :=
  ∀ (i : Instr) (s t : State), s.Consistent → s.initialized = true → exec i s = .next t →
    (s.inProgress = true → s.cursor.toNat ≤ t.cursor.toNat) ∧
    (t.cursor.toNat < s.cursor.toNat → i = .triggerUpdate ∧ s.halted = false ∧ s.inProgress = false) ∧
    (i = .triggerUpdate → s.halted = false → s.inProgress = false →
      s.prefill = { s with cursor := 0 }.prefill ∧ t.cursor.toNat = min 36 (3 * s.capacity.toNat)) ∧
    (i = .triggerUpdate → s.halted = true ∨ s.inProgress = true → t.cursor = s.cursor)

/-- R31, R127: INIT gives the Device its capacity and a pixel store that lists exactly the bytes of `capacity` pixels; once it
exists it stays, and no step changes either; the mask, the idle slot, the lane and the drive mode do not change either. -/
def Obligations.ConstructionParametersFixed : Prop :=
  (∀ (s t : State) (maxLeds pinMask16 : BitVec 16) (drive : BitVec 1),
    exec (.init maxLeds pinMask16 drive) s = .next t → s.initialized = false → t.initialized = true →
    t.capacity.toNat = maxLeds.toNat ∧ Memory.Holds t.pix (3 * t.capacity.toNat)) ∧
  ∀ s t : State, s.initialized = true → step s = .next t →
    t.initialized = true ∧ t.capacity = s.capacity ∧
    (Memory.Holds s.pix (3 * s.capacity.toNat) → Memory.Holds t.pix (3 * t.capacity.toNat)) ∧
    t.mask = s.mask ∧ t.isb = s.isb ∧ t.pinLane = s.pinLane ∧ t.pinMode = s.pinMode

/-- R34: `in_progress` rises only by an accepted TRIGGER_UPDATE and falls only by the REFILL that performs STOP; a
TRIGGER_UPDATE in between changes nothing but the response. -/
def Obligations.InProgressLifetime : Prop :=
  ∀ (i : Instr) (s t : State), s.initialized = true → exec i s = .next t →
    (s.inProgress = false → t.inProgress = true → i = .triggerUpdate ∧ s.halted = false) ∧
    (i = .triggerUpdate → s.halted = false → t.inProgress = true) ∧
    (s.inProgress = true → t.inProgress = false →
      i = .refill ∧ s.phase = .draining ∧ 2 ≤ s.drainCount.toNat ∧ t.timEn = false ∧ t.idleEn = false ∧ t.encEn = false) ∧
    (i = .refill → s.phase = .draining → 2 ≤ s.drainCount.toNat → t.inProgress = false) ∧
    (i = .triggerUpdate → s.inProgress = true → t = { s with lastStatus := t.lastStatus })

/-- A host step cannot disturb a frame in flight: it reaches the pixels, the frame's mark, the response and the halt, and
no buffer, pointer, phase, engine or pin (20_memory.md section 3; 10_state.md section 7). -/
def Obligations.HostCannotDisturbAFrame : Prop :=
  ∀ (i : Instr) (s t : State), isHostStep i = true → s.initialized = true → s.inProgress = true → exec i s = .next t →
    t = { s with pix := t.pix, frameValid := t.frameValid, lastStatus := t.lastStatus, halted := t.halted } ∧
    (t.pix ≠ s.pix → t.frameValid = false)

/-- R79: every host step completes in one step, in every consistent state. -/
def Obligations.HostStepsComplete : Prop :=
  ∀ (i : Instr) (s : State), s.Consistent → isHostStep i = true → ∃ t, exec i s = .next t

/-- No rule reads the drive mode or the lane: apart from INIT, a step does the same whatever they hold
(40_device_init.md; 20_memory.md section 1). -/
def Obligations.PinModeAndLaneUnread : Prop :=
  ∀ (i : Instr) (s t : State) (lane mode : BitVec 1), (∀ maxLeds pinMask16 drive, i ≠ .init maxLeds pinMask16 drive) →
    exec i s = .next t →
    exec i { s with pinLane := lane, pinMode := mode } = .next { t with pinLane := lane, pinMode := mode }

/-! ### Invariants and the frame (10_state.md sections 2 and 7, 44_refill_controller.md sections 4 and 5) -/

/-- The state after power-on meets every invariant below. -/
def Obligations.ResetMeetsTheInvariants : Prop :=
  State.reset.canonical ∧ State.reset.Consistent ∧ State.reset.FrameInv

/-- Every step keeps every memory in canonical form, from any state whose memories are. -/
def Obligations.CanonicalMemoriesKept : Prop :=
  ∀ s t : State, s.canonical → step s = .next t → t.canonical

/-- Every step keeps a consistent state consistent: the value ranges, the odd slots, and the relations between the timer,
the engines, the half record, the phase, the boundary flag and the cursor. -/
def Obligations.ConsistentKept : Prop :=
  ∀ s t : State, s.Consistent → step s = .next t → t.Consistent

/-- A consistent state always has a next one: no fault and no refusal stops the machine. Where the turn falls to an agent with
no enabled step, the next state is the model's choice that it passes the turn, notes/assumptions/5.md. -/
def Obligations.ConsistentStateSteps : Prop :=
  ∀ s : State, s.Consistent → ∃ t, step s = .next t

/-- Every step keeps the frame invariant: with no pixel written during the frame and the state not faulted, what the pin has
sent, what the buffers hold and where the encoder stands are what the pixels say. -/
def Obligations.FrameInvariantKept : Prop :=
  ∀ s t : State, s.FrameInv → step s = .next t → t.FrameInv

/-- Where the hardware stands in a frame: cell `c` occupies ticks `3c + 1` to `3c + 3` and reads the even slot
`2 * (c mod 144)` of buffer `(c div 144) mod 2`; the event is raised at every tick that is a multiple of 432
(43_transfer_orchestrator.md section 3). -/
def Obligations.HardwarePositionInTheFrame : Prop :=
  ∀ s : State, s.FrameInv → s.initialized = true → s.inProgress = true → s.frameSound = true →
    s.wave.length = 3 * s.txCells.length + (match s.timPhase with | .start => 0 | .even => 1 | .odd => 2) ∧
    s.encPos.toNat = 2 * (s.txCells.length % 144) + (if s.timPhase = .odd then 1 else 0) ∧
    s.encCt = decide ((s.txCells.length / 144) % 2 = 1) ∧
    ∀ t, exec .tickSlot s = .next t → (t.wave.length % 432 = 0 ↔ s.encPos.toNat = 287)

/-- Which REFILL ends a frame: the one that services event `ceil(capacity / 6) + 1` and no other
(44_refill_controller.md section 4). -/
def Obligations.FrameEndsAtItsEvent : Prop :=
  ∀ s t : State, s.FrameInv → s.initialized = true → s.frameSound = true → exec .refill s = .next t →
    (t.inProgress = false ↔ s.txCells.length / 144 = (s.capacity.toNat + 5) / 6 + 1)

/-- What the pin has sent when a frame ends: the `24 * capacity` data symbols in stream order, then only long pulses, as
many as the tail, the idle half and `g < 144` cells of the guard half; the pin's levels are those of the same bits; and
the run is over (rule R285: no frame, IDLE, the timer stopped, no event, not faulted) with the pin LOW
(44_refill_controller.md section 4; 00_scope.md section 6). -/
def Obligations.FrameDelivered : Prop :=
  ∀ s t : State, s.FrameInv → s.initialized = true → s.frameSound = true → exec .refill s = .next t →
    t.inProgress = false →
    (∃ g, g < 144 ∧ t.txCells = (List.range (24 * s.capacity.toNat)).map (fun n => if s.streamBit n then .one else .zero) ++
      List.replicate (144 * ((s.capacity.toNat + 5) / 6 + 1) - 24 * s.capacity.toNat + g) .one) ∧
    (List.range (24 * s.capacity.toNat)).flatMap (fun n => [Level.high, if s.streamBit n then .high else .low, .low]) <+:
      t.wave ∧
    t.final = true ∧ t.pinLevel = .low
end

