-- ==== Sys2Proof/Laws/Decode.lean ====
section
/-!
SUPPORT. The fields of a command word, said once: each field of an assembled word is what was put there, and a word is its
fields put together (rule R98).
-/

namespace Sys2Proof

/-- A bit below the width of the low part of a concatenation is the low part's. -/
theorem append_low {n m : Nat} (x : BitVec n) (y : BitVec m) {i : Nat} (h : i < m) :
    (x ++ y).getLsbD i = y.getLsbD i := by
  rw [BitVec.getLsbD_append, if_pos h]

/-- A bit above it is the high part's. -/
theorem append_high {n m : Nat} (x : BitVec n) (y : BitVec m) {i j : Nat} (h : j + m = i) :
    (x ++ y).getLsbD i = x.getLsbD j := by
  rw [BitVec.getLsbD_append, if_neg (by omega)]; congr 1; omega

section
variable (o : BitVec 8) (a m : BitVec 16) (x y z : BitVec 8)

theorem cmdOpcode_cmdWord : cmdOpcode (cmdWord o a m x y z) = o := by
  unfold cmdOpcode cmdWord
  apply BitVec.eq_of_getLsbD_eq
  intro i hi
  simp only [BitVec.getLsbD_extractLsb', decide_eq_true hi, Bool.true_and]
  rw [append_high (j := 48 + i), append_high (j := 40 + i), append_high (j := 32 + i), append_high (j := 16 + i), append_high (j := i)] <;> omega

theorem cmdA16_cmdWord : cmdA16 (cmdWord o a m x y z) = a := by
  unfold cmdA16 cmdWord
  apply BitVec.eq_of_getLsbD_eq
  intro i hi
  simp only [BitVec.getLsbD_extractLsb', decide_eq_true hi, Bool.true_and]
  rw [append_high (j := 32 + i), append_high (j := 24 + i), append_high (j := 16 + i), append_high (j := i), append_low] <;> omega

theorem cmdM16_cmdWord : cmdM16 (cmdWord o a m x y z) = m := by
  unfold cmdM16 cmdWord
  apply BitVec.eq_of_getLsbD_eq
  intro i hi
  simp only [BitVec.getLsbD_extractLsb', decide_eq_true hi, Bool.true_and]
  rw [append_high (j := 16 + i), append_high (j := 8 + i), append_high (j := i), append_low] <;> omega

theorem cmdC2_cmdWord : cmdC2 (cmdWord o a m x y z) = x := by
  unfold cmdC2 cmdWord
  apply BitVec.eq_of_getLsbD_eq
  intro i hi
  simp only [BitVec.getLsbD_extractLsb', decide_eq_true hi, Bool.true_and]
  rw [append_high (j := 8 + i), append_high (j := i), append_low] <;> omega

theorem cmdC1_cmdWord : cmdC1 (cmdWord o a m x y z) = y := by
  unfold cmdC1 cmdWord
  apply BitVec.eq_of_getLsbD_eq
  intro i hi
  simp only [BitVec.getLsbD_extractLsb', decide_eq_true hi, Bool.true_and]
  rw [append_high (j := i), append_low] <;> omega

theorem cmdC0_cmdWord : cmdC0 (cmdWord o a m x y z) = z := by
  unfold cmdC0 cmdWord
  apply BitVec.eq_of_getLsbD_eq
  intro i hi
  simp only [BitVec.getLsbD_extractLsb', decide_eq_true hi, Bool.true_and, Nat.zero_add]
  rw [append_low]; omega

end

/-- A command word is its fields put together. -/
theorem cmdWord_fields (w : BitVec 64) :
    cmdWord (cmdOpcode w) (cmdA16 w) (cmdM16 w) (cmdC2 w) (cmdC1 w) (cmdC0 w) = w := by
  unfold cmdOpcode cmdA16 cmdM16 cmdC2 cmdC1 cmdC0 cmdWord
  apply BitVec.eq_of_getLsbD_eq
  intro i hi
  simp only [BitVec.getLsbD_append, BitVec.getLsbD_extractLsb']
  split_ifs <;> (rw [decide_eq_true (by omega), Bool.true_and]; congr 1; omega)

/-- `c0` of INIT: seven zero bits and the drive mode (rule R99). -/
theorem drive_fields (d : BitVec 1) : (0#7 ++ d).extractLsb' 1 7 = 0#7 ∧ (0#7 ++ d).extractLsb' 0 1 = d := by
  revert d; decide

/-- A byte whose seven high bits are 0 is its low bit. -/
theorem drive_of_field (c : BitVec 8) (h : c.extractLsb' 1 7 = 0#7) : 0#7 ++ c.extractLsb' 0 1 = c := by
  revert c; decide

/-! ### The rows of the opcode table, field by field -/

/-- Masking two concatenations masks their parts. -/
theorem append_and {n m : Nat} (a b : BitVec n) (c d : BitVec m) : (a ++ c) &&& (b ++ d) = (a &&& b) ++ (c &&& d) := by
  apply BitVec.eq_of_getLsbD_eq
  intro i hi
  simp only [BitVec.getLsbD_and, BitVec.getLsbD_append]
  split <;> simp

/-- Masking two command words masks their fields. -/
theorem cmdWord_and (o a m x y z o' a' m' x' y' z') :
    cmdWord o a m x y z &&& cmdWord o' a' m' x' y' z' =
      cmdWord (o &&& o') (a &&& a') (m &&& m') (x &&& x') (y &&& y') (z &&& z') := by
  unfold cmdWord; rw [append_and, append_and, append_and, append_and, append_and]

/-- Two command words are equal exactly if their fields are. -/
theorem cmdWord_inj {o a m x y z o' a' m' x' y' z'} : cmdWord o a m x y z = cmdWord o' a' m' x' y' z' ↔
    o = o' ∧ a = a' ∧ m = m' ∧ x = x' ∧ y = y' ∧ z = z' := by
  constructor
  · intro h
    have h1 := congrArg cmdOpcode h; have h2 := congrArg cmdA16 h; have h3 := congrArg cmdM16 h
    have h4 := congrArg cmdC2 h; have h5 := congrArg cmdC1 h; have h6 := congrArg cmdC0 h
    simp only [cmdOpcode_cmdWord, cmdA16_cmdWord, cmdM16_cmdWord, cmdC2_cmdWord, cmdC1_cmdWord, cmdC0_cmdWord] at *
    exact ⟨h1, h2, h3, h4, h5, h6⟩
  · rintro ⟨rfl, rfl, rfl, rfl, rfl, rfl⟩; rfl

/-- The four command rows, their match and mask written as fields. -/
theorem commandRows_fields : commandRows =
    [⟨cmdWord 1 0 0 0 0 0, cmdWord 0xff 0 0 0xff 0xff 0xfe⟩, ⟨cmdWord 2 0 0 0 0 0, cmdWord 0xff 0 0xffff 0 0 0⟩,
     ⟨cmdWord 3 0 0 0 0 0, cmdWord 0xff 0xffff 0xffff 0 0 0⟩,
     ⟨cmdWord 4 0 0 0 0 0, cmdWord 0xff 0xffff 0xffff 0xff 0xff 0xff⟩] := by decide

/-- Which words each command row admits, in the table's order, said of their fields. -/
theorem commandRows_admits (w : BitVec 64) : commandRows.map (fun row => row.admits w) =
    [decide (cmdOpcode w = 1 ∧ cmdC2 w = 0 ∧ cmdC1 w = 0 ∧ (cmdC0 w).extractLsb' 1 7 = 0),
     decide (cmdOpcode w = 2 ∧ cmdM16 w = 0),
     decide (cmdOpcode w = 3 ∧ cmdA16 w = 0 ∧ cmdM16 w = 0),
     decide (cmdOpcode w = 4 ∧ cmdA16 w = 0 ∧ cmdM16 w = 0 ∧ cmdC2 w = 0 ∧ cmdC1 w = 0 ∧ cmdC0 w = 0)] := by
  have high : ∀ c : BitVec 8, c &&& 254#8 = 0#8 ↔ c.extractLsb' 1 7 = 0#7 := by decide
  have full8 : ∀ c : BitVec 8, c &&& 0xff = c := by decide
  have full16 : ∀ c : BitVec 16, c &&& 0xffff = c := by
    intro c
    have : (0xffff : BitVec 16) = BitVec.allOnes 16 := by decide
    rw [this, BitVec.and_allOnes]
  rw [commandRows_fields]
  simp only [List.map_cons, List.map_nil, CommandRow.admits]
  conv_lhs => rw [← cmdWord_fields w]
  simp only [cmdWord_and, beq_eq_decide, cmdWord_inj, full8, full16]
  simp [high]

end Sys2Proof
end

