-- ==== Sys2Proof/Laws/State.lean ====
section
/-!
SUPPORT. What each named update of the state leaves in each field: one lemma per field per update, so that no later proof
unfolds a record update.
-/

namespace Sys2Proof.Machine

variable (s : State)

/-! ### `setMem` -/

@[simp] theorem State.setMem_initialized (sp : Space) (m : Memory) : (s.setMem sp m).initialized = s.initialized := by cases sp with | wb h => cases h <;> rfl | _ => rfl
@[simp] theorem State.setMem_halted (sp : Space) (m : Memory) : (s.setMem sp m).halted = s.halted := by cases sp with | wb h => cases h <;> rfl | _ => rfl
@[simp] theorem State.setMem_lastStatus (sp : Space) (m : Memory) : (s.setMem sp m).lastStatus = s.lastStatus := by cases sp with | wb h => cases h <;> rfl | _ => rfl
@[simp] theorem State.setMem_capacity (sp : Space) (m : Memory) : (s.setMem sp m).capacity = s.capacity := by cases sp with | wb h => cases h <;> rfl | _ => rfl
@[simp] theorem State.setMem_cursor (sp : Space) (m : Memory) : (s.setMem sp m).cursor = s.cursor := by cases sp with | wb h => cases h <;> rfl | _ => rfl
@[simp] theorem State.setMem_endReached (sp : Space) (m : Memory) : (s.setMem sp m).endReached = s.endReached := by cases sp with | wb h => cases h <;> rfl | _ => rfl
@[simp] theorem State.setMem_activeHalf (sp : Space) (m : Memory) : (s.setMem sp m).activeHalf = s.activeHalf := by cases sp with | wb h => cases h <;> rfl | _ => rfl
@[simp] theorem State.setMem_inProgress (sp : Space) (m : Memory) : (s.setMem sp m).inProgress = s.inProgress := by cases sp with | wb h => cases h <;> rfl | _ => rfl
@[simp] theorem State.setMem_mask (sp : Space) (m : Memory) : (s.setMem sp m).mask = s.mask := by cases sp with | wb h => cases h <;> rfl | _ => rfl
@[simp] theorem State.setMem_phase (sp : Space) (m : Memory) : (s.setMem sp m).phase = s.phase := by cases sp with | wb h => cases h <;> rfl | _ => rfl
@[simp] theorem State.setMem_drainCount (sp : Space) (m : Memory) : (s.setMem sp m).drainCount = s.drainCount := by cases sp with | wb h => cases h <;> rfl | _ => rfl
@[simp] theorem State.setMem_timEn (sp : Space) (m : Memory) : (s.setMem sp m).timEn = s.timEn := by cases sp with | wb h => cases h <;> rfl | _ => rfl
@[simp] theorem State.setMem_timPhase (sp : Space) (m : Memory) : (s.setMem sp m).timPhase = s.timPhase := by cases sp with | wb h => cases h <;> rfl | _ => rfl
@[simp] theorem State.setMem_idleEn (sp : Space) (m : Memory) : (s.setMem sp m).idleEn = s.idleEn := by cases sp with | wb h => cases h <;> rfl | _ => rfl
@[simp] theorem State.setMem_encEn (sp : Space) (m : Memory) : (s.setMem sp m).encEn = s.encEn := by cases sp with | wb h => cases h <;> rfl | _ => rfl
@[simp] theorem State.setMem_encDbm (sp : Space) (m : Memory) : (s.setMem sp m).encDbm = s.encDbm := by cases sp with | wb h => cases h <;> rfl | _ => rfl
@[simp] theorem State.setMem_encCt (sp : Space) (m : Memory) : (s.setMem sp m).encCt = s.encCt := by cases sp with | wb h => cases h <;> rfl | _ => rfl
@[simp] theorem State.setMem_encPos (sp : Space) (m : Memory) : (s.setMem sp m).encPos = s.encPos := by cases sp with | wb h => cases h <;> rfl | _ => rfl
@[simp] theorem State.setMem_halfDonePending (sp : Space) (m : Memory) : (s.setMem sp m).halfDonePending = s.halfDonePending := by cases sp with | wb h => cases h <;> rfl | _ => rfl
@[simp] theorem State.setMem_refillMissed (sp : Space) (m : Memory) : (s.setMem sp m).refillMissed = s.refillMissed := by cases sp with | wb h => cases h <;> rfl | _ => rfl
@[simp] theorem State.setMem_pinLevel (sp : Space) (m : Memory) : (s.setMem sp m).pinLevel = s.pinLevel := by cases sp with | wb h => cases h <;> rfl | _ => rfl
@[simp] theorem State.setMem_pinLane (sp : Space) (m : Memory) : (s.setMem sp m).pinLane = s.pinLane := by cases sp with | wb h => cases h <;> rfl | _ => rfl
@[simp] theorem State.setMem_pinMode (sp : Space) (m : Memory) : (s.setMem sp m).pinMode = s.pinMode := by cases sp with | wb h => cases h <;> rfl | _ => rfl
@[simp] theorem State.setMem_frameValid (sp : Space) (m : Memory) : (s.setMem sp m).frameValid = s.frameValid := by cases sp with | wb h => cases h <;> rfl | _ => rfl
@[simp] theorem State.setMem_txCells (sp : Space) (m : Memory) : (s.setMem sp m).txCells = s.txCells := by cases sp with | wb h => cases h <;> rfl | _ => rfl
@[simp] theorem State.setMem_wave (sp : Space) (m : Memory) : (s.setMem sp m).wave = s.wave := by cases sp with | wb h => cases h <;> rfl | _ => rfl
@[simp] theorem State.setMem_turns (sp : Space) (m : Memory) : (s.setMem sp m).turns = s.turns := by cases sp with | wb h => cases h <;> rfl | _ => rfl
@[simp] theorem State.setMem_draws (sp : Space) (m : Memory) : (s.setMem sp m).draws = s.draws := by cases sp with | wb h => cases h <;> rfl | _ => rfl

/-! ### `memWrite` -/

@[simp] theorem State.memWrite_initialized (sp : Space) (a : Nat) (v : Byte) : (s.memWrite sp a v).initialized = s.initialized := State.setMem_initialized s sp _
@[simp] theorem State.memWrite_halted (sp : Space) (a : Nat) (v : Byte) : (s.memWrite sp a v).halted = s.halted := State.setMem_halted s sp _
@[simp] theorem State.memWrite_lastStatus (sp : Space) (a : Nat) (v : Byte) : (s.memWrite sp a v).lastStatus = s.lastStatus := State.setMem_lastStatus s sp _
@[simp] theorem State.memWrite_capacity (sp : Space) (a : Nat) (v : Byte) : (s.memWrite sp a v).capacity = s.capacity := State.setMem_capacity s sp _
@[simp] theorem State.memWrite_cursor (sp : Space) (a : Nat) (v : Byte) : (s.memWrite sp a v).cursor = s.cursor := State.setMem_cursor s sp _
@[simp] theorem State.memWrite_endReached (sp : Space) (a : Nat) (v : Byte) : (s.memWrite sp a v).endReached = s.endReached := State.setMem_endReached s sp _
@[simp] theorem State.memWrite_activeHalf (sp : Space) (a : Nat) (v : Byte) : (s.memWrite sp a v).activeHalf = s.activeHalf := State.setMem_activeHalf s sp _
@[simp] theorem State.memWrite_inProgress (sp : Space) (a : Nat) (v : Byte) : (s.memWrite sp a v).inProgress = s.inProgress := State.setMem_inProgress s sp _
@[simp] theorem State.memWrite_mask (sp : Space) (a : Nat) (v : Byte) : (s.memWrite sp a v).mask = s.mask := State.setMem_mask s sp _
@[simp] theorem State.memWrite_phase (sp : Space) (a : Nat) (v : Byte) : (s.memWrite sp a v).phase = s.phase := State.setMem_phase s sp _
@[simp] theorem State.memWrite_drainCount (sp : Space) (a : Nat) (v : Byte) : (s.memWrite sp a v).drainCount = s.drainCount := State.setMem_drainCount s sp _
@[simp] theorem State.memWrite_timEn (sp : Space) (a : Nat) (v : Byte) : (s.memWrite sp a v).timEn = s.timEn := State.setMem_timEn s sp _
@[simp] theorem State.memWrite_timPhase (sp : Space) (a : Nat) (v : Byte) : (s.memWrite sp a v).timPhase = s.timPhase := State.setMem_timPhase s sp _
@[simp] theorem State.memWrite_idleEn (sp : Space) (a : Nat) (v : Byte) : (s.memWrite sp a v).idleEn = s.idleEn := State.setMem_idleEn s sp _
@[simp] theorem State.memWrite_encEn (sp : Space) (a : Nat) (v : Byte) : (s.memWrite sp a v).encEn = s.encEn := State.setMem_encEn s sp _
@[simp] theorem State.memWrite_encDbm (sp : Space) (a : Nat) (v : Byte) : (s.memWrite sp a v).encDbm = s.encDbm := State.setMem_encDbm s sp _
@[simp] theorem State.memWrite_encCt (sp : Space) (a : Nat) (v : Byte) : (s.memWrite sp a v).encCt = s.encCt := State.setMem_encCt s sp _
@[simp] theorem State.memWrite_encPos (sp : Space) (a : Nat) (v : Byte) : (s.memWrite sp a v).encPos = s.encPos := State.setMem_encPos s sp _
@[simp] theorem State.memWrite_halfDonePending (sp : Space) (a : Nat) (v : Byte) : (s.memWrite sp a v).halfDonePending = s.halfDonePending := State.setMem_halfDonePending s sp _
@[simp] theorem State.memWrite_refillMissed (sp : Space) (a : Nat) (v : Byte) : (s.memWrite sp a v).refillMissed = s.refillMissed := State.setMem_refillMissed s sp _
@[simp] theorem State.memWrite_pinLevel (sp : Space) (a : Nat) (v : Byte) : (s.memWrite sp a v).pinLevel = s.pinLevel := State.setMem_pinLevel s sp _
@[simp] theorem State.memWrite_pinLane (sp : Space) (a : Nat) (v : Byte) : (s.memWrite sp a v).pinLane = s.pinLane := State.setMem_pinLane s sp _
@[simp] theorem State.memWrite_pinMode (sp : Space) (a : Nat) (v : Byte) : (s.memWrite sp a v).pinMode = s.pinMode := State.setMem_pinMode s sp _
@[simp] theorem State.memWrite_frameValid (sp : Space) (a : Nat) (v : Byte) : (s.memWrite sp a v).frameValid = s.frameValid := State.setMem_frameValid s sp _
@[simp] theorem State.memWrite_txCells (sp : Space) (a : Nat) (v : Byte) : (s.memWrite sp a v).txCells = s.txCells := State.setMem_txCells s sp _
@[simp] theorem State.memWrite_wave (sp : Space) (a : Nat) (v : Byte) : (s.memWrite sp a v).wave = s.wave := State.setMem_wave s sp _
@[simp] theorem State.memWrite_turns (sp : Space) (a : Nat) (v : Byte) : (s.memWrite sp a v).turns = s.turns := State.setMem_turns s sp _
@[simp] theorem State.memWrite_draws (sp : Space) (a : Nat) (v : Byte) : (s.memWrite sp a v).draws = s.draws := State.setMem_draws s sp _

/-! ### `portWrite` -/

@[simp] theorem State.portWrite_initialized (p : Port) (v : Byte) : (s.portWrite p v).initialized = s.initialized := by unfold State.portWrite; split <;> cases p <;> rfl
@[simp] theorem State.portWrite_halted (p : Port) (v : Byte) : (s.portWrite p v).halted = s.halted := by unfold State.portWrite; split <;> cases p <;> rfl
@[simp] theorem State.portWrite_lastStatus (p : Port) (v : Byte) : (s.portWrite p v).lastStatus = s.lastStatus := by unfold State.portWrite; split <;> cases p <;> rfl
@[simp] theorem State.portWrite_capacity (p : Port) (v : Byte) : (s.portWrite p v).capacity = s.capacity := by unfold State.portWrite; split <;> cases p <;> rfl
@[simp] theorem State.portWrite_pix (p : Port) (v : Byte) : (s.portWrite p v).pix = s.pix := by unfold State.portWrite; split <;> cases p <;> rfl
@[simp] theorem State.portWrite_cursor (p : Port) (v : Byte) : (s.portWrite p v).cursor = s.cursor := by unfold State.portWrite; split <;> cases p <;> rfl
@[simp] theorem State.portWrite_endReached (p : Port) (v : Byte) : (s.portWrite p v).endReached = s.endReached := by unfold State.portWrite; split <;> cases p <;> rfl
@[simp] theorem State.portWrite_activeHalf (p : Port) (v : Byte) : (s.portWrite p v).activeHalf = s.activeHalf := by unfold State.portWrite; split <;> cases p <;> rfl
@[simp] theorem State.portWrite_inProgress (p : Port) (v : Byte) : (s.portWrite p v).inProgress = s.inProgress := by unfold State.portWrite; split <;> cases p <;> rfl
@[simp] theorem State.portWrite_mask (p : Port) (v : Byte) : (s.portWrite p v).mask = s.mask := by unfold State.portWrite; split <;> cases p <;> rfl
@[simp] theorem State.portWrite_isb (p : Port) (v : Byte) : (s.portWrite p v).isb = s.isb := by unfold State.portWrite; split <;> cases p <;> rfl
@[simp] theorem State.portWrite_wb0 (p : Port) (v : Byte) : (s.portWrite p v).wb0 = s.wb0 := by unfold State.portWrite; split <;> cases p <;> rfl
@[simp] theorem State.portWrite_wb1 (p : Port) (v : Byte) : (s.portWrite p v).wb1 = s.wb1 := by unfold State.portWrite; split <;> cases p <;> rfl
@[simp] theorem State.portWrite_phase (p : Port) (v : Byte) : (s.portWrite p v).phase = s.phase := by unfold State.portWrite; split <;> cases p <;> rfl
@[simp] theorem State.portWrite_drainCount (p : Port) (v : Byte) : (s.portWrite p v).drainCount = s.drainCount := by unfold State.portWrite; split <;> cases p <;> rfl
@[simp] theorem State.portWrite_timEn (p : Port) (v : Byte) : (s.portWrite p v).timEn = s.timEn := by unfold State.portWrite; split <;> cases p <;> rfl
@[simp] theorem State.portWrite_timPhase (p : Port) (v : Byte) : (s.portWrite p v).timPhase = s.timPhase := by unfold State.portWrite; split <;> cases p <;> rfl
@[simp] theorem State.portWrite_idleEn (p : Port) (v : Byte) : (s.portWrite p v).idleEn = s.idleEn := by unfold State.portWrite; split <;> cases p <;> rfl
@[simp] theorem State.portWrite_encEn (p : Port) (v : Byte) : (s.portWrite p v).encEn = s.encEn := by unfold State.portWrite; split <;> cases p <;> rfl
@[simp] theorem State.portWrite_encDbm (p : Port) (v : Byte) : (s.portWrite p v).encDbm = s.encDbm := by unfold State.portWrite; split <;> cases p <;> rfl
@[simp] theorem State.portWrite_encCt (p : Port) (v : Byte) : (s.portWrite p v).encCt = s.encCt := by unfold State.portWrite; split <;> cases p <;> rfl
@[simp] theorem State.portWrite_encPos (p : Port) (v : Byte) : (s.portWrite p v).encPos = s.encPos := by unfold State.portWrite; split <;> cases p <;> rfl
@[simp] theorem State.portWrite_halfDonePending (p : Port) (v : Byte) : (s.portWrite p v).halfDonePending = s.halfDonePending := by unfold State.portWrite; split <;> cases p <;> rfl
@[simp] theorem State.portWrite_refillMissed (p : Port) (v : Byte) : (s.portWrite p v).refillMissed = s.refillMissed := by unfold State.portWrite; split <;> cases p <;> rfl
@[simp] theorem State.portWrite_pinLane (p : Port) (v : Byte) : (s.portWrite p v).pinLane = s.pinLane := by unfold State.portWrite; split <;> cases p <;> rfl
@[simp] theorem State.portWrite_pinMode (p : Port) (v : Byte) : (s.portWrite p v).pinMode = s.pinMode := by unfold State.portWrite; split <;> cases p <;> rfl
@[simp] theorem State.portWrite_frameValid (p : Port) (v : Byte) : (s.portWrite p v).frameValid = s.frameValid := by unfold State.portWrite; split <;> cases p <;> rfl
@[simp] theorem State.portWrite_txCells (p : Port) (v : Byte) : (s.portWrite p v).txCells = s.txCells := by unfold State.portWrite; split <;> cases p <;> rfl
@[simp] theorem State.portWrite_wave (p : Port) (v : Byte) : (s.portWrite p v).wave = s.wave := by unfold State.portWrite; split <;> cases p <;> rfl
@[simp] theorem State.portWrite_turns (p : Port) (v : Byte) : (s.portWrite p v).turns = s.turns := by unfold State.portWrite; split <;> cases p <;> rfl
@[simp] theorem State.portWrite_draws (p : Port) (v : Byte) : (s.portWrite p v).draws = s.draws := by unfold State.portWrite; split <;> cases p <;> rfl
@[simp] theorem State.portWrite_mem (p : Port) (v : Byte) (sp : Space) : (s.portWrite p v).mem sp = s.mem sp := by unfold State.portWrite; split <;> cases p <;> rfl
@[simp] theorem State.portWrite_streamEnd (p : Port) (v : Byte) : (s.portWrite p v).streamEnd = s.streamEnd := by unfold State.portWrite; split <;> cases p <;> rfl

/-! ### `respond` -/

@[simp] theorem State.respond_initialized (st : Status) : (s.respond st).initialized = s.initialized := rfl
@[simp] theorem State.respond_halted (st : Status) : (s.respond st).halted = s.halted := rfl
@[simp] theorem State.respond_lastStatus (st : Status) : (s.respond st).lastStatus = st := rfl
@[simp] theorem State.respond_capacity (st : Status) : (s.respond st).capacity = s.capacity := rfl
@[simp] theorem State.respond_pix (st : Status) : (s.respond st).pix = s.pix := rfl
@[simp] theorem State.respond_cursor (st : Status) : (s.respond st).cursor = s.cursor := rfl
@[simp] theorem State.respond_endReached (st : Status) : (s.respond st).endReached = s.endReached := rfl
@[simp] theorem State.respond_activeHalf (st : Status) : (s.respond st).activeHalf = s.activeHalf := rfl
@[simp] theorem State.respond_inProgress (st : Status) : (s.respond st).inProgress = s.inProgress := rfl
@[simp] theorem State.respond_mask (st : Status) : (s.respond st).mask = s.mask := rfl
@[simp] theorem State.respond_isb (st : Status) : (s.respond st).isb = s.isb := rfl
@[simp] theorem State.respond_wb0 (st : Status) : (s.respond st).wb0 = s.wb0 := rfl
@[simp] theorem State.respond_wb1 (st : Status) : (s.respond st).wb1 = s.wb1 := rfl
@[simp] theorem State.respond_phase (st : Status) : (s.respond st).phase = s.phase := rfl
@[simp] theorem State.respond_drainCount (st : Status) : (s.respond st).drainCount = s.drainCount := rfl
@[simp] theorem State.respond_timEn (st : Status) : (s.respond st).timEn = s.timEn := rfl
@[simp] theorem State.respond_timPhase (st : Status) : (s.respond st).timPhase = s.timPhase := rfl
@[simp] theorem State.respond_idleEn (st : Status) : (s.respond st).idleEn = s.idleEn := rfl
@[simp] theorem State.respond_encEn (st : Status) : (s.respond st).encEn = s.encEn := rfl
@[simp] theorem State.respond_encDbm (st : Status) : (s.respond st).encDbm = s.encDbm := rfl
@[simp] theorem State.respond_encCt (st : Status) : (s.respond st).encCt = s.encCt := rfl
@[simp] theorem State.respond_encPos (st : Status) : (s.respond st).encPos = s.encPos := rfl
@[simp] theorem State.respond_halfDonePending (st : Status) : (s.respond st).halfDonePending = s.halfDonePending := rfl
@[simp] theorem State.respond_refillMissed (st : Status) : (s.respond st).refillMissed = s.refillMissed := rfl
@[simp] theorem State.respond_pinLevel (st : Status) : (s.respond st).pinLevel = s.pinLevel := rfl
@[simp] theorem State.respond_pinLane (st : Status) : (s.respond st).pinLane = s.pinLane := rfl
@[simp] theorem State.respond_pinMode (st : Status) : (s.respond st).pinMode = s.pinMode := rfl
@[simp] theorem State.respond_frameValid (st : Status) : (s.respond st).frameValid = s.frameValid := rfl
@[simp] theorem State.respond_txCells (st : Status) : (s.respond st).txCells = s.txCells := rfl
@[simp] theorem State.respond_wave (st : Status) : (s.respond st).wave = s.wave := rfl
@[simp] theorem State.respond_turns (st : Status) : (s.respond st).turns = s.turns := rfl
@[simp] theorem State.respond_draws (st : Status) : (s.respond st).draws = s.draws := rfl
@[simp] theorem State.respond_mem (st : Status) (sp : Space) : (s.respond st).mem sp = s.mem sp := rfl
@[simp] theorem State.respond_streamEnd (st : Status) : (s.respond st).streamEnd = s.streamEnd := rfl

/-! ### `refuse` -/

@[simp] theorem State.refuse_initialized : (s.refuse).initialized = s.initialized := rfl
@[simp] theorem State.refuse_halted : (s.refuse).halted = s.halted := rfl
@[simp] theorem State.refuse_lastStatus : (s.refuse).lastStatus = .refused := rfl
@[simp] theorem State.refuse_capacity : (s.refuse).capacity = s.capacity := rfl
@[simp] theorem State.refuse_pix : (s.refuse).pix = s.pix := rfl
@[simp] theorem State.refuse_cursor : (s.refuse).cursor = s.cursor := rfl
@[simp] theorem State.refuse_endReached : (s.refuse).endReached = s.endReached := rfl
@[simp] theorem State.refuse_activeHalf : (s.refuse).activeHalf = s.activeHalf := rfl
@[simp] theorem State.refuse_inProgress : (s.refuse).inProgress = s.inProgress := rfl
@[simp] theorem State.refuse_mask : (s.refuse).mask = s.mask := rfl
@[simp] theorem State.refuse_isb : (s.refuse).isb = s.isb := rfl
@[simp] theorem State.refuse_wb0 : (s.refuse).wb0 = s.wb0 := rfl
@[simp] theorem State.refuse_wb1 : (s.refuse).wb1 = s.wb1 := rfl
@[simp] theorem State.refuse_phase : (s.refuse).phase = s.phase := rfl
@[simp] theorem State.refuse_drainCount : (s.refuse).drainCount = s.drainCount := rfl
@[simp] theorem State.refuse_timEn : (s.refuse).timEn = s.timEn := rfl
@[simp] theorem State.refuse_timPhase : (s.refuse).timPhase = s.timPhase := rfl
@[simp] theorem State.refuse_idleEn : (s.refuse).idleEn = s.idleEn := rfl
@[simp] theorem State.refuse_encEn : (s.refuse).encEn = s.encEn := rfl
@[simp] theorem State.refuse_encDbm : (s.refuse).encDbm = s.encDbm := rfl
@[simp] theorem State.refuse_encCt : (s.refuse).encCt = s.encCt := rfl
@[simp] theorem State.refuse_encPos : (s.refuse).encPos = s.encPos := rfl
@[simp] theorem State.refuse_halfDonePending : (s.refuse).halfDonePending = s.halfDonePending := rfl
@[simp] theorem State.refuse_refillMissed : (s.refuse).refillMissed = s.refillMissed := rfl
@[simp] theorem State.refuse_pinLevel : (s.refuse).pinLevel = s.pinLevel := rfl
@[simp] theorem State.refuse_pinLane : (s.refuse).pinLane = s.pinLane := rfl
@[simp] theorem State.refuse_pinMode : (s.refuse).pinMode = s.pinMode := rfl
@[simp] theorem State.refuse_frameValid : (s.refuse).frameValid = s.frameValid := rfl
@[simp] theorem State.refuse_txCells : (s.refuse).txCells = s.txCells := rfl
@[simp] theorem State.refuse_wave : (s.refuse).wave = s.wave := rfl
@[simp] theorem State.refuse_turns : (s.refuse).turns = s.turns := rfl
@[simp] theorem State.refuse_draws : (s.refuse).draws = s.draws := rfl
@[simp] theorem State.refuse_mem (sp : Space) : (s.refuse).mem sp = s.mem sp := rfl
@[simp] theorem State.refuse_streamEnd : (s.refuse).streamEnd = s.streamEnd := rfl

/-! ### `complete` -/

@[simp] theorem State.complete_initialized : (s.complete).initialized = s.initialized := rfl
@[simp] theorem State.complete_halted : (s.complete).halted = s.halted := rfl
@[simp] theorem State.complete_lastStatus : (s.complete).lastStatus = .ok := rfl
@[simp] theorem State.complete_capacity : (s.complete).capacity = s.capacity := rfl
@[simp] theorem State.complete_pix : (s.complete).pix = s.pix := rfl
@[simp] theorem State.complete_cursor : (s.complete).cursor = s.cursor := rfl
@[simp] theorem State.complete_endReached : (s.complete).endReached = s.endReached := rfl
@[simp] theorem State.complete_activeHalf : (s.complete).activeHalf = s.activeHalf := rfl
@[simp] theorem State.complete_inProgress : (s.complete).inProgress = s.inProgress := rfl
@[simp] theorem State.complete_mask : (s.complete).mask = s.mask := rfl
@[simp] theorem State.complete_isb : (s.complete).isb = s.isb := rfl
@[simp] theorem State.complete_wb0 : (s.complete).wb0 = s.wb0 := rfl
@[simp] theorem State.complete_wb1 : (s.complete).wb1 = s.wb1 := rfl
@[simp] theorem State.complete_phase : (s.complete).phase = s.phase := rfl
@[simp] theorem State.complete_drainCount : (s.complete).drainCount = s.drainCount := rfl
@[simp] theorem State.complete_timEn : (s.complete).timEn = s.timEn := rfl
@[simp] theorem State.complete_timPhase : (s.complete).timPhase = s.timPhase := rfl
@[simp] theorem State.complete_idleEn : (s.complete).idleEn = s.idleEn := rfl
@[simp] theorem State.complete_encEn : (s.complete).encEn = s.encEn := rfl
@[simp] theorem State.complete_encDbm : (s.complete).encDbm = s.encDbm := rfl
@[simp] theorem State.complete_encCt : (s.complete).encCt = s.encCt := rfl
@[simp] theorem State.complete_encPos : (s.complete).encPos = s.encPos := rfl
@[simp] theorem State.complete_halfDonePending : (s.complete).halfDonePending = s.halfDonePending := rfl
@[simp] theorem State.complete_refillMissed : (s.complete).refillMissed = s.refillMissed := rfl
@[simp] theorem State.complete_pinLevel : (s.complete).pinLevel = s.pinLevel := rfl
@[simp] theorem State.complete_pinLane : (s.complete).pinLane = s.pinLane := rfl
@[simp] theorem State.complete_pinMode : (s.complete).pinMode = s.pinMode := rfl
@[simp] theorem State.complete_frameValid : (s.complete).frameValid = s.frameValid := rfl
@[simp] theorem State.complete_txCells : (s.complete).txCells = s.txCells := rfl
@[simp] theorem State.complete_wave : (s.complete).wave = s.wave := rfl
@[simp] theorem State.complete_turns : (s.complete).turns = s.turns := rfl
@[simp] theorem State.complete_draws : (s.complete).draws = s.draws := rfl
@[simp] theorem State.complete_mem (sp : Space) : (s.complete).mem sp = s.mem sp := rfl
@[simp] theorem State.complete_streamEnd : (s.complete).streamEnd = s.streamEnd := rfl

/-! ### `raise` -/

@[simp] theorem State.raise_initialized (e : Status) : (s.raise e).initialized = s.initialized := by cases e <;> rfl
@[simp] theorem State.raise_halted (e : Status) : (s.raise e).halted = (s.halted || e == .indexOutOfRange) := by cases e <;> simp [State.raise, State.respond]
@[simp] theorem State.raise_lastStatus (e : Status) : (s.raise e).lastStatus = e := by cases e <;> rfl
@[simp] theorem State.raise_capacity (e : Status) : (s.raise e).capacity = s.capacity := by cases e <;> rfl
@[simp] theorem State.raise_pix (e : Status) : (s.raise e).pix = s.pix := by cases e <;> rfl
@[simp] theorem State.raise_cursor (e : Status) : (s.raise e).cursor = s.cursor := by cases e <;> rfl
@[simp] theorem State.raise_endReached (e : Status) : (s.raise e).endReached = s.endReached := by cases e <;> rfl
@[simp] theorem State.raise_activeHalf (e : Status) : (s.raise e).activeHalf = s.activeHalf := by cases e <;> rfl
@[simp] theorem State.raise_inProgress (e : Status) : (s.raise e).inProgress = s.inProgress := by cases e <;> rfl
@[simp] theorem State.raise_mask (e : Status) : (s.raise e).mask = s.mask := by cases e <;> rfl
@[simp] theorem State.raise_isb (e : Status) : (s.raise e).isb = s.isb := by cases e <;> rfl
@[simp] theorem State.raise_wb0 (e : Status) : (s.raise e).wb0 = s.wb0 := by cases e <;> rfl
@[simp] theorem State.raise_wb1 (e : Status) : (s.raise e).wb1 = s.wb1 := by cases e <;> rfl
@[simp] theorem State.raise_phase (e : Status) : (s.raise e).phase = s.phase := by cases e <;> rfl
@[simp] theorem State.raise_drainCount (e : Status) : (s.raise e).drainCount = s.drainCount := by cases e <;> rfl
@[simp] theorem State.raise_timEn (e : Status) : (s.raise e).timEn = s.timEn := by cases e <;> rfl
@[simp] theorem State.raise_timPhase (e : Status) : (s.raise e).timPhase = s.timPhase := by cases e <;> rfl
@[simp] theorem State.raise_idleEn (e : Status) : (s.raise e).idleEn = s.idleEn := by cases e <;> rfl
@[simp] theorem State.raise_encEn (e : Status) : (s.raise e).encEn = s.encEn := by cases e <;> rfl
@[simp] theorem State.raise_encDbm (e : Status) : (s.raise e).encDbm = s.encDbm := by cases e <;> rfl
@[simp] theorem State.raise_encCt (e : Status) : (s.raise e).encCt = s.encCt := by cases e <;> rfl
@[simp] theorem State.raise_encPos (e : Status) : (s.raise e).encPos = s.encPos := by cases e <;> rfl
@[simp] theorem State.raise_halfDonePending (e : Status) : (s.raise e).halfDonePending = s.halfDonePending := by cases e <;> rfl
@[simp] theorem State.raise_refillMissed (e : Status) : (s.raise e).refillMissed = s.refillMissed := by cases e <;> rfl
@[simp] theorem State.raise_pinLevel (e : Status) : (s.raise e).pinLevel = s.pinLevel := by cases e <;> rfl
@[simp] theorem State.raise_pinLane (e : Status) : (s.raise e).pinLane = s.pinLane := by cases e <;> rfl
@[simp] theorem State.raise_pinMode (e : Status) : (s.raise e).pinMode = s.pinMode := by cases e <;> rfl
@[simp] theorem State.raise_frameValid (e : Status) : (s.raise e).frameValid = s.frameValid := by cases e <;> rfl
@[simp] theorem State.raise_txCells (e : Status) : (s.raise e).txCells = s.txCells := by cases e <;> rfl
@[simp] theorem State.raise_wave (e : Status) : (s.raise e).wave = s.wave := by cases e <;> rfl
@[simp] theorem State.raise_turns (e : Status) : (s.raise e).turns = s.turns := by cases e <;> rfl
@[simp] theorem State.raise_draws (e : Status) : (s.raise e).draws = s.draws := by cases e <;> rfl
@[simp] theorem State.raise_mem (e : Status) (sp : Space) : (s.raise e).mem sp = s.mem sp := by cases e <;> rfl
@[simp] theorem State.raise_streamEnd (e : Status) : (s.raise e).streamEnd = s.streamEnd := by cases e <;> rfl

/-! ### `taintFrame` -/

@[simp] theorem State.taintFrame_initialized : (s.taintFrame).initialized = s.initialized := rfl
@[simp] theorem State.taintFrame_halted : (s.taintFrame).halted = s.halted := rfl
@[simp] theorem State.taintFrame_lastStatus : (s.taintFrame).lastStatus = s.lastStatus := rfl
@[simp] theorem State.taintFrame_capacity : (s.taintFrame).capacity = s.capacity := rfl
@[simp] theorem State.taintFrame_pix : (s.taintFrame).pix = s.pix := rfl
@[simp] theorem State.taintFrame_cursor : (s.taintFrame).cursor = s.cursor := rfl
@[simp] theorem State.taintFrame_endReached : (s.taintFrame).endReached = s.endReached := rfl
@[simp] theorem State.taintFrame_activeHalf : (s.taintFrame).activeHalf = s.activeHalf := rfl
@[simp] theorem State.taintFrame_inProgress : (s.taintFrame).inProgress = s.inProgress := rfl
@[simp] theorem State.taintFrame_mask : (s.taintFrame).mask = s.mask := rfl
@[simp] theorem State.taintFrame_isb : (s.taintFrame).isb = s.isb := rfl
@[simp] theorem State.taintFrame_wb0 : (s.taintFrame).wb0 = s.wb0 := rfl
@[simp] theorem State.taintFrame_wb1 : (s.taintFrame).wb1 = s.wb1 := rfl
@[simp] theorem State.taintFrame_phase : (s.taintFrame).phase = s.phase := rfl
@[simp] theorem State.taintFrame_drainCount : (s.taintFrame).drainCount = s.drainCount := rfl
@[simp] theorem State.taintFrame_timEn : (s.taintFrame).timEn = s.timEn := rfl
@[simp] theorem State.taintFrame_timPhase : (s.taintFrame).timPhase = s.timPhase := rfl
@[simp] theorem State.taintFrame_idleEn : (s.taintFrame).idleEn = s.idleEn := rfl
@[simp] theorem State.taintFrame_encEn : (s.taintFrame).encEn = s.encEn := rfl
@[simp] theorem State.taintFrame_encDbm : (s.taintFrame).encDbm = s.encDbm := rfl
@[simp] theorem State.taintFrame_encCt : (s.taintFrame).encCt = s.encCt := rfl
@[simp] theorem State.taintFrame_encPos : (s.taintFrame).encPos = s.encPos := rfl
@[simp] theorem State.taintFrame_halfDonePending : (s.taintFrame).halfDonePending = s.halfDonePending := rfl
@[simp] theorem State.taintFrame_refillMissed : (s.taintFrame).refillMissed = s.refillMissed := rfl
@[simp] theorem State.taintFrame_pinLevel : (s.taintFrame).pinLevel = s.pinLevel := rfl
@[simp] theorem State.taintFrame_pinLane : (s.taintFrame).pinLane = s.pinLane := rfl
@[simp] theorem State.taintFrame_pinMode : (s.taintFrame).pinMode = s.pinMode := rfl
@[simp] theorem State.taintFrame_frameValid : (s.taintFrame).frameValid = (s.frameValid && !s.inProgress) := rfl
@[simp] theorem State.taintFrame_txCells : (s.taintFrame).txCells = s.txCells := rfl
@[simp] theorem State.taintFrame_wave : (s.taintFrame).wave = s.wave := rfl
@[simp] theorem State.taintFrame_turns : (s.taintFrame).turns = s.turns := rfl
@[simp] theorem State.taintFrame_draws : (s.taintFrame).draws = s.draws := rfl
@[simp] theorem State.taintFrame_mem (sp : Space) : (s.taintFrame).mem sp = s.mem sp := rfl
@[simp] theorem State.taintFrame_streamEnd : (s.taintFrame).streamEnd = s.streamEnd := rfl

/-! ### `raiseHalfDone` -/

@[simp] theorem State.raiseHalfDone_initialized : (s.raiseHalfDone).initialized = s.initialized := rfl
@[simp] theorem State.raiseHalfDone_halted : (s.raiseHalfDone).halted = s.halted := rfl
@[simp] theorem State.raiseHalfDone_lastStatus : (s.raiseHalfDone).lastStatus = s.lastStatus := rfl
@[simp] theorem State.raiseHalfDone_capacity : (s.raiseHalfDone).capacity = s.capacity := rfl
@[simp] theorem State.raiseHalfDone_pix : (s.raiseHalfDone).pix = s.pix := rfl
@[simp] theorem State.raiseHalfDone_cursor : (s.raiseHalfDone).cursor = s.cursor := rfl
@[simp] theorem State.raiseHalfDone_endReached : (s.raiseHalfDone).endReached = s.endReached := rfl
@[simp] theorem State.raiseHalfDone_activeHalf : (s.raiseHalfDone).activeHalf = s.activeHalf := rfl
@[simp] theorem State.raiseHalfDone_inProgress : (s.raiseHalfDone).inProgress = s.inProgress := rfl
@[simp] theorem State.raiseHalfDone_mask : (s.raiseHalfDone).mask = s.mask := rfl
@[simp] theorem State.raiseHalfDone_isb : (s.raiseHalfDone).isb = s.isb := rfl
@[simp] theorem State.raiseHalfDone_wb0 : (s.raiseHalfDone).wb0 = s.wb0 := rfl
@[simp] theorem State.raiseHalfDone_wb1 : (s.raiseHalfDone).wb1 = s.wb1 := rfl
@[simp] theorem State.raiseHalfDone_phase : (s.raiseHalfDone).phase = s.phase := rfl
@[simp] theorem State.raiseHalfDone_drainCount : (s.raiseHalfDone).drainCount = s.drainCount := rfl
@[simp] theorem State.raiseHalfDone_timEn : (s.raiseHalfDone).timEn = s.timEn := rfl
@[simp] theorem State.raiseHalfDone_timPhase : (s.raiseHalfDone).timPhase = s.timPhase := rfl
@[simp] theorem State.raiseHalfDone_idleEn : (s.raiseHalfDone).idleEn = s.idleEn := rfl
@[simp] theorem State.raiseHalfDone_encEn : (s.raiseHalfDone).encEn = s.encEn := rfl
@[simp] theorem State.raiseHalfDone_encDbm : (s.raiseHalfDone).encDbm = s.encDbm := rfl
@[simp] theorem State.raiseHalfDone_encCt : (s.raiseHalfDone).encCt = s.encCt := rfl
@[simp] theorem State.raiseHalfDone_encPos : (s.raiseHalfDone).encPos = s.encPos := rfl
@[simp] theorem State.raiseHalfDone_halfDonePending : (s.raiseHalfDone).halfDonePending = true := rfl
@[simp] theorem State.raiseHalfDone_refillMissed : (s.raiseHalfDone).refillMissed = (s.refillMissed || s.halfDonePending) := rfl
@[simp] theorem State.raiseHalfDone_pinLevel : (s.raiseHalfDone).pinLevel = s.pinLevel := rfl
@[simp] theorem State.raiseHalfDone_pinLane : (s.raiseHalfDone).pinLane = s.pinLane := rfl
@[simp] theorem State.raiseHalfDone_pinMode : (s.raiseHalfDone).pinMode = s.pinMode := rfl
@[simp] theorem State.raiseHalfDone_frameValid : (s.raiseHalfDone).frameValid = s.frameValid := rfl
@[simp] theorem State.raiseHalfDone_txCells : (s.raiseHalfDone).txCells = s.txCells := rfl
@[simp] theorem State.raiseHalfDone_wave : (s.raiseHalfDone).wave = s.wave := rfl
@[simp] theorem State.raiseHalfDone_turns : (s.raiseHalfDone).turns = s.turns := rfl
@[simp] theorem State.raiseHalfDone_draws : (s.raiseHalfDone).draws = s.draws := rfl
@[simp] theorem State.raiseHalfDone_mem (sp : Space) : (s.raiseHalfDone).mem sp = s.mem sp := rfl
@[simp] theorem State.raiseHalfDone_streamEnd : (s.raiseHalfDone).streamEnd = s.streamEnd := rfl

/-! ### `returnFromEvent` -/

@[simp] theorem State.returnFromEvent_initialized : (s.returnFromEvent).initialized = s.initialized := rfl
@[simp] theorem State.returnFromEvent_halted : (s.returnFromEvent).halted = s.halted := rfl
@[simp] theorem State.returnFromEvent_lastStatus : (s.returnFromEvent).lastStatus = s.lastStatus := rfl
@[simp] theorem State.returnFromEvent_capacity : (s.returnFromEvent).capacity = s.capacity := rfl
@[simp] theorem State.returnFromEvent_pix : (s.returnFromEvent).pix = s.pix := rfl
@[simp] theorem State.returnFromEvent_cursor : (s.returnFromEvent).cursor = s.cursor := rfl
@[simp] theorem State.returnFromEvent_endReached : (s.returnFromEvent).endReached = s.endReached := rfl
@[simp] theorem State.returnFromEvent_activeHalf : (s.returnFromEvent).activeHalf = s.activeHalf := rfl
@[simp] theorem State.returnFromEvent_inProgress : (s.returnFromEvent).inProgress = s.inProgress := rfl
@[simp] theorem State.returnFromEvent_mask : (s.returnFromEvent).mask = s.mask := rfl
@[simp] theorem State.returnFromEvent_isb : (s.returnFromEvent).isb = s.isb := rfl
@[simp] theorem State.returnFromEvent_wb0 : (s.returnFromEvent).wb0 = s.wb0 := rfl
@[simp] theorem State.returnFromEvent_wb1 : (s.returnFromEvent).wb1 = s.wb1 := rfl
@[simp] theorem State.returnFromEvent_phase : (s.returnFromEvent).phase = s.phase := rfl
@[simp] theorem State.returnFromEvent_drainCount : (s.returnFromEvent).drainCount = s.drainCount := rfl
@[simp] theorem State.returnFromEvent_timEn : (s.returnFromEvent).timEn = s.timEn := rfl
@[simp] theorem State.returnFromEvent_timPhase : (s.returnFromEvent).timPhase = s.timPhase := rfl
@[simp] theorem State.returnFromEvent_idleEn : (s.returnFromEvent).idleEn = s.idleEn := rfl
@[simp] theorem State.returnFromEvent_encEn : (s.returnFromEvent).encEn = s.encEn := rfl
@[simp] theorem State.returnFromEvent_encDbm : (s.returnFromEvent).encDbm = s.encDbm := rfl
@[simp] theorem State.returnFromEvent_encCt : (s.returnFromEvent).encCt = s.encCt := rfl
@[simp] theorem State.returnFromEvent_encPos : (s.returnFromEvent).encPos = s.encPos := rfl
@[simp] theorem State.returnFromEvent_halfDonePending : (s.returnFromEvent).halfDonePending = false := rfl
@[simp] theorem State.returnFromEvent_refillMissed : (s.returnFromEvent).refillMissed = s.refillMissed := rfl
@[simp] theorem State.returnFromEvent_pinLevel : (s.returnFromEvent).pinLevel = s.pinLevel := rfl
@[simp] theorem State.returnFromEvent_pinLane : (s.returnFromEvent).pinLane = s.pinLane := rfl
@[simp] theorem State.returnFromEvent_pinMode : (s.returnFromEvent).pinMode = s.pinMode := rfl
@[simp] theorem State.returnFromEvent_frameValid : (s.returnFromEvent).frameValid = s.frameValid := rfl
@[simp] theorem State.returnFromEvent_txCells : (s.returnFromEvent).txCells = s.txCells := rfl
@[simp] theorem State.returnFromEvent_wave : (s.returnFromEvent).wave = s.wave := rfl
@[simp] theorem State.returnFromEvent_turns : (s.returnFromEvent).turns = s.turns := rfl
@[simp] theorem State.returnFromEvent_draws : (s.returnFromEvent).draws = s.draws := rfl
@[simp] theorem State.returnFromEvent_mem (sp : Space) : (s.returnFromEvent).mem sp = s.mem sp := rfl
@[simp] theorem State.returnFromEvent_streamEnd : (s.returnFromEvent).streamEnd = s.streamEnd := rfl

/-! ### `clearTraces` -/

@[simp] theorem State.clearTraces_initialized : (s.clearTraces).initialized = s.initialized := rfl
@[simp] theorem State.clearTraces_halted : (s.clearTraces).halted = s.halted := rfl
@[simp] theorem State.clearTraces_lastStatus : (s.clearTraces).lastStatus = s.lastStatus := rfl
@[simp] theorem State.clearTraces_capacity : (s.clearTraces).capacity = s.capacity := rfl
@[simp] theorem State.clearTraces_pix : (s.clearTraces).pix = s.pix := rfl
@[simp] theorem State.clearTraces_cursor : (s.clearTraces).cursor = s.cursor := rfl
@[simp] theorem State.clearTraces_endReached : (s.clearTraces).endReached = s.endReached := rfl
@[simp] theorem State.clearTraces_activeHalf : (s.clearTraces).activeHalf = s.activeHalf := rfl
@[simp] theorem State.clearTraces_inProgress : (s.clearTraces).inProgress = s.inProgress := rfl
@[simp] theorem State.clearTraces_mask : (s.clearTraces).mask = s.mask := rfl
@[simp] theorem State.clearTraces_isb : (s.clearTraces).isb = s.isb := rfl
@[simp] theorem State.clearTraces_wb0 : (s.clearTraces).wb0 = s.wb0 := rfl
@[simp] theorem State.clearTraces_wb1 : (s.clearTraces).wb1 = s.wb1 := rfl
@[simp] theorem State.clearTraces_phase : (s.clearTraces).phase = s.phase := rfl
@[simp] theorem State.clearTraces_drainCount : (s.clearTraces).drainCount = s.drainCount := rfl
@[simp] theorem State.clearTraces_timEn : (s.clearTraces).timEn = s.timEn := rfl
@[simp] theorem State.clearTraces_timPhase : (s.clearTraces).timPhase = s.timPhase := rfl
@[simp] theorem State.clearTraces_idleEn : (s.clearTraces).idleEn = s.idleEn := rfl
@[simp] theorem State.clearTraces_encEn : (s.clearTraces).encEn = s.encEn := rfl
@[simp] theorem State.clearTraces_encDbm : (s.clearTraces).encDbm = s.encDbm := rfl
@[simp] theorem State.clearTraces_encCt : (s.clearTraces).encCt = s.encCt := rfl
@[simp] theorem State.clearTraces_encPos : (s.clearTraces).encPos = s.encPos := rfl
@[simp] theorem State.clearTraces_halfDonePending : (s.clearTraces).halfDonePending = s.halfDonePending := rfl
@[simp] theorem State.clearTraces_refillMissed : (s.clearTraces).refillMissed = s.refillMissed := rfl
@[simp] theorem State.clearTraces_pinLevel : (s.clearTraces).pinLevel = s.pinLevel := rfl
@[simp] theorem State.clearTraces_pinLane : (s.clearTraces).pinLane = s.pinLane := rfl
@[simp] theorem State.clearTraces_pinMode : (s.clearTraces).pinMode = s.pinMode := rfl
@[simp] theorem State.clearTraces_frameValid : (s.clearTraces).frameValid = true := rfl
@[simp] theorem State.clearTraces_txCells : (s.clearTraces).txCells = [] := rfl
@[simp] theorem State.clearTraces_wave : (s.clearTraces).wave = [] := rfl
@[simp] theorem State.clearTraces_turns : (s.clearTraces).turns = s.turns := rfl
@[simp] theorem State.clearTraces_draws : (s.clearTraces).draws = s.draws := rfl
@[simp] theorem State.clearTraces_mem (sp : Space) : (s.clearTraces).mem sp = s.mem sp := rfl
@[simp] theorem State.clearTraces_streamEnd : (s.clearTraces).streamEnd = s.streamEnd := rfl

/-! ### `setCursor` -/

@[simp] theorem State.setCursor_initialized (c : BitVec 12) : (s.setCursor c).initialized = s.initialized := rfl
@[simp] theorem State.setCursor_halted (c : BitVec 12) : (s.setCursor c).halted = s.halted := rfl
@[simp] theorem State.setCursor_lastStatus (c : BitVec 12) : (s.setCursor c).lastStatus = s.lastStatus := rfl
@[simp] theorem State.setCursor_capacity (c : BitVec 12) : (s.setCursor c).capacity = s.capacity := rfl
@[simp] theorem State.setCursor_pix (c : BitVec 12) : (s.setCursor c).pix = s.pix := rfl
@[simp] theorem State.setCursor_cursor (c : BitVec 12) : (s.setCursor c).cursor = c := rfl
@[simp] theorem State.setCursor_endReached (c : BitVec 12) : (s.setCursor c).endReached = s.endReached := rfl
@[simp] theorem State.setCursor_activeHalf (c : BitVec 12) : (s.setCursor c).activeHalf = s.activeHalf := rfl
@[simp] theorem State.setCursor_inProgress (c : BitVec 12) : (s.setCursor c).inProgress = s.inProgress := rfl
@[simp] theorem State.setCursor_mask (c : BitVec 12) : (s.setCursor c).mask = s.mask := rfl
@[simp] theorem State.setCursor_isb (c : BitVec 12) : (s.setCursor c).isb = s.isb := rfl
@[simp] theorem State.setCursor_wb0 (c : BitVec 12) : (s.setCursor c).wb0 = s.wb0 := rfl
@[simp] theorem State.setCursor_wb1 (c : BitVec 12) : (s.setCursor c).wb1 = s.wb1 := rfl
@[simp] theorem State.setCursor_phase (c : BitVec 12) : (s.setCursor c).phase = s.phase := rfl
@[simp] theorem State.setCursor_drainCount (c : BitVec 12) : (s.setCursor c).drainCount = s.drainCount := rfl
@[simp] theorem State.setCursor_timEn (c : BitVec 12) : (s.setCursor c).timEn = s.timEn := rfl
@[simp] theorem State.setCursor_timPhase (c : BitVec 12) : (s.setCursor c).timPhase = s.timPhase := rfl
@[simp] theorem State.setCursor_idleEn (c : BitVec 12) : (s.setCursor c).idleEn = s.idleEn := rfl
@[simp] theorem State.setCursor_encEn (c : BitVec 12) : (s.setCursor c).encEn = s.encEn := rfl
@[simp] theorem State.setCursor_encDbm (c : BitVec 12) : (s.setCursor c).encDbm = s.encDbm := rfl
@[simp] theorem State.setCursor_encCt (c : BitVec 12) : (s.setCursor c).encCt = s.encCt := rfl
@[simp] theorem State.setCursor_encPos (c : BitVec 12) : (s.setCursor c).encPos = s.encPos := rfl
@[simp] theorem State.setCursor_halfDonePending (c : BitVec 12) : (s.setCursor c).halfDonePending = s.halfDonePending := rfl
@[simp] theorem State.setCursor_refillMissed (c : BitVec 12) : (s.setCursor c).refillMissed = s.refillMissed := rfl
@[simp] theorem State.setCursor_pinLevel (c : BitVec 12) : (s.setCursor c).pinLevel = s.pinLevel := rfl
@[simp] theorem State.setCursor_pinLane (c : BitVec 12) : (s.setCursor c).pinLane = s.pinLane := rfl
@[simp] theorem State.setCursor_pinMode (c : BitVec 12) : (s.setCursor c).pinMode = s.pinMode := rfl
@[simp] theorem State.setCursor_frameValid (c : BitVec 12) : (s.setCursor c).frameValid = s.frameValid := rfl
@[simp] theorem State.setCursor_txCells (c : BitVec 12) : (s.setCursor c).txCells = s.txCells := rfl
@[simp] theorem State.setCursor_wave (c : BitVec 12) : (s.setCursor c).wave = s.wave := rfl
@[simp] theorem State.setCursor_turns (c : BitVec 12) : (s.setCursor c).turns = s.turns := rfl
@[simp] theorem State.setCursor_draws (c : BitVec 12) : (s.setCursor c).draws = s.draws := rfl
@[simp] theorem State.setCursor_mem (c : BitVec 12) (sp : Space) : (s.setCursor c).mem sp = s.mem sp := rfl
@[simp] theorem State.setCursor_streamEnd (c : BitVec 12) : (s.setCursor c).streamEnd = s.streamEnd := rfl

/-! ### `countDrain` -/

@[simp] theorem State.countDrain_initialized : (s.countDrain).initialized = s.initialized := rfl
@[simp] theorem State.countDrain_halted : (s.countDrain).halted = s.halted := rfl
@[simp] theorem State.countDrain_lastStatus : (s.countDrain).lastStatus = s.lastStatus := rfl
@[simp] theorem State.countDrain_capacity : (s.countDrain).capacity = s.capacity := rfl
@[simp] theorem State.countDrain_pix : (s.countDrain).pix = s.pix := rfl
@[simp] theorem State.countDrain_cursor : (s.countDrain).cursor = s.cursor := rfl
@[simp] theorem State.countDrain_endReached : (s.countDrain).endReached = s.endReached := rfl
@[simp] theorem State.countDrain_activeHalf : (s.countDrain).activeHalf = s.activeHalf := rfl
@[simp] theorem State.countDrain_inProgress : (s.countDrain).inProgress = s.inProgress := rfl
@[simp] theorem State.countDrain_mask : (s.countDrain).mask = s.mask := rfl
@[simp] theorem State.countDrain_isb : (s.countDrain).isb = s.isb := rfl
@[simp] theorem State.countDrain_wb0 : (s.countDrain).wb0 = s.wb0 := rfl
@[simp] theorem State.countDrain_wb1 : (s.countDrain).wb1 = s.wb1 := rfl
@[simp] theorem State.countDrain_phase : (s.countDrain).phase = s.phase := rfl
@[simp] theorem State.countDrain_drainCount : (s.countDrain).drainCount = s.drainCount + 1 := rfl
@[simp] theorem State.countDrain_timEn : (s.countDrain).timEn = s.timEn := rfl
@[simp] theorem State.countDrain_timPhase : (s.countDrain).timPhase = s.timPhase := rfl
@[simp] theorem State.countDrain_idleEn : (s.countDrain).idleEn = s.idleEn := rfl
@[simp] theorem State.countDrain_encEn : (s.countDrain).encEn = s.encEn := rfl
@[simp] theorem State.countDrain_encDbm : (s.countDrain).encDbm = s.encDbm := rfl
@[simp] theorem State.countDrain_encCt : (s.countDrain).encCt = s.encCt := rfl
@[simp] theorem State.countDrain_encPos : (s.countDrain).encPos = s.encPos := rfl
@[simp] theorem State.countDrain_halfDonePending : (s.countDrain).halfDonePending = s.halfDonePending := rfl
@[simp] theorem State.countDrain_refillMissed : (s.countDrain).refillMissed = s.refillMissed := rfl
@[simp] theorem State.countDrain_pinLevel : (s.countDrain).pinLevel = s.pinLevel := rfl
@[simp] theorem State.countDrain_pinLane : (s.countDrain).pinLane = s.pinLane := rfl
@[simp] theorem State.countDrain_pinMode : (s.countDrain).pinMode = s.pinMode := rfl
@[simp] theorem State.countDrain_frameValid : (s.countDrain).frameValid = s.frameValid := rfl
@[simp] theorem State.countDrain_txCells : (s.countDrain).txCells = s.txCells := rfl
@[simp] theorem State.countDrain_wave : (s.countDrain).wave = s.wave := rfl
@[simp] theorem State.countDrain_turns : (s.countDrain).turns = s.turns := rfl
@[simp] theorem State.countDrain_draws : (s.countDrain).draws = s.draws := rfl
@[simp] theorem State.countDrain_mem (sp : Space) : (s.countDrain).mem sp = s.mem sp := rfl
@[simp] theorem State.countDrain_streamEnd : (s.countDrain).streamEnd = s.streamEnd := rfl

/-! ### `setPhase` -/

@[simp] theorem State.setPhase_initialized (p : Phase) : (s.setPhase p).initialized = s.initialized := rfl
@[simp] theorem State.setPhase_halted (p : Phase) : (s.setPhase p).halted = s.halted := rfl
@[simp] theorem State.setPhase_lastStatus (p : Phase) : (s.setPhase p).lastStatus = s.lastStatus := rfl
@[simp] theorem State.setPhase_capacity (p : Phase) : (s.setPhase p).capacity = s.capacity := rfl
@[simp] theorem State.setPhase_pix (p : Phase) : (s.setPhase p).pix = s.pix := rfl
@[simp] theorem State.setPhase_cursor (p : Phase) : (s.setPhase p).cursor = s.cursor := rfl
@[simp] theorem State.setPhase_endReached (p : Phase) : (s.setPhase p).endReached = s.endReached := rfl
@[simp] theorem State.setPhase_activeHalf (p : Phase) : (s.setPhase p).activeHalf = s.activeHalf := rfl
@[simp] theorem State.setPhase_inProgress (p : Phase) : (s.setPhase p).inProgress = s.inProgress := rfl
@[simp] theorem State.setPhase_mask (p : Phase) : (s.setPhase p).mask = s.mask := rfl
@[simp] theorem State.setPhase_isb (p : Phase) : (s.setPhase p).isb = s.isb := rfl
@[simp] theorem State.setPhase_wb0 (p : Phase) : (s.setPhase p).wb0 = s.wb0 := rfl
@[simp] theorem State.setPhase_wb1 (p : Phase) : (s.setPhase p).wb1 = s.wb1 := rfl
@[simp] theorem State.setPhase_phase (p : Phase) : (s.setPhase p).phase = p := rfl
@[simp] theorem State.setPhase_drainCount (p : Phase) : (s.setPhase p).drainCount = s.drainCount := rfl
@[simp] theorem State.setPhase_timEn (p : Phase) : (s.setPhase p).timEn = s.timEn := rfl
@[simp] theorem State.setPhase_timPhase (p : Phase) : (s.setPhase p).timPhase = s.timPhase := rfl
@[simp] theorem State.setPhase_idleEn (p : Phase) : (s.setPhase p).idleEn = s.idleEn := rfl
@[simp] theorem State.setPhase_encEn (p : Phase) : (s.setPhase p).encEn = s.encEn := rfl
@[simp] theorem State.setPhase_encDbm (p : Phase) : (s.setPhase p).encDbm = s.encDbm := rfl
@[simp] theorem State.setPhase_encCt (p : Phase) : (s.setPhase p).encCt = s.encCt := rfl
@[simp] theorem State.setPhase_encPos (p : Phase) : (s.setPhase p).encPos = s.encPos := rfl
@[simp] theorem State.setPhase_halfDonePending (p : Phase) : (s.setPhase p).halfDonePending = s.halfDonePending := rfl
@[simp] theorem State.setPhase_refillMissed (p : Phase) : (s.setPhase p).refillMissed = s.refillMissed := rfl
@[simp] theorem State.setPhase_pinLevel (p : Phase) : (s.setPhase p).pinLevel = s.pinLevel := rfl
@[simp] theorem State.setPhase_pinLane (p : Phase) : (s.setPhase p).pinLane = s.pinLane := rfl
@[simp] theorem State.setPhase_pinMode (p : Phase) : (s.setPhase p).pinMode = s.pinMode := rfl
@[simp] theorem State.setPhase_frameValid (p : Phase) : (s.setPhase p).frameValid = s.frameValid := rfl
@[simp] theorem State.setPhase_txCells (p : Phase) : (s.setPhase p).txCells = s.txCells := rfl
@[simp] theorem State.setPhase_wave (p : Phase) : (s.setPhase p).wave = s.wave := rfl
@[simp] theorem State.setPhase_turns (p : Phase) : (s.setPhase p).turns = s.turns := rfl
@[simp] theorem State.setPhase_draws (p : Phase) : (s.setPhase p).draws = s.draws := rfl
@[simp] theorem State.setPhase_mem (p : Phase) (sp : Space) : (s.setPhase p).mem sp = s.mem sp := rfl
@[simp] theorem State.setPhase_streamEnd (p : Phase) : (s.setPhase p).streamEnd = s.streamEnd := rfl

/-! ### `toggleActive` -/

@[simp] theorem State.toggleActive_initialized : (s.toggleActive).initialized = s.initialized := rfl
@[simp] theorem State.toggleActive_halted : (s.toggleActive).halted = s.halted := rfl
@[simp] theorem State.toggleActive_lastStatus : (s.toggleActive).lastStatus = s.lastStatus := rfl
@[simp] theorem State.toggleActive_capacity : (s.toggleActive).capacity = s.capacity := rfl
@[simp] theorem State.toggleActive_pix : (s.toggleActive).pix = s.pix := rfl
@[simp] theorem State.toggleActive_cursor : (s.toggleActive).cursor = s.cursor := rfl
@[simp] theorem State.toggleActive_endReached : (s.toggleActive).endReached = s.endReached := rfl
@[simp] theorem State.toggleActive_activeHalf : (s.toggleActive).activeHalf = (!s.activeHalf) := rfl
@[simp] theorem State.toggleActive_inProgress : (s.toggleActive).inProgress = s.inProgress := rfl
@[simp] theorem State.toggleActive_mask : (s.toggleActive).mask = s.mask := rfl
@[simp] theorem State.toggleActive_isb : (s.toggleActive).isb = s.isb := rfl
@[simp] theorem State.toggleActive_wb0 : (s.toggleActive).wb0 = s.wb0 := rfl
@[simp] theorem State.toggleActive_wb1 : (s.toggleActive).wb1 = s.wb1 := rfl
@[simp] theorem State.toggleActive_phase : (s.toggleActive).phase = s.phase := rfl
@[simp] theorem State.toggleActive_drainCount : (s.toggleActive).drainCount = s.drainCount := rfl
@[simp] theorem State.toggleActive_timEn : (s.toggleActive).timEn = s.timEn := rfl
@[simp] theorem State.toggleActive_timPhase : (s.toggleActive).timPhase = s.timPhase := rfl
@[simp] theorem State.toggleActive_idleEn : (s.toggleActive).idleEn = s.idleEn := rfl
@[simp] theorem State.toggleActive_encEn : (s.toggleActive).encEn = s.encEn := rfl
@[simp] theorem State.toggleActive_encDbm : (s.toggleActive).encDbm = s.encDbm := rfl
@[simp] theorem State.toggleActive_encCt : (s.toggleActive).encCt = s.encCt := rfl
@[simp] theorem State.toggleActive_encPos : (s.toggleActive).encPos = s.encPos := rfl
@[simp] theorem State.toggleActive_halfDonePending : (s.toggleActive).halfDonePending = s.halfDonePending := rfl
@[simp] theorem State.toggleActive_refillMissed : (s.toggleActive).refillMissed = s.refillMissed := rfl
@[simp] theorem State.toggleActive_pinLevel : (s.toggleActive).pinLevel = s.pinLevel := rfl
@[simp] theorem State.toggleActive_pinLane : (s.toggleActive).pinLane = s.pinLane := rfl
@[simp] theorem State.toggleActive_pinMode : (s.toggleActive).pinMode = s.pinMode := rfl
@[simp] theorem State.toggleActive_frameValid : (s.toggleActive).frameValid = s.frameValid := rfl
@[simp] theorem State.toggleActive_txCells : (s.toggleActive).txCells = s.txCells := rfl
@[simp] theorem State.toggleActive_wave : (s.toggleActive).wave = s.wave := rfl
@[simp] theorem State.toggleActive_turns : (s.toggleActive).turns = s.turns := rfl
@[simp] theorem State.toggleActive_draws : (s.toggleActive).draws = s.draws := rfl
@[simp] theorem State.toggleActive_mem (sp : Space) : (s.toggleActive).mem sp = s.mem sp := rfl
@[simp] theorem State.toggleActive_streamEnd : (s.toggleActive).streamEnd = s.streamEnd := rfl

/-! ### `rewind` -/

@[simp] theorem State.rewind_initialized : (s.rewind).initialized = s.initialized := rfl
@[simp] theorem State.rewind_halted : (s.rewind).halted = s.halted := rfl
@[simp] theorem State.rewind_lastStatus : (s.rewind).lastStatus = s.lastStatus := rfl
@[simp] theorem State.rewind_capacity : (s.rewind).capacity = s.capacity := rfl
@[simp] theorem State.rewind_pix : (s.rewind).pix = s.pix := rfl
@[simp] theorem State.rewind_cursor : (s.rewind).cursor = 0 := rfl
@[simp] theorem State.rewind_endReached : (s.rewind).endReached = false := rfl
@[simp] theorem State.rewind_activeHalf : (s.rewind).activeHalf = s.activeHalf := rfl
@[simp] theorem State.rewind_inProgress : (s.rewind).inProgress = s.inProgress := rfl
@[simp] theorem State.rewind_mask : (s.rewind).mask = s.mask := rfl
@[simp] theorem State.rewind_isb : (s.rewind).isb = s.isb := rfl
@[simp] theorem State.rewind_wb0 : (s.rewind).wb0 = s.wb0 := rfl
@[simp] theorem State.rewind_wb1 : (s.rewind).wb1 = s.wb1 := rfl
@[simp] theorem State.rewind_phase : (s.rewind).phase = s.phase := rfl
@[simp] theorem State.rewind_drainCount : (s.rewind).drainCount = 0 := rfl
@[simp] theorem State.rewind_timEn : (s.rewind).timEn = s.timEn := rfl
@[simp] theorem State.rewind_timPhase : (s.rewind).timPhase = s.timPhase := rfl
@[simp] theorem State.rewind_idleEn : (s.rewind).idleEn = s.idleEn := rfl
@[simp] theorem State.rewind_encEn : (s.rewind).encEn = s.encEn := rfl
@[simp] theorem State.rewind_encDbm : (s.rewind).encDbm = s.encDbm := rfl
@[simp] theorem State.rewind_encCt : (s.rewind).encCt = s.encCt := rfl
@[simp] theorem State.rewind_encPos : (s.rewind).encPos = s.encPos := rfl
@[simp] theorem State.rewind_halfDonePending : (s.rewind).halfDonePending = s.halfDonePending := rfl
@[simp] theorem State.rewind_refillMissed : (s.rewind).refillMissed = s.refillMissed := rfl
@[simp] theorem State.rewind_pinLevel : (s.rewind).pinLevel = s.pinLevel := rfl
@[simp] theorem State.rewind_pinLane : (s.rewind).pinLane = s.pinLane := rfl
@[simp] theorem State.rewind_pinMode : (s.rewind).pinMode = s.pinMode := rfl
@[simp] theorem State.rewind_frameValid : (s.rewind).frameValid = s.frameValid := rfl
@[simp] theorem State.rewind_txCells : (s.rewind).txCells = s.txCells := rfl
@[simp] theorem State.rewind_wave : (s.rewind).wave = s.wave := rfl
@[simp] theorem State.rewind_turns : (s.rewind).turns = s.turns := rfl
@[simp] theorem State.rewind_draws : (s.rewind).draws = s.draws := rfl
@[simp] theorem State.rewind_mem (sp : Space) : (s.rewind).mem sp = s.mem sp := rfl
@[simp] theorem State.rewind_streamEnd : (s.rewind).streamEnd = s.streamEnd := rfl

/-! ### `updateEndReached` -/

@[simp] theorem State.updateEndReached_initialized : (s.updateEndReached).initialized = s.initialized := rfl
@[simp] theorem State.updateEndReached_halted : (s.updateEndReached).halted = s.halted := rfl
@[simp] theorem State.updateEndReached_lastStatus : (s.updateEndReached).lastStatus = s.lastStatus := rfl
@[simp] theorem State.updateEndReached_capacity : (s.updateEndReached).capacity = s.capacity := rfl
@[simp] theorem State.updateEndReached_pix : (s.updateEndReached).pix = s.pix := rfl
@[simp] theorem State.updateEndReached_cursor : (s.updateEndReached).cursor = s.cursor := rfl
@[simp] theorem State.updateEndReached_endReached : (s.updateEndReached).endReached = decide (s.cursor.toNat = s.streamEnd) := rfl
@[simp] theorem State.updateEndReached_activeHalf : (s.updateEndReached).activeHalf = s.activeHalf := rfl
@[simp] theorem State.updateEndReached_inProgress : (s.updateEndReached).inProgress = s.inProgress := rfl
@[simp] theorem State.updateEndReached_mask : (s.updateEndReached).mask = s.mask := rfl
@[simp] theorem State.updateEndReached_isb : (s.updateEndReached).isb = s.isb := rfl
@[simp] theorem State.updateEndReached_wb0 : (s.updateEndReached).wb0 = s.wb0 := rfl
@[simp] theorem State.updateEndReached_wb1 : (s.updateEndReached).wb1 = s.wb1 := rfl
@[simp] theorem State.updateEndReached_phase : (s.updateEndReached).phase = s.phase := rfl
@[simp] theorem State.updateEndReached_drainCount : (s.updateEndReached).drainCount = s.drainCount := rfl
@[simp] theorem State.updateEndReached_timEn : (s.updateEndReached).timEn = s.timEn := rfl
@[simp] theorem State.updateEndReached_timPhase : (s.updateEndReached).timPhase = s.timPhase := rfl
@[simp] theorem State.updateEndReached_idleEn : (s.updateEndReached).idleEn = s.idleEn := rfl
@[simp] theorem State.updateEndReached_encEn : (s.updateEndReached).encEn = s.encEn := rfl
@[simp] theorem State.updateEndReached_encDbm : (s.updateEndReached).encDbm = s.encDbm := rfl
@[simp] theorem State.updateEndReached_encCt : (s.updateEndReached).encCt = s.encCt := rfl
@[simp] theorem State.updateEndReached_encPos : (s.updateEndReached).encPos = s.encPos := rfl
@[simp] theorem State.updateEndReached_halfDonePending : (s.updateEndReached).halfDonePending = s.halfDonePending := rfl
@[simp] theorem State.updateEndReached_refillMissed : (s.updateEndReached).refillMissed = s.refillMissed := rfl
@[simp] theorem State.updateEndReached_pinLevel : (s.updateEndReached).pinLevel = s.pinLevel := rfl
@[simp] theorem State.updateEndReached_pinLane : (s.updateEndReached).pinLane = s.pinLane := rfl
@[simp] theorem State.updateEndReached_pinMode : (s.updateEndReached).pinMode = s.pinMode := rfl
@[simp] theorem State.updateEndReached_frameValid : (s.updateEndReached).frameValid = s.frameValid := rfl
@[simp] theorem State.updateEndReached_txCells : (s.updateEndReached).txCells = s.txCells := rfl
@[simp] theorem State.updateEndReached_wave : (s.updateEndReached).wave = s.wave := rfl
@[simp] theorem State.updateEndReached_turns : (s.updateEndReached).turns = s.turns := rfl
@[simp] theorem State.updateEndReached_draws : (s.updateEndReached).draws = s.draws := rfl
@[simp] theorem State.updateEndReached_mem (sp : Space) : (s.updateEndReached).mem sp = s.mem sp := rfl
@[simp] theorem State.updateEndReached_streamEnd : (s.updateEndReached).streamEnd = s.streamEnd := rfl

/-! ### `recordLevel` -/

@[simp] theorem State.recordLevel_initialized : (s.recordLevel).initialized = s.initialized := rfl
@[simp] theorem State.recordLevel_halted : (s.recordLevel).halted = s.halted := rfl
@[simp] theorem State.recordLevel_lastStatus : (s.recordLevel).lastStatus = s.lastStatus := rfl
@[simp] theorem State.recordLevel_capacity : (s.recordLevel).capacity = s.capacity := rfl
@[simp] theorem State.recordLevel_pix : (s.recordLevel).pix = s.pix := rfl
@[simp] theorem State.recordLevel_cursor : (s.recordLevel).cursor = s.cursor := rfl
@[simp] theorem State.recordLevel_endReached : (s.recordLevel).endReached = s.endReached := rfl
@[simp] theorem State.recordLevel_activeHalf : (s.recordLevel).activeHalf = s.activeHalf := rfl
@[simp] theorem State.recordLevel_inProgress : (s.recordLevel).inProgress = s.inProgress := rfl
@[simp] theorem State.recordLevel_mask : (s.recordLevel).mask = s.mask := rfl
@[simp] theorem State.recordLevel_isb : (s.recordLevel).isb = s.isb := rfl
@[simp] theorem State.recordLevel_wb0 : (s.recordLevel).wb0 = s.wb0 := rfl
@[simp] theorem State.recordLevel_wb1 : (s.recordLevel).wb1 = s.wb1 := rfl
@[simp] theorem State.recordLevel_phase : (s.recordLevel).phase = s.phase := rfl
@[simp] theorem State.recordLevel_drainCount : (s.recordLevel).drainCount = s.drainCount := rfl
@[simp] theorem State.recordLevel_timEn : (s.recordLevel).timEn = s.timEn := rfl
@[simp] theorem State.recordLevel_timPhase : (s.recordLevel).timPhase = s.timPhase := rfl
@[simp] theorem State.recordLevel_idleEn : (s.recordLevel).idleEn = s.idleEn := rfl
@[simp] theorem State.recordLevel_encEn : (s.recordLevel).encEn = s.encEn := rfl
@[simp] theorem State.recordLevel_encDbm : (s.recordLevel).encDbm = s.encDbm := rfl
@[simp] theorem State.recordLevel_encCt : (s.recordLevel).encCt = s.encCt := rfl
@[simp] theorem State.recordLevel_encPos : (s.recordLevel).encPos = s.encPos := rfl
@[simp] theorem State.recordLevel_halfDonePending : (s.recordLevel).halfDonePending = s.halfDonePending := rfl
@[simp] theorem State.recordLevel_refillMissed : (s.recordLevel).refillMissed = s.refillMissed := rfl
@[simp] theorem State.recordLevel_pinLevel : (s.recordLevel).pinLevel = s.pinLevel := rfl
@[simp] theorem State.recordLevel_pinLane : (s.recordLevel).pinLane = s.pinLane := rfl
@[simp] theorem State.recordLevel_pinMode : (s.recordLevel).pinMode = s.pinMode := rfl
@[simp] theorem State.recordLevel_frameValid : (s.recordLevel).frameValid = s.frameValid := rfl
@[simp] theorem State.recordLevel_txCells : (s.recordLevel).txCells = s.txCells := rfl
@[simp] theorem State.recordLevel_wave : (s.recordLevel).wave = s.wave ++ [s.pinLevel] := rfl
@[simp] theorem State.recordLevel_turns : (s.recordLevel).turns = s.turns := rfl
@[simp] theorem State.recordLevel_draws : (s.recordLevel).draws = s.draws := rfl
@[simp] theorem State.recordLevel_mem (sp : Space) : (s.recordLevel).mem sp = s.mem sp := rfl
@[simp] theorem State.recordLevel_streamEnd : (s.recordLevel).streamEnd = s.streamEnd := rfl

/-! ### `recordCell` -/

@[simp] theorem State.recordCell_initialized : (s.recordCell).initialized = s.initialized := by unfold State.recordCell; split <;> rfl
@[simp] theorem State.recordCell_halted : (s.recordCell).halted = s.halted := by unfold State.recordCell; split <;> rfl
@[simp] theorem State.recordCell_lastStatus : (s.recordCell).lastStatus = s.lastStatus := by unfold State.recordCell; split <;> rfl
@[simp] theorem State.recordCell_capacity : (s.recordCell).capacity = s.capacity := by unfold State.recordCell; split <;> rfl
@[simp] theorem State.recordCell_pix : (s.recordCell).pix = s.pix := by unfold State.recordCell; split <;> rfl
@[simp] theorem State.recordCell_cursor : (s.recordCell).cursor = s.cursor := by unfold State.recordCell; split <;> rfl
@[simp] theorem State.recordCell_endReached : (s.recordCell).endReached = s.endReached := by unfold State.recordCell; split <;> rfl
@[simp] theorem State.recordCell_activeHalf : (s.recordCell).activeHalf = s.activeHalf := by unfold State.recordCell; split <;> rfl
@[simp] theorem State.recordCell_inProgress : (s.recordCell).inProgress = s.inProgress := by unfold State.recordCell; split <;> rfl
@[simp] theorem State.recordCell_mask : (s.recordCell).mask = s.mask := by unfold State.recordCell; split <;> rfl
@[simp] theorem State.recordCell_isb : (s.recordCell).isb = s.isb := by unfold State.recordCell; split <;> rfl
@[simp] theorem State.recordCell_wb0 : (s.recordCell).wb0 = s.wb0 := by unfold State.recordCell; split <;> rfl
@[simp] theorem State.recordCell_wb1 : (s.recordCell).wb1 = s.wb1 := by unfold State.recordCell; split <;> rfl
@[simp] theorem State.recordCell_phase : (s.recordCell).phase = s.phase := by unfold State.recordCell; split <;> rfl
@[simp] theorem State.recordCell_drainCount : (s.recordCell).drainCount = s.drainCount := by unfold State.recordCell; split <;> rfl
@[simp] theorem State.recordCell_timEn : (s.recordCell).timEn = s.timEn := by unfold State.recordCell; split <;> rfl
@[simp] theorem State.recordCell_timPhase : (s.recordCell).timPhase = s.timPhase := by unfold State.recordCell; split <;> rfl
@[simp] theorem State.recordCell_idleEn : (s.recordCell).idleEn = s.idleEn := by unfold State.recordCell; split <;> rfl
@[simp] theorem State.recordCell_encEn : (s.recordCell).encEn = s.encEn := by unfold State.recordCell; split <;> rfl
@[simp] theorem State.recordCell_encDbm : (s.recordCell).encDbm = s.encDbm := by unfold State.recordCell; split <;> rfl
@[simp] theorem State.recordCell_encCt : (s.recordCell).encCt = s.encCt := by unfold State.recordCell; split <;> rfl
@[simp] theorem State.recordCell_encPos : (s.recordCell).encPos = s.encPos := by unfold State.recordCell; split <;> rfl
@[simp] theorem State.recordCell_halfDonePending : (s.recordCell).halfDonePending = s.halfDonePending := by unfold State.recordCell; split <;> rfl
@[simp] theorem State.recordCell_refillMissed : (s.recordCell).refillMissed = s.refillMissed := by unfold State.recordCell; split <;> rfl
@[simp] theorem State.recordCell_pinLevel : (s.recordCell).pinLevel = s.pinLevel := by unfold State.recordCell; split <;> rfl
@[simp] theorem State.recordCell_pinLane : (s.recordCell).pinLane = s.pinLane := by unfold State.recordCell; split <;> rfl
@[simp] theorem State.recordCell_pinMode : (s.recordCell).pinMode = s.pinMode := by unfold State.recordCell; split <;> rfl
@[simp] theorem State.recordCell_frameValid : (s.recordCell).frameValid = s.frameValid := by unfold State.recordCell; split <;> rfl
@[simp] theorem State.recordCell_txCells : (s.recordCell).txCells = (if s.timPhase = .odd then s.txCells ++ [s.pinLevel.symbol] else s.txCells) := by unfold State.recordCell; split <;> rfl
@[simp] theorem State.recordCell_wave : (s.recordCell).wave = s.wave := by unfold State.recordCell; split <;> rfl
@[simp] theorem State.recordCell_turns : (s.recordCell).turns = s.turns := by unfold State.recordCell; split <;> rfl
@[simp] theorem State.recordCell_draws : (s.recordCell).draws = s.draws := by unfold State.recordCell; split <;> rfl
@[simp] theorem State.recordCell_mem (sp : Space) : (s.recordCell).mem sp = s.mem sp := by unfold State.recordCell; split <;> rfl
@[simp] theorem State.recordCell_streamEnd : (s.recordCell).streamEnd = s.streamEnd := by unfold State.recordCell; split <;> rfl

/-! ### `endTick` -/

@[simp] theorem State.endTick_initialized : (s.endTick).initialized = s.initialized := rfl
@[simp] theorem State.endTick_halted : (s.endTick).halted = s.halted := rfl
@[simp] theorem State.endTick_lastStatus : (s.endTick).lastStatus = s.lastStatus := rfl
@[simp] theorem State.endTick_capacity : (s.endTick).capacity = s.capacity := rfl
@[simp] theorem State.endTick_pix : (s.endTick).pix = s.pix := rfl
@[simp] theorem State.endTick_cursor : (s.endTick).cursor = s.cursor := rfl
@[simp] theorem State.endTick_endReached : (s.endTick).endReached = s.endReached := rfl
@[simp] theorem State.endTick_activeHalf : (s.endTick).activeHalf = s.activeHalf := rfl
@[simp] theorem State.endTick_inProgress : (s.endTick).inProgress = s.inProgress := rfl
@[simp] theorem State.endTick_mask : (s.endTick).mask = s.mask := rfl
@[simp] theorem State.endTick_isb : (s.endTick).isb = s.isb := rfl
@[simp] theorem State.endTick_wb0 : (s.endTick).wb0 = s.wb0 := rfl
@[simp] theorem State.endTick_wb1 : (s.endTick).wb1 = s.wb1 := rfl
@[simp] theorem State.endTick_phase : (s.endTick).phase = s.phase := rfl
@[simp] theorem State.endTick_drainCount : (s.endTick).drainCount = s.drainCount := rfl
@[simp] theorem State.endTick_timEn : (s.endTick).timEn = s.timEn := rfl
@[simp] theorem State.endTick_timPhase : (s.endTick).timPhase = s.timPhase.next := rfl
@[simp] theorem State.endTick_idleEn : (s.endTick).idleEn = s.idleEn := rfl
@[simp] theorem State.endTick_encEn : (s.endTick).encEn = s.encEn := rfl
@[simp] theorem State.endTick_encDbm : (s.endTick).encDbm = s.encDbm := rfl
@[simp] theorem State.endTick_encCt : (s.endTick).encCt = s.encCt := rfl
@[simp] theorem State.endTick_encPos : (s.endTick).encPos = s.encPos := rfl
@[simp] theorem State.endTick_halfDonePending : (s.endTick).halfDonePending = s.halfDonePending := rfl
@[simp] theorem State.endTick_refillMissed : (s.endTick).refillMissed = s.refillMissed := rfl
@[simp] theorem State.endTick_pinLevel : (s.endTick).pinLevel = s.pinLevel := rfl
@[simp] theorem State.endTick_pinLane : (s.endTick).pinLane = s.pinLane := rfl
@[simp] theorem State.endTick_pinMode : (s.endTick).pinMode = s.pinMode := rfl
@[simp] theorem State.endTick_frameValid : (s.endTick).frameValid = s.frameValid := rfl
@[simp] theorem State.endTick_txCells : (s.endTick).txCells = s.txCells := rfl
@[simp] theorem State.endTick_wave : (s.endTick).wave = s.wave ++ [s.pinLevel] := rfl
@[simp] theorem State.endTick_turns : (s.endTick).turns = s.turns := rfl
@[simp] theorem State.endTick_draws : (s.endTick).draws = s.draws := rfl
@[simp] theorem State.endTick_mem (sp : Space) : (s.endTick).mem sp = s.mem sp := rfl
@[simp] theorem State.endTick_streamEnd : (s.endTick).streamEnd = s.streamEnd := rfl

/-! ### `takeTurn` -/

@[simp] theorem State.takeTurn_initialized : (s.takeTurn).initialized = s.initialized := by unfold State.takeTurn; split <;> simp_all
@[simp] theorem State.takeTurn_halted : (s.takeTurn).halted = s.halted := by unfold State.takeTurn; split <;> simp_all
@[simp] theorem State.takeTurn_lastStatus : (s.takeTurn).lastStatus = s.lastStatus := by unfold State.takeTurn; split <;> simp_all
@[simp] theorem State.takeTurn_capacity : (s.takeTurn).capacity = s.capacity := by unfold State.takeTurn; split <;> simp_all
@[simp] theorem State.takeTurn_pix : (s.takeTurn).pix = s.pix := by unfold State.takeTurn; split <;> simp_all
@[simp] theorem State.takeTurn_cursor : (s.takeTurn).cursor = s.cursor := by unfold State.takeTurn; split <;> simp_all
@[simp] theorem State.takeTurn_endReached : (s.takeTurn).endReached = s.endReached := by unfold State.takeTurn; split <;> simp_all
@[simp] theorem State.takeTurn_activeHalf : (s.takeTurn).activeHalf = s.activeHalf := by unfold State.takeTurn; split <;> simp_all
@[simp] theorem State.takeTurn_inProgress : (s.takeTurn).inProgress = s.inProgress := by unfold State.takeTurn; split <;> simp_all
@[simp] theorem State.takeTurn_mask : (s.takeTurn).mask = s.mask := by unfold State.takeTurn; split <;> simp_all
@[simp] theorem State.takeTurn_isb : (s.takeTurn).isb = s.isb := by unfold State.takeTurn; split <;> simp_all
@[simp] theorem State.takeTurn_wb0 : (s.takeTurn).wb0 = s.wb0 := by unfold State.takeTurn; split <;> simp_all
@[simp] theorem State.takeTurn_wb1 : (s.takeTurn).wb1 = s.wb1 := by unfold State.takeTurn; split <;> simp_all
@[simp] theorem State.takeTurn_phase : (s.takeTurn).phase = s.phase := by unfold State.takeTurn; split <;> simp_all
@[simp] theorem State.takeTurn_drainCount : (s.takeTurn).drainCount = s.drainCount := by unfold State.takeTurn; split <;> simp_all
@[simp] theorem State.takeTurn_timEn : (s.takeTurn).timEn = s.timEn := by unfold State.takeTurn; split <;> simp_all
@[simp] theorem State.takeTurn_timPhase : (s.takeTurn).timPhase = s.timPhase := by unfold State.takeTurn; split <;> simp_all
@[simp] theorem State.takeTurn_idleEn : (s.takeTurn).idleEn = s.idleEn := by unfold State.takeTurn; split <;> simp_all
@[simp] theorem State.takeTurn_encEn : (s.takeTurn).encEn = s.encEn := by unfold State.takeTurn; split <;> simp_all
@[simp] theorem State.takeTurn_encDbm : (s.takeTurn).encDbm = s.encDbm := by unfold State.takeTurn; split <;> simp_all
@[simp] theorem State.takeTurn_encCt : (s.takeTurn).encCt = s.encCt := by unfold State.takeTurn; split <;> simp_all
@[simp] theorem State.takeTurn_encPos : (s.takeTurn).encPos = s.encPos := by unfold State.takeTurn; split <;> simp_all
@[simp] theorem State.takeTurn_halfDonePending : (s.takeTurn).halfDonePending = s.halfDonePending := by unfold State.takeTurn; split <;> simp_all
@[simp] theorem State.takeTurn_refillMissed : (s.takeTurn).refillMissed = s.refillMissed := by unfold State.takeTurn; split <;> simp_all
@[simp] theorem State.takeTurn_pinLevel : (s.takeTurn).pinLevel = s.pinLevel := by unfold State.takeTurn; split <;> simp_all
@[simp] theorem State.takeTurn_pinLane : (s.takeTurn).pinLane = s.pinLane := by unfold State.takeTurn; split <;> simp_all
@[simp] theorem State.takeTurn_pinMode : (s.takeTurn).pinMode = s.pinMode := by unfold State.takeTurn; split <;> simp_all
@[simp] theorem State.takeTurn_frameValid : (s.takeTurn).frameValid = s.frameValid := by unfold State.takeTurn; split <;> simp_all
@[simp] theorem State.takeTurn_txCells : (s.takeTurn).txCells = s.txCells := by unfold State.takeTurn; split <;> simp_all
@[simp] theorem State.takeTurn_wave : (s.takeTurn).wave = s.wave := by unfold State.takeTurn; split <;> simp_all
@[simp] theorem State.takeTurn_turns : (s.takeTurn).turns = s.turns.tail := by unfold State.takeTurn; split <;> simp_all
@[simp] theorem State.takeTurn_mem (sp : Space) : (s.takeTurn).mem sp = s.mem sp := by unfold State.takeTurn; split <;> rfl
@[simp] theorem State.takeTurn_streamEnd : (s.takeTurn).streamEnd = s.streamEnd := by unfold State.takeTurn; split <;> rfl

end Sys2Proof.Machine
end

