-- ==== Sys2Proof/Laws/Memory.lean ====
section
/-!
SUPPORT. The laws of one memory (a read after a write, the canonical form, the indices that are listed) and of the
address spaces of the Device built from it.
-/

namespace Sys2Proof.Machine

@[simp] theorem Memory.keys_nil : Memory.keys [] = [] := rfl
@[simp] theorem Memory.keys_cons (c : Host.Cell) (m : Memory) : Memory.keys (c :: m) = c.1 :: Memory.keys m := rfl

/-! ### A read after a write -/

@[simp] theorem Memory.read_write_self (m : Memory) (a : Nat) (v : Byte) :
    Memory.read (Memory.write m a v) a = some v := by
  induction m with
  | nil => simp [Memory.write, Memory.read]
  | cons c m ih =>
    obtain ⟨b, u⟩ := c
    simp only [Memory.write]
    split
    · simp [Memory.read]
    · split
      · simp [Memory.read]
      · next h1 h2 => simp [Memory.read, Ne.symm h2, ih]

theorem Memory.read_write_other (m : Memory) {a b : Nat} (v : Byte) (h : a ≠ b) :
    Memory.read (Memory.write m a v) b = Memory.read m b := by
  induction m with
  | nil => simp [Memory.write, Memory.read, h]
  | cons c m ih =>
    obtain ⟨d, u⟩ := c
    simp only [Memory.write]
    split
    · simp [Memory.read, h]
    · split
      · next h1 h2 => subst h2; simp [Memory.read, h]
      · simp only [Memory.read, ih]

theorem Memory.read_write (m : Memory) (a b : Nat) (v : Byte) :
    Memory.read (Memory.write m a v) b = if a = b then some v else Memory.read m b := by
  split
  · next h => subst h; simp
  · next h => exact Memory.read_write_other m v h

/-! ### The canonical form -/

theorem Memory.wf_iff_keys (m : Memory) : Memory.wf m ↔ (Memory.keys m).Pairwise (· < ·) := by
  simp [Memory.keys, List.pairwise_map]

theorem Memory.mem_keys_write {m : Memory} {a : Nat} {v : Byte} {k : Nat}
    (h : k ∈ Memory.keys (Memory.write m a v)) : k = a ∨ k ∈ Memory.keys m := by
  induction m with
  | nil => simpa [Memory.write] using h
  | cons c m ih =>
    obtain ⟨d, u⟩ := c
    simp only [Memory.write] at h
    split at h
    · simpa using h
    · split at h
      · next h1 h2 => subst h2; simp only [Memory.keys_cons, List.mem_cons] at h ⊢; tauto
      · simp only [Memory.keys_cons, List.mem_cons] at h ⊢
        rcases h with h | h
        · tauto
        · have := ih h; tauto

/-- Writing keeps the canonical form. -/
theorem Memory.wf_write {m : Memory} (h : Memory.wf m) (a : Nat) (v : Byte) : Memory.wf (Memory.write m a v) := by
  rw [Memory.wf_iff_keys] at h ⊢
  induction m with
  | nil => simp [Memory.write]
  | cons c m ih =>
    obtain ⟨d, u⟩ := c
    simp only [Memory.keys_cons, List.pairwise_cons] at h
    simp only [Memory.write]
    split
    · next h1 =>
      simp only [Memory.keys_cons, List.pairwise_cons]
      refine ⟨fun k hk => ?_, h.1, h.2⟩
      rcases List.mem_cons.1 hk with rfl | hk
      · exact h1
      · exact lt_trans h1 (h.1 k hk)
    · split
      · next h1 h2 => subst h2; simpa using h
      · next h1 h2 =>
        simp only [Memory.keys_cons, List.pairwise_cons]
        refine ⟨fun k hk => ?_, ih h.2⟩
        rcases Memory.mem_keys_write hk with rfl | hk
        · show d < k; omega
        · exact h.1 k hk

/-- Writing an index that is already listed changes no index. -/
theorem Memory.keys_write_of_mem {m : Memory} (hw : Memory.wf m) {a : Nat} (v : Byte) (ha : a ∈ Memory.keys m) :
    Memory.keys (Memory.write m a v) = Memory.keys m := by
  rw [Memory.wf_iff_keys] at hw
  induction m with
  | nil => simp at ha
  | cons c m ih =>
    obtain ⟨d, u⟩ := c
    simp only [Memory.keys_cons, List.pairwise_cons] at hw
    simp only [Memory.keys_cons, List.mem_cons] at ha
    simp only [Memory.write]
    split
    · next h1 =>
      rcases ha with rfl | ha
      · omega
      · have := hw.1 a ha; omega
    · split
      · next h1 h2 => simp [h2]
      · next h1 h2 =>
        simp only [Memory.keys_cons]
        rw [ih hw.2 (by tauto)]

/-! ### Memories that list exactly `0 .. n - 1` -/

theorem Memory.Holds.wf {m : Memory} {n : Nat} (h : Memory.Holds m n) : Memory.wf m := by
  rw [Memory.wf_iff_keys, h]; exact List.pairwise_lt_range

theorem Memory.Holds.write {m : Memory} {n : Nat} (h : Memory.Holds m n) {a : Nat} (ha : a < n) (v : Byte) :
    Memory.Holds (Memory.write m a v) n := by
  unfold Memory.Holds
  rw [Memory.keys_write_of_mem h.wf v (by rw [h]; simpa using ha), h]

theorem Memory.read_eq_none_iff (m : Memory) (a : Nat) : Memory.read m a = none ↔ a ∉ Memory.keys m := by
  induction m with
  | nil => simp [Memory.read]
  | cons c m ih =>
    obtain ⟨d, u⟩ := c
    simp only [Memory.read, Memory.keys_cons, List.mem_cons, not_or]
    split
    · next h => simp [h]
    · next h => simp [ih, Ne.symm h]

theorem Memory.Holds.read {m : Memory} {n : Nat} (h : Memory.Holds m n) {a : Nat} (ha : a < n) :
    ∃ v, Memory.read m a = some v := by
  by_contra hc
  have hn : Memory.read m a = none := by
    cases hr : Memory.read m a with
    | none => rfl
    | some v => exact absurd ⟨v, hr⟩ hc
  rw [Memory.read_eq_none_iff, h] at hn
  simp [ha] at hn

theorem Memory.Holds.read_none {m : Memory} {n : Nat} (h : Memory.Holds m n) {a : Nat} (ha : n ≤ a) :
    Memory.read m a = none := by
  rw [Memory.read_eq_none_iff, h]; simpa using ha

theorem Memory.holds_ofFn (n : Nat) (f : Nat → Byte) : Memory.Holds (Memory.ofFn n f) n := by
  simp [Memory.Holds, Memory.ofFn, Memory.keys, Function.comp_def]

theorem Memory.read_map {f : Nat → Byte} {a : Nat} (l : List Nat) (h : a ∈ l) :
    Memory.read (l.map (fun i => (i, f i))) a = some (f a) := by
  induction l with
  | nil => simp at h
  | cons b l ih =>
    simp only [List.map_cons, Memory.read]
    split
    · next hb => rw [hb]
    · next hb => exact ih (by simpa [Ne.symm hb] using h)

theorem Memory.read_ofFn {n : Nat} (f : Nat → Byte) {a : Nat} (h : a < n) :
    Memory.read (Memory.ofFn n f) a = some (f a) :=
  Memory.read_map _ (by simpa using h)

/-! ### The address spaces -/

@[simp] theorem State.mem_pix (s : State) : s.mem .pix = s.pix := rfl
@[simp] theorem State.mem_isb (s : State) : s.mem .isb = s.isb := rfl
@[simp] theorem State.mem_wb_false (s : State) : s.mem (.wb false) = s.wb0 := rfl
@[simp] theorem State.mem_wb_true (s : State) : s.mem (.wb true) = s.wb1 := rfl

@[simp] theorem State.mem_setMem_self (s : State) (sp : Space) (m : Memory) : (s.setMem sp m).mem sp = m := by
  cases sp with | wb h => cases h <;> rfl | _ => rfl

theorem State.mem_setMem_other (s : State) {sp sq : Space} (m : Memory) (h : sp ≠ sq) :
    (s.setMem sp m).mem sq = s.mem sq := by
  cases sp with
  | wb a => cases sq with
    | wb b => cases a <;> cases b <;> simp_all [State.setMem, State.mem]
    | _ => cases a <;> rfl
  | pix => cases sq with
    | wb b => cases b <;> rfl
    | isb => rfl
    | pix => exact absurd rfl h
  | isb => cases sq with
    | wb b => cases b <;> rfl
    | pix => rfl
    | isb => exact absurd rfl h

@[simp] theorem State.setMem_setMem (s : State) (sp : Space) (m n : Memory) :
    (s.setMem sp m).setMem sp n = s.setMem sp n := by
  cases sp with | wb h => cases h <;> rfl | _ => rfl

@[simp] theorem State.setMem_wb_pix (s : State) (h : Half) (m : Memory) : (s.setMem (.wb h) m).pix = s.pix := by
  cases h <;> rfl
@[simp] theorem State.setMem_wb_isb (s : State) (h : Half) (m : Memory) : (s.setMem (.wb h) m).isb = s.isb := by
  cases h <;> rfl
@[simp] theorem State.setMem_pix_pix (s : State) (m : Memory) : (s.setMem .pix m).pix = m := rfl
@[simp] theorem State.setMem_pix_isb (s : State) (m : Memory) : (s.setMem .pix m).isb = s.isb := rfl
@[simp] theorem State.setMem_pix_wb (s : State) (m : Memory) (h : Half) :
    (s.setMem .pix m).mem (.wb h) = s.mem (.wb h) := by cases h <;> rfl

/-- Every memory of the Device in canonical form. -/
theorem State.memWrite_wf (s : State) (sp sq : Space) (a : Nat) (v : Byte) (h : Memory.wf (s.mem sq)) :
    Memory.wf ((s.memWrite sp a v).mem sq) := by
  unfold State.memWrite
  by_cases hs : sp = sq
  · subst hs; simpa using Memory.wf_write h a v
  · rwa [State.mem_setMem_other s _ hs]

@[simp] theorem State.setMem_streamEnd (s : State) (sp : Space) (m : Memory) :
    (s.setMem sp m).streamEnd = s.streamEnd := by simp [State.streamEnd]

theorem State.streamEnd_eq (s : State) : s.streamEnd = 3 * s.capacity.toNat := rfl

/-- What a read answers: the byte, exactly when the index is inside the space and holds a value. -/
theorem State.memRead_ok_iff (s : State) (sp : Space) (a : Nat) (v : Byte) :
    s.memRead sp a = .ok v ↔ a < s.spaceSize sp ∧ Memory.read (s.mem sp) a = some v := by
  unfold State.memRead
  split
  · next h =>
    split
    · next w hw => simp [h, hw]
    · next hw => simp [hw]
  · next h => simp [h]

end Sys2Proof.Machine
end

