-- ==== Sys2Proof/Laws/Encoder.lean ====
section
/-!
SUPPORT. What the Bit Encoder's subroutines can do, said once: each is a rewriting of the even slots of one waveform
buffer, given in closed form, and a movement of `cursor`, `end_reached` and `drain_count`.
-/

namespace Sys2Proof.Machine

/-! ### Writing even slots of one memory -/

/-- The memory after `f 0 .. f (n - 1)` were written into the even slots of cells `k .. k + n - 1`. -/
def Memory.evenWrites (m : Memory) (k : Nat) (f : Nat → Byte) : Nat → Memory
  | 0 => m
  | n + 1 => Memory.write (Memory.evenWrites m k f n) (evenSlot (k + n)) (f n)

theorem State.writeEvenSlots_eq (s : State) (h : Half) (k : Nat) (f : Nat → Byte) (n : Nat) :
    s.writeEvenSlots h k f n = s.setMem (.wb h) (Memory.evenWrites (s.mem (.wb h)) k f n) := by
  induction n with
  | zero => simp only [State.writeEvenSlots, Memory.evenWrites]; cases h <;> rfl
  | succ n ih => simp [State.writeEvenSlots, Memory.evenWrites, ih, State.memWrite]

theorem Memory.evenWrites_add (m : Memory) (k : Nat) (f : Nat → Byte) (a b : Nat) :
    Memory.evenWrites m k f (a + b) = Memory.evenWrites (Memory.evenWrites m k f a) (k + a) (fun i => f (a + i)) b := by
  induction b with
  | zero => rfl
  | succ b ih =>
    rw [show a + (b + 1) = (a + b) + 1 from rfl]
    simp only [Memory.evenWrites, ih, Nat.add_assoc]

theorem Memory.evenWrites_congr (m : Memory) (k : Nat) {f g : Nat → Byte} {n : Nat} (h : ∀ i, i < n → f i = g i) :
    Memory.evenWrites m k f n = Memory.evenWrites m k g n := by
  induction n with
  | zero => rfl
  | succ n ih => simp only [Memory.evenWrites, ih (fun i hi => h i (by omega)), h n (by omega)]

/-- Inside the cells written, an even slot holds the new value. -/
theorem Memory.read_evenWrites (m : Memory) (k : Nat) (f : Nat → Byte) (n c : Nat) :
    Memory.read (Memory.evenWrites m k f n) (evenSlot c) =
      if k ≤ c ∧ c < k + n then some (f (c - k)) else Memory.read m (evenSlot c) := by
  induction n with
  | zero => simp only [Memory.evenWrites]; rw [if_neg (by omega)]
  | succ n ih =>
    simp only [Memory.evenWrites]
    rw [Memory.read_write, ih]
    by_cases h1 : evenSlot (k + n) = evenSlot c
    · have hc : c = k + n := by unfold evenSlot at h1; omega
      subst hc
      rw [if_pos rfl, if_pos (by omega)]
      congr 2; omega
    · rw [if_neg h1]
      have hc : c ≠ k + n := fun hc => h1 (by rw [hc])
      by_cases h2 : k ≤ c ∧ c < k + n
      · rw [if_pos h2, if_pos (by omega)]
      · rw [if_neg h2, if_neg (by omega)]

/-- An odd slot is never written (rule R153). -/
theorem Memory.read_evenWrites_odd (m : Memory) (k : Nat) (f : Nat → Byte) (n a : Nat) (ha : a % 2 = 1) :
    Memory.read (Memory.evenWrites m k f n) a = Memory.read m a := by
  induction n with
  | zero => rfl
  | succ n ih =>
    simp only [Memory.evenWrites]
    rw [Memory.read_write_other _ _ (by unfold evenSlot; omega), ih]

/-- An index past the cells written is never written. -/
theorem Memory.read_evenWrites_past (m : Memory) (k : Nat) (f : Nat → Byte) (n a : Nat) (ha : 2 * (k + n) ≤ a) :
    Memory.read (Memory.evenWrites m k f n) a = Memory.read m a := by
  induction n with
  | zero => rfl
  | succ n ih =>
    simp only [Memory.evenWrites]
    rw [Memory.read_write_other _ _ (by unfold evenSlot; omega), ih (by omega)]

theorem Memory.wf_evenWrites {m : Memory} (h : Memory.wf m) (k : Nat) (f : Nat → Byte) (n : Nat) :
    Memory.wf (Memory.evenWrites m k f n) := by
  induction n with
  | zero => exact h
  | succ n ih => exact Memory.wf_write ih _ _

theorem Memory.Holds.evenWrites {m : Memory} {N : Nat} (h : Memory.Holds m N) (k : Nat) (f : Nat → Byte) (n : Nat)
    (hn : 2 * (k + n) ≤ N) : Memory.Holds (Memory.evenWrites m k f n) N := by
  induction n with
  | zero => exact h
  | succ n ih => exact Memory.Holds.write (ih (by omega)) (by unfold evenSlot; omega) _

/-! ### ENCODE_HALF -/

/-- Every byte of the pixel stream holds a value. -/
def State.pixReadable (s : State) : Prop := ∀ j, j < s.streamEnd → ∃ v, Memory.read s.pix j = some v

theorem State.pixReadable_of_holds {s : State} (h : Memory.Holds s.pix (3 * s.capacity.toNat)) : s.pixReadable :=
  fun _ hj => Memory.Holds.read h hj

theorem State.encodeByte_eq (s : State) (h : Half) (k : Nat) (byte : Byte) :
    s.encodeByte h k byte = s.setMem (.wb h)
      (Memory.evenWrites (s.mem (.wb h)) k (fun j => slotFor s.mask (byteBit byte j)) 8) :=
  State.writeEvenSlots_eq ..

theorem State.streamBit_setMem (s : State) (h : Half) (m : Memory) (n : Nat) :
    (s.setMem (.wb h) m).streamBit n = s.streamBit n := by simp [State.streamBit]

/-- How many bytes a fill with room for `n` encodes from the present `cursor`. -/
def State.bytesTaken (s : State) (n : Nat) : Nat := min n (s.streamEnd - s.cursor.toNat)

/-- ENCODE_HALF's loop in closed form: it encodes `min n (end - cursor)` bytes, whose bits go to the even slots from cell
`k` on in stream order (rules R94, R151). -/
theorem State.encodeBytes_ok (n : Nat) : ∀ (s : State) (h : Half) (k : Nat), s.pixReadable → s.streamEnd < 4096 →
    s.encodeBytes h k n = .ok (k + 8 * s.bytesTaken n,
      (s.setMem (.wb h) (Memory.evenWrites (s.mem (.wb h)) k
          (fun i => slotFor s.mask (s.streamBit (8 * s.cursor.toNat + i))) (8 * s.bytesTaken n))).setCursor
        (BitVec.ofNat 12 (s.cursor.toNat + s.bytesTaken n))) := by
  induction n with
  | zero =>
    intro s h k _ _
    simp only [State.encodeBytes, State.bytesTaken, Nat.zero_min, Nat.mul_zero, Nat.add_zero, Memory.evenWrites,
      BitVec.ofNat_toNat, BitVec.setWidth_eq]
    cases h <;> rfl
  | succ n ih =>
    intro s h k hp hend
    unfold State.encodeBytes
    split
    · next hc =>
      obtain ⟨v, hv⟩ := hp _ hc
      have hr : s.memRead .pix s.cursor.toNat = .ok v := (State.memRead_ok_iff ..).2 ⟨hc, hv⟩
      simp only [hr]
      have hcur : (s.cursor + 1).toNat = s.cursor.toNat + 1 := by
        rw [BitVec.toNat_add]; simp; omega
      have hp' : ((s.encodeByte h k v).setCursor (s.cursor + 1)).pixReadable := by
        intro j hj
        rw [State.encodeByte_eq] at hj ⊢
        have : j < s.streamEnd := by simpa [State.streamEnd] using hj
        obtain ⟨w, hw⟩ := hp j this
        exact ⟨w, by simpa using hw⟩
      have hend' : ((s.encodeByte h k v).setCursor (s.cursor + 1)).streamEnd = s.streamEnd := by
        rw [State.encodeByte_eq]; simp [State.streamEnd]
      rw [ih _ h (k + 8) hp' (by rw [hend']; exact hend)]
      have htk : s.bytesTaken (n + 1) =
          1 + ((s.encodeByte h k v).setCursor (s.cursor + 1)).bytesTaken n := by
        unfold State.bytesTaken
        rw [hend']
        show _ = 1 + min n (s.streamEnd - (s.cursor + 1).toNat)
        rw [hcur]; omega
      rw [htk]
      generalize ((s.encodeByte h k v).setCursor (s.cursor + 1)).bytesTaken n = t
      have hbit : ∀ i, i < 8 → byteBit v i = s.streamBit (8 * s.cursor.toNat + i) := by
        intro i hi
        have h1 : (8 * s.cursor.toNat + i) / 8 = s.cursor.toNat := by omega
        have h2 : (8 * s.cursor.toNat + i) % 8 = i := by omega
        simp [State.streamBit, h1, h2, hv]
      have hmem : Memory.evenWrites (s.mem (.wb h)) k
            (fun i => slotFor s.mask (s.streamBit (8 * s.cursor.toNat + i))) (8 * (1 + t)) =
          Memory.evenWrites (Memory.evenWrites (s.mem (.wb h)) k (fun j => slotFor s.mask (byteBit v j)) 8) (k + 8)
            (fun i => slotFor s.mask (s.streamBit (8 * (s.cursor.toNat + 1) + i))) (8 * t) := by
        rw [show 8 * (1 + t) = 8 + 8 * t by ring, Memory.evenWrites_add]
        congr 1
        · apply Memory.evenWrites_congr
          intro i hi; rw [hbit i hi]
        · funext i; congr 2; ring
      rw [State.encodeByte_eq]
      simp only [hmem]
      have hk : k + 8 + 8 * t = k + 8 * (1 + t) := by ring
      rw [hk]
      cases h <;>
        simp only [State.setCursor, State.setMem, State.mem, State.streamBit, hcur, Nat.add_assoc]
    · next hc =>
      have : s.bytesTaken (n + 1) = 0 := by unfold State.bytesTaken; omega
      simp only [this, Nat.mul_zero, Nat.add_zero, Memory.evenWrites, BitVec.ofNat_toNat, BitVec.setWidth_eq]
      cases h <;> rfl

/-- The even slot ENCODE_HALF writes for cell `i` of a half that starts at stream byte `c0`: the stream bit's slot while
data lasts, then the idle pattern's 0 (rules R62, R151, R156). -/
def State.cellSlot (s : State) (c0 i : Nat) : Byte :=
  if 8 * c0 + i < 24 * s.capacity.toNat then slotFor s.mask (s.streamBit (8 * c0 + i)) else 0

/-- ENCODE_HALF in closed form (rules R151, R155, R156). -/
theorem State.encodeHalf_ok (s : State) (h : Half) (hp : s.pixReadable) (hcap : s.capacity.toNat ≤ 1024)
    (hcur : s.cursor.toNat ≤ s.streamEnd) :
    s.encodeHalf h = .ok
      ((s.setMem (.wb h) (Memory.evenWrites (s.mem (.wb h)) 0 (s.cellSlot s.cursor.toNat) 144)).setCursor
        (BitVec.ofNat 12 (min (s.cursor.toNat + 18) s.streamEnd))).updateEndReached := by
  have hend : s.streamEnd < 4096 := by rw [State.streamEnd_eq]; omega
  have hb : Config.bytesPerHalf = 18 := rfl
  have hc : Config.cellsPerHalf = 144 := rfl
  unfold State.encodeHalf State.encodeHalfWith
  rw [State.encodeBytes_ok _ s h 0 hp hend, hb]
  set t := s.bytesTaken 18 with ht
  have htl : t ≤ 18 := by rw [ht]; unfold State.bytesTaken; omega
  have hct : s.cursor.toNat + t = min (s.cursor.toNat + 18) s.streamEnd := by
    rw [ht]; unfold State.bytesTaken; omega
  have hmem : Memory.evenWrites (Memory.evenWrites (s.mem (.wb h)) 0
        (fun i => slotFor s.mask (s.streamBit (8 * s.cursor.toNat + i))) (8 * t)) (8 * t) (fun _ => 0) (144 - 8 * t) =
      Memory.evenWrites (s.mem (.wb h)) 0 (s.cellSlot s.cursor.toNat) 144 := by
    have h144 : 144 = 8 * t + (144 - 8 * t) := by omega
    conv_rhs => rw [h144, Memory.evenWrites_add]
    have h24 : 24 * s.capacity.toNat = 8 * s.streamEnd := by rw [State.streamEnd_eq]; ring
    have h1 : Memory.evenWrites (s.mem (.wb h)) 0
          (fun i => slotFor s.mask (s.streamBit (8 * s.cursor.toNat + i))) (8 * t) =
        Memory.evenWrites (s.mem (.wb h)) 0 (s.cellSlot s.cursor.toNat) (8 * t) := by
      apply Memory.evenWrites_congr
      intro i hi
      unfold State.cellSlot
      rw [if_pos (by omega)]
    rw [h1, Nat.zero_add]
    apply Memory.evenWrites_congr
    intro i hi
    unfold State.cellSlot
    rw [if_neg (by omega)]
  simp only [Config.tailPolicy, State.padTail, State.writeEvenSlots_eq, hc, Nat.zero_add]
  rw [← hct, ← hmem]
  cases h <;> rfl

/-- FILL_IDLE in closed form (rule R157). -/
theorem State.fillIdle_eq (s : State) (h : Half) :
    s.fillIdle h = s.setMem (.wb h) (Memory.evenWrites (s.mem (.wb h)) 0 (fun _ => 0) 144) :=
  State.writeEvenSlots_eq ..

/-! ### FILL -/

/-- What FILL leaves, in closed form: the idle pattern, counted, once the boundary was reached; else the next half of the
stream (rule R158). -/
def State.filled (s : State) (h : Half) : State :=
  if s.endReached then
    (s.setMem (.wb h) (Memory.evenWrites (s.mem (.wb h)) 0 (fun _ => 0) 144)).countDrain
  else
    ((s.setMem (.wb h) (Memory.evenWrites (s.mem (.wb h)) 0 (s.cellSlot s.cursor.toNat) 144)).setCursor
      (BitVec.ofNat 12 (min (s.cursor.toNat + 18) s.streamEnd))).updateEndReached

/-- FILL never fails on a Device whose pixel stream is readable, and this is all it does (rules R151, R157, R158). -/
theorem State.fill_ok (s : State) (h : Half) (hp : s.pixReadable) (hcap : s.capacity.toNat ≤ 1024)
    (hcur : s.cursor.toNat ≤ s.streamEnd) : s.fill h = .ok (s.filled h) := by
  unfold State.fill State.filled
  split
  · rw [State.fillIdle_eq]
  · exact State.encodeHalf_ok s h hp hcap hcur

/-- The even slot FILL writes for cell `i` of its half. -/
def State.fillSlot (s : State) (i : Nat) : Byte := if s.endReached then 0 else s.cellSlot s.cursor.toNat i

theorem State.filled_mem_self (s : State) (h : Half) :
    (s.filled h).mem (.wb h) = Memory.evenWrites (s.mem (.wb h)) 0 s.fillSlot 144 := by
  have hf : s.fillSlot = if s.endReached then (fun _ => 0) else s.cellSlot s.cursor.toNat := by
    funext i; unfold State.fillSlot; split <;> rfl
  rw [hf]
  unfold State.filled
  split <;> simp

theorem State.filled_mem_other (s : State) {h g : Half} (hg : h ≠ g) : (s.filled h).mem (.wb g) = s.mem (.wb g) := by
  unfold State.filled
  have : Space.wb h ≠ Space.wb g := fun hc => hg (by injection hc)
  split <;> simp [State.mem_setMem_other _ _ this]

theorem State.filled_cursor (s : State) (h : Half) (hcap : s.capacity.toNat ≤ 1024) :
    (s.filled h).cursor.toNat =
      if s.endReached then s.cursor.toNat else min (s.cursor.toNat + 18) s.streamEnd := by
  unfold State.filled
  split
  · simp
  · simp only [State.updateEndReached_cursor, State.setCursor_cursor, BitVec.toNat_ofNat]
    apply Nat.mod_eq_of_lt
    have := State.streamEnd_eq s
    omega

theorem State.filled_endReached (s : State) (h : Half) (hcap : s.capacity.toNat ≤ 1024) :
    (s.filled h).endReached = (s.endReached || decide (s.streamEnd ≤ s.cursor.toNat + 18)) := by
  have hc := State.filled_cursor s h hcap
  unfold State.filled at hc ⊢
  cases he : s.endReached with
  | true => simp [he]
  | false =>
    rw [he] at hc
    simp only [Bool.false_eq_true, if_false, State.updateEndReached_cursor] at hc
    simp only [Bool.false_eq_true, if_false, State.updateEndReached_endReached, hc, Bool.false_or, decide_eq_decide]
    simp only [State.streamEnd, State.setCursor_capacity, State.setMem_capacity]
    omega

theorem State.filled_drainCount (s : State) (h : Half) :
    (s.filled h).drainCount = if s.endReached then s.drainCount + 1 else s.drainCount := by
  unfold State.filled; split <;> simp

@[simp] theorem State.filled_initialized (s : State) (h : Half) : (s.filled h).initialized = s.initialized := by
  unfold State.filled; split <;> simp
@[simp] theorem State.filled_halted (s : State) (h : Half) : (s.filled h).halted = s.halted := by
  unfold State.filled; split <;> simp
@[simp] theorem State.filled_lastStatus (s : State) (h : Half) : (s.filled h).lastStatus = s.lastStatus := by
  unfold State.filled; split <;> simp
@[simp] theorem State.filled_capacity (s : State) (h : Half) : (s.filled h).capacity = s.capacity := by
  unfold State.filled; split <;> simp
@[simp] theorem State.filled_activeHalf (s : State) (h : Half) : (s.filled h).activeHalf = s.activeHalf := by
  unfold State.filled; split <;> simp
@[simp] theorem State.filled_inProgress (s : State) (h : Half) : (s.filled h).inProgress = s.inProgress := by
  unfold State.filled; split <;> simp
@[simp] theorem State.filled_mask (s : State) (h : Half) : (s.filled h).mask = s.mask := by
  unfold State.filled; split <;> simp
@[simp] theorem State.filled_phase (s : State) (h : Half) : (s.filled h).phase = s.phase := by
  unfold State.filled; split <;> simp
@[simp] theorem State.filled_timEn (s : State) (h : Half) : (s.filled h).timEn = s.timEn := by
  unfold State.filled; split <;> simp
@[simp] theorem State.filled_timPhase (s : State) (h : Half) : (s.filled h).timPhase = s.timPhase := by
  unfold State.filled; split <;> simp
@[simp] theorem State.filled_idleEn (s : State) (h : Half) : (s.filled h).idleEn = s.idleEn := by
  unfold State.filled; split <;> simp
@[simp] theorem State.filled_encEn (s : State) (h : Half) : (s.filled h).encEn = s.encEn := by
  unfold State.filled; split <;> simp
@[simp] theorem State.filled_encDbm (s : State) (h : Half) : (s.filled h).encDbm = s.encDbm := by
  unfold State.filled; split <;> simp
@[simp] theorem State.filled_encCt (s : State) (h : Half) : (s.filled h).encCt = s.encCt := by
  unfold State.filled; split <;> simp
@[simp] theorem State.filled_encPos (s : State) (h : Half) : (s.filled h).encPos = s.encPos := by
  unfold State.filled; split <;> simp
@[simp] theorem State.filled_halfDonePending (s : State) (h : Half) : (s.filled h).halfDonePending = s.halfDonePending := by
  unfold State.filled; split <;> simp
@[simp] theorem State.filled_refillMissed (s : State) (h : Half) : (s.filled h).refillMissed = s.refillMissed := by
  unfold State.filled; split <;> simp
@[simp] theorem State.filled_pinLevel (s : State) (h : Half) : (s.filled h).pinLevel = s.pinLevel := by
  unfold State.filled; split <;> simp
@[simp] theorem State.filled_pinLane (s : State) (h : Half) : (s.filled h).pinLane = s.pinLane := by
  unfold State.filled; split <;> simp
@[simp] theorem State.filled_pinMode (s : State) (h : Half) : (s.filled h).pinMode = s.pinMode := by
  unfold State.filled; split <;> simp
@[simp] theorem State.filled_frameValid (s : State) (h : Half) : (s.filled h).frameValid = s.frameValid := by
  unfold State.filled; split <;> simp
@[simp] theorem State.filled_txCells (s : State) (h : Half) : (s.filled h).txCells = s.txCells := by
  unfold State.filled; split <;> simp
@[simp] theorem State.filled_wave (s : State) (h : Half) : (s.filled h).wave = s.wave := by
  unfold State.filled; split <;> simp
@[simp] theorem State.filled_turns (s : State) (h : Half) : (s.filled h).turns = s.turns := by
  unfold State.filled; split <;> simp
@[simp] theorem State.filled_draws (s : State) (h : Half) : (s.filled h).draws = s.draws := by
  unfold State.filled; split <;> simp
@[simp] theorem State.filled_pix (s : State) (h : Half) : (s.filled h).pix = s.pix := by
  unfold State.filled; split <;> simp
@[simp] theorem State.filled_isb (s : State) (h : Half) : (s.filled h).isb = s.isb := by
  unfold State.filled; split <;> simp
@[simp] theorem State.filled_streamEnd (s : State) (h : Half) : (s.filled h).streamEnd = s.streamEnd := by
  unfold State.filled; split <;> simp

/-! ### What FILL leaves alone in every state -/

/-- A state after a fill of half `h`: that buffer, `cursor`, `end_reached` and `drain_count` may differ, nothing else. -/
def State.afterFill (s : State) (h : Half) (m : Memory) (c : BitVec 12) (e : Bool) (d : BitVec 2) : State :=
  { s.setMem (.wb h) m with cursor := c, endReached := e, drainCount := d }

section
variable (s : State) (h : Half) (m : Memory) (c : BitVec 12) (e : Bool) (d : BitVec 2)
@[simp] theorem State.afterFill_cursor : (s.afterFill h m c e d).cursor = c := rfl
@[simp] theorem State.afterFill_endReached : (s.afterFill h m c e d).endReached = e := rfl
@[simp] theorem State.afterFill_drainCount : (s.afterFill h m c e d).drainCount = d := rfl
@[simp] theorem State.afterFill_mem_self : (s.afterFill h m c e d).mem (.wb h) = m := by cases h <;> rfl
theorem State.afterFill_mem_other {sp : Space} (hs : Space.wb h ≠ sp) : (s.afterFill h m c e d).mem sp = s.mem sp := by
  rw [← State.mem_setMem_other s m hs]; cases sp with | wb g => cases g <;> rfl | _ => rfl
@[simp] theorem State.afterFill_initialized : (s.afterFill h m c e d).initialized = s.initialized := by cases h <;> rfl
@[simp] theorem State.afterFill_halted : (s.afterFill h m c e d).halted = s.halted := by cases h <;> rfl
@[simp] theorem State.afterFill_lastStatus : (s.afterFill h m c e d).lastStatus = s.lastStatus := by cases h <;> rfl
@[simp] theorem State.afterFill_capacity : (s.afterFill h m c e d).capacity = s.capacity := by cases h <;> rfl
@[simp] theorem State.afterFill_pix : (s.afterFill h m c e d).pix = s.pix := by cases h <;> rfl
@[simp] theorem State.afterFill_activeHalf : (s.afterFill h m c e d).activeHalf = s.activeHalf := by cases h <;> rfl
@[simp] theorem State.afterFill_inProgress : (s.afterFill h m c e d).inProgress = s.inProgress := by cases h <;> rfl
@[simp] theorem State.afterFill_mask : (s.afterFill h m c e d).mask = s.mask := by cases h <;> rfl
@[simp] theorem State.afterFill_isb : (s.afterFill h m c e d).isb = s.isb := by cases h <;> rfl
@[simp] theorem State.afterFill_phase : (s.afterFill h m c e d).phase = s.phase := by cases h <;> rfl
@[simp] theorem State.afterFill_timEn : (s.afterFill h m c e d).timEn = s.timEn := by cases h <;> rfl
@[simp] theorem State.afterFill_timPhase : (s.afterFill h m c e d).timPhase = s.timPhase := by cases h <;> rfl
@[simp] theorem State.afterFill_idleEn : (s.afterFill h m c e d).idleEn = s.idleEn := by cases h <;> rfl
@[simp] theorem State.afterFill_encEn : (s.afterFill h m c e d).encEn = s.encEn := by cases h <;> rfl
@[simp] theorem State.afterFill_encDbm : (s.afterFill h m c e d).encDbm = s.encDbm := by cases h <;> rfl
@[simp] theorem State.afterFill_encCt : (s.afterFill h m c e d).encCt = s.encCt := by cases h <;> rfl
@[simp] theorem State.afterFill_encPos : (s.afterFill h m c e d).encPos = s.encPos := by cases h <;> rfl
@[simp] theorem State.afterFill_halfDonePending : (s.afterFill h m c e d).halfDonePending = s.halfDonePending := by cases h <;> rfl
@[simp] theorem State.afterFill_refillMissed : (s.afterFill h m c e d).refillMissed = s.refillMissed := by cases h <;> rfl
@[simp] theorem State.afterFill_pinLevel : (s.afterFill h m c e d).pinLevel = s.pinLevel := by cases h <;> rfl
@[simp] theorem State.afterFill_pinLane : (s.afterFill h m c e d).pinLane = s.pinLane := by cases h <;> rfl
@[simp] theorem State.afterFill_pinMode : (s.afterFill h m c e d).pinMode = s.pinMode := by cases h <;> rfl
@[simp] theorem State.afterFill_frameValid : (s.afterFill h m c e d).frameValid = s.frameValid := by cases h <;> rfl
@[simp] theorem State.afterFill_txCells : (s.afterFill h m c e d).txCells = s.txCells := by cases h <;> rfl
@[simp] theorem State.afterFill_wave : (s.afterFill h m c e d).wave = s.wave := by cases h <;> rfl
@[simp] theorem State.afterFill_turns : (s.afterFill h m c e d).turns = s.turns := by cases h <;> rfl
@[simp] theorem State.afterFill_draws : (s.afterFill h m c e d).draws = s.draws := by cases h <;> rfl
@[simp] theorem State.afterFill_streamEnd : (s.afterFill h m c e d).streamEnd = s.streamEnd := by cases h <;> rfl
theorem State.afterFill_afterFill (m' : Memory) (c' : BitVec 12) (e' : Bool) (d' : BitVec 2) :
    (s.afterFill h m c e d).afterFill h m' c' e' d' = s.afterFill h m' c' e' d' := by cases h <;> rfl
theorem State.afterFill_self : s.afterFill h (s.mem (.wb h)) s.cursor s.endReached s.drainCount = s := by cases h <;> rfl
end

/-- `m'` is `m` but for even slots: odd slots and everything past the buffer are as before, and the form is kept. -/
def Memory.OnlyEven (m m' : Memory) : Prop :=
  (Memory.wf m → Memory.wf m') ∧ (∀ a, a % 2 = 1 ∨ 288 ≤ a → Memory.read m' a = Memory.read m a)

theorem Memory.OnlyEven.refl (m : Memory) : Memory.OnlyEven m m := ⟨id, fun _ _ => rfl⟩

theorem Memory.OnlyEven.trans {a b c : Memory} (h1 : Memory.OnlyEven a b) (h2 : Memory.OnlyEven b c) :
    Memory.OnlyEven a c := ⟨fun h => h2.1 (h1.1 h), fun k hk => (h2.2 k hk).trans (h1.2 k hk)⟩

theorem Memory.onlyEven_evenWrites (m : Memory) (k : Nat) (f : Nat → Byte) (n : Nat) (hn : k + n ≤ 144) :
    Memory.OnlyEven m (Memory.evenWrites m k f n) :=
  ⟨fun h => Memory.wf_evenWrites h k f n, fun a ha => ha.elim (Memory.read_evenWrites_odd m k f n a)
    (fun h => Memory.read_evenWrites_past m k f n a (by omega))⟩

theorem State.encodeBytes_shape (n : Nat) : ∀ (s : State) (h : Half) (k k' : Nat) (t : State), k + 8 * n ≤ 144 →
    s.encodeBytes h k n = .ok (k', t) → k' ≤ 144 ∧ k ≤ k' ∧ ∃ m c, t = s.afterFill h m c s.endReached s.drainCount ∧
      Memory.OnlyEven (s.mem (.wb h)) m := by
  induction n with
  | zero =>
    intro s h k k' t hk hr
    simp only [State.encodeBytes, Except.ok.injEq, Prod.mk.injEq] at hr
    obtain ⟨rfl, rfl⟩ := hr
    exact ⟨by omega, by omega, _, _, (State.afterFill_self s h).symm, Memory.OnlyEven.refl _⟩
  | succ n ih =>
    intro s h k k' t hk hr
    unfold State.encodeBytes at hr
    split at hr
    · split at hr
      · next v hv =>
        have he : (s.encodeByte h k v).setCursor (s.cursor + 1) = s.afterFill h
            (Memory.evenWrites (s.mem (.wb h)) k (fun j => slotFor s.mask (byteBit v j)) 8) (s.cursor + 1)
            s.endReached s.drainCount := by rw [State.encodeByte_eq]; cases h <;> rfl
        rw [he] at hr
        obtain ⟨h1, h2, m, c, ht, hm⟩ := ih _ h (k + 8) k' t (by omega) hr
        refine ⟨h1, by omega, m, c, ?_, ?_⟩
        · rw [ht, State.afterFill_afterFill]; simp
        · rw [State.afterFill_mem_self] at hm
          exact (Memory.onlyEven_evenWrites (s.mem (.wb h)) k (fun j => slotFor s.mask (byteBit v j)) 8 (by omega)).trans hm
      · cases hr
    · simp only [Except.ok.injEq, Prod.mk.injEq] at hr
      obtain ⟨rfl, rfl⟩ := hr
      exact ⟨by omega, by omega, _, _, (State.afterFill_self s h).symm, Memory.OnlyEven.refl _⟩

/-- All that FILL can do, in every state in which it succeeds (rules R150, R153, R158). -/
theorem State.fill_shape {s t : State} {h : Half} (hr : s.fill h = .ok t) :
    ∃ m c e d, t = s.afterFill h m c e d ∧ Memory.OnlyEven (s.mem (.wb h)) m := by
  unfold State.fill at hr
  split at hr
  · injection hr with hr
    rw [State.fillIdle_eq] at hr
    refine ⟨_, s.cursor, s.endReached, s.drainCount + 1, ?_, Memory.onlyEven_evenWrites (s.mem (.wb h)) 0 (fun _ => 0) 144 (by omega)⟩
    rw [← hr]
    generalize Memory.evenWrites (s.mem (.wb h)) 0 (fun _ => 0) 144 = m
    cases h <;> rfl
  · unfold State.encodeHalf State.encodeHalfWith at hr
    split at hr
    · next k u hu =>
      injection hr with hr
      obtain ⟨h1, h2, m, c, ht, hm⟩ := State.encodeBytes_shape 18 s h 0 k u (by omega) hu
      have hc : Config.cellsPerHalf = 144 := rfl
      simp only [Config.tailPolicy, State.padTail, State.writeEvenSlots_eq, hc] at hr
      have hoe : Memory.OnlyEven m (Memory.evenWrites m k (fun _ => 0) (144 - k)) :=
        Memory.onlyEven_evenWrites m k (fun _ => 0) (144 - k) (by omega)
      refine ⟨Memory.evenWrites m k (fun _ => 0) (144 - k), c, decide (c.toNat = s.streamEnd), s.drainCount, ?_,
        hm.trans hoe⟩
      rw [← hr, ht, State.afterFill_mem_self]
      generalize Memory.evenWrites m k (fun _ => 0) (144 - k) = m'
      cases h <;> rfl
    · cases hr

end Sys2Proof.Machine
end

