-- ==== Sys2Proof/Laws/Ops.lean ====
section
/-!
SUPPORT. What the port, the engines, the timer and the pixel writes can do, said once each.
-/

namespace Sys2Proof.Machine

/-! ### Ports (rule R66) -/

theorem State.portWrite_zero (s : State) (p : Port) : s.portWrite p 0 = s := by
  simp [State.portWrite]

theorem State.portWrite_start {s : State} {v : Byte} (h : v &&& s.mask ≠ 0) :
    s.portWrite .pulseStart v = { s with pinLevel := .high } := if_pos h

theorem State.portWrite_end {s : State} {v : Byte} (h : v &&& s.mask ≠ 0) :
    s.portWrite .pulseEnd v = { s with pinLevel := .low } := if_pos h

theorem State.portWrite_pinLevel (s : State) (p : Port) (v : Byte) :
    (s.portWrite p v).pinLevel =
      if v &&& s.mask ≠ 0 then (match p with | .pulseStart => .high | .pulseEnd => .low) else s.pinLevel := by
  unfold State.portWrite; split <;> cases p <;> rfl

theorem oneHot.ne_zero {m : Byte} (h : oneHot m) : m ≠ 0 := by
  obtain ⟨i, hi, rfl⟩ := h
  have : ∀ i : Fin 8, (1#8 <<< i.val) ≠ 0 := by decide
  exact this ⟨i, hi⟩

/-! ### The engines and the timer (rules R174, R180) -/

theorem State.arm_eq (s : State) :
    s.arm = { s with timEn := true, idleEn := true, encEn := true, encDbm := true, timPhase := .start,
                     encPos := 0, encCt := false, halfDonePending := false } := rfl

theorem State.stop_eq {s : State} (h : s.mask ≠ 0) :
    s.stop = { s with timEn := false, idleEn := false, encEn := false, pinLevel := .low } := by
  have h2 : s.mask &&& s.mask ≠ 0 := by rwa [BitVec.and_self]
  exact State.portWrite_end (s := { s with timEn := false, idleEn := false, encEn := false }) h2

/-- The wrap of the encode channel (rule R179): the other buffer, slot 0, and the event. -/
theorem State.advanceSlot_wrap {s : State} (h : s.encPos.toNat = 287) :
    s.advanceSlot = { s with encPos := 0, encCt := !s.encCt, halfDonePending := true,
                             refillMissed := s.refillMissed || s.halfDonePending } := by
  have : s.encPos + 1 = BitVec.ofNat 9 Config.slotsPerHalf := by
    apply BitVec.eq_of_toNat_eq; rw [BitVec.toNat_add, h]; rfl
  exact if_pos this

/-- Short of the wrap the pointer moves to the next slot and nothing else changes. -/
theorem State.advanceSlot_next {s : State} (h : s.encPos.toNat < 287) :
    s.advanceSlot = { s with encPos := s.encPos + 1 } := by
  have : s.encPos + 1 ≠ BitVec.ofNat 9 Config.slotsPerHalf := by
    intro hc
    have h2 := congrArg BitVec.toNat hc
    rw [BitVec.toNat_add] at h2
    have h3 : (BitVec.ofNat 9 Config.slotsPerHalf).toNat = 288 := rfl
    rw [h3] at h2
    have h4 : (1 : BitVec 9).toNat = 1 := rfl
    rw [h4] at h2
    omega
  exact if_neg this

/-- The fields `advanceSlot` can change are the pointer's and the event's. -/
theorem State.advanceSlot_cases (s : State) (h : s.encPos.toNat < 288) :
    (s.encPos.toNat = 287 ∧ s.advanceSlot = { s with encPos := 0, encCt := !s.encCt, halfDonePending := true, refillMissed := s.refillMissed || s.halfDonePending }) ∨
    (s.encPos.toNat < 287 ∧ s.advanceSlot = { s with encPos := s.encPos + 1 } ∧
      (s.encPos + 1).toNat = s.encPos.toNat + 1) := by
  rcases Nat.lt_or_ge s.encPos.toNat 287 with h1 | h1
  · refine .inr ⟨h1, State.advanceSlot_next h1, ?_⟩
    rw [BitVec.toNat_add]; show (s.encPos.toNat + 1) % 512 = _; omega
  · exact .inl ⟨by omega, State.advanceSlot_wrap (by omega)⟩

/-! ### Memories that a step of the hardware or of the Refill Controller leaves alone -/

theorem State.construct_mem (s : State) (maxLeds pinMask16 : BitVec 16) (drive : BitVec 1) (sp : Space) :
    (s.construct maxLeds pinMask16 drive).mem sp = match sp with
      | .pix => Memory.ofFn (3 * maxLeds.toNat) (Config.pixelInit s.draws)
      | .isb => Memory.ofFn 1 (fun _ => transitionMask pinMask16)
      | .wb _ => idlePattern (transitionMask pinMask16) := by
  cases sp with | wb h => cases h <;> rfl | _ => rfl

theorem State.launch_mem (s : State) (sp : Space) : s.launch.mem sp = s.mem sp := by
  cases sp with | wb h => cases h <;> rfl | _ => rfl

theorem State.advanceSlot_mem (s : State) (sp : Space) : s.advanceSlot.mem sp = s.mem sp := by
  unfold State.advanceSlot; split <;> cases sp with | wb h => cases h <;> rfl | _ => rfl

theorem State.stop_mem (s : State) (sp : Space) : s.stop.mem sp = s.mem sp := by
  unfold State.stop; simp only [State.portWrite_mem]; cases sp with | wb h => cases h <;> rfl | _ => rfl

theorem State.finishFrame_mem (s : State) (sp : Space) : s.finishFrame.mem sp = s.mem sp := by
  have : s.finishFrame.mem sp = s.stop.mem sp := by cases sp with | wb h => cases h <;> rfl | _ => rfl
  rw [this, State.stop_mem]

/-! ### Pixel writes (rules R61, R136, R137) -/

theorem pixelIndex_eq (i c : Nat) : pixelIndex i c = 3 * i + c := rfl

/-- The pixel memory after one pixel was written. -/
def Memory.pixelWrite (m : Memory) (i : Nat) (r g b : Byte) : Memory :=
  Memory.write (Memory.write (Memory.write m (3 * i) r) (3 * i + 1) g) (3 * i + 2) b

theorem State.writePixel_eq (s : State) (i : Nat) (r g b : Byte) :
    s.writePixel i r g b = s.setMem .pix (Memory.pixelWrite s.pix i r g b) := by
  simp [State.writePixel, State.memWrite, Memory.pixelWrite, pixelIndex_eq]

/-- The byte of colour `(r, g, b)` in channel `c`. -/
def channel (r g b : Byte) (c : Nat) : Byte := if c = 0 then r else if c = 1 then g else b

theorem Memory.read_pixelWrite (m : Memory) (i : Nat) (r g b : Byte) (j : Nat) :
    Memory.read (Memory.pixelWrite m i r g b) j =
      if j / 3 = i then some (channel r g b (j % 3)) else Memory.read m j := by
  unfold Memory.pixelWrite channel
  simp only [Memory.read_write]
  by_cases h : j / 3 = i
  · rw [if_pos h]
    have : j % 3 = 0 ∨ j % 3 = 1 ∨ j % 3 = 2 := by omega
    rcases this with h3 | h3 | h3
    · rw [if_neg (by omega), if_neg (by omega), if_pos (by omega)]; simp [h3]
    · rw [if_neg (by omega), if_pos (by omega)]; simp [h3]
    · rw [if_pos (by omega)]; simp [h3]
  · rw [if_neg h, if_neg (by omega), if_neg (by omega), if_neg (by omega)]

theorem Memory.wf_pixelWrite {m : Memory} (h : Memory.wf m) (i : Nat) (r g b : Byte) :
    Memory.wf (Memory.pixelWrite m i r g b) := Memory.wf_write (Memory.wf_write (Memory.wf_write h _ _) _ _) _ _

theorem Memory.Holds.pixelWrite {m : Memory} {n : Nat} (h : Memory.Holds m n) {i : Nat} (hi : 3 * i + 2 < n)
    (r g b : Byte) : Memory.Holds (Memory.pixelWrite m i r g b) n :=
  Memory.Holds.write (Memory.Holds.write (Memory.Holds.write h (by omega) _) (by omega) _) (by omega) _

/-- The pixel memory after pixels `0 .. n - 1` were given one colour. -/
def Memory.pixelWrites (m : Memory) (r g b : Byte) : Nat → Memory
  | 0 => m
  | n + 1 => Memory.pixelWrite (Memory.pixelWrites m r g b n) n r g b

theorem State.writePixels_eq (s : State) (r g b : Byte) (n : Nat) :
    s.writePixels r g b n = s.setMem .pix (Memory.pixelWrites s.pix r g b n) := by
  induction n with
  | zero => rfl
  | succ n ih => simp [State.writePixels, Memory.pixelWrites, ih, State.writePixel_eq]

theorem Memory.read_pixelWrites (m : Memory) (r g b : Byte) (n j : Nat) :
    Memory.read (Memory.pixelWrites m r g b n) j =
      if j / 3 < n then some (channel r g b (j % 3)) else Memory.read m j := by
  induction n with
  | zero => rfl
  | succ n ih =>
    simp only [Memory.pixelWrites, Memory.read_pixelWrite, ih]
    by_cases h1 : j / 3 = n
    · rw [if_pos h1, if_pos (by omega)]
    · rw [if_neg h1]
      by_cases h2 : j / 3 < n
      · rw [if_pos h2, if_pos (by omega)]
      · rw [if_neg h2, if_neg (by omega)]

theorem Memory.wf_pixelWrites {m : Memory} (h : Memory.wf m) (r g b : Byte) (n : Nat) :
    Memory.wf (Memory.pixelWrites m r g b n) := by
  induction n with
  | zero => exact h
  | succ n ih => exact Memory.wf_pixelWrite ih n r g b

theorem Memory.Holds.pixelWrites {m : Memory} {N : Nat} (h : Memory.Holds m N) (r g b : Byte) {n : Nat}
    (hn : 3 * n ≤ N) : Memory.Holds (Memory.pixelWrites m r g b n) N := by
  induction n with
  | zero => exact h
  | succ n ih => exact Memory.Holds.pixelWrite (ih (by omega)) (by omega) r g b

end Sys2Proof.Machine
end

