-- ==== Sys2Proof/Laws/Exec.lean ====
section
/-!
SUPPORT. What each step's meaning can do, said once: one inversion lemma per meaning ("if it answers a next state, then one
of these cases holds"), and the same for `step`.
-/

namespace Sys2Proof.Machine

theorem outcome_next_inj {s t : State} (h : (Host.Outcome.next s : Host.Outcome State Fault Refusal) = .next t) : s = t := by
  injection h

/-- INIT (rule R120): refused, failed, or the Device is constructed. -/
theorem execInit_cases {maxLeds pinMask16 : BitVec 16} {drive : BitVec 1} {s t : State}
    (h : execInit maxLeds pinMask16 drive s = .next t) :
    ((s.initialized = true ∨ s.halted = true) ∧ t = s.refuse) ∨
    (s.initialized = false ∧ s.halted = false ∧
      (initVerdict Config.pixelRamLeds maxLeds pinMask16 = .invalidConfiguration ∨
        initVerdict Config.pixelRamLeds maxLeds pinMask16 = .allocationFailure) ∧
      t = s.respond (initVerdict Config.pixelRamLeds maxLeds pinMask16)) ∨
    (s.initialized = false ∧ s.halted = false ∧ initVerdict Config.pixelRamLeds maxLeds pinMask16 = .ok ∧
      t = (s.construct maxLeds pinMask16 drive).complete) := by
  unfold execInit at h
  split at h
  · next hc => exact .inl ⟨by simpa using hc, (outcome_next_inj h).symm⟩
  · next hc =>
    have hc' : s.initialized = false ∧ s.halted = false := by simpa using hc
    split at h
    · next hv => exact .inr (.inr ⟨hc'.1, hc'.2, hv, (outcome_next_inj h).symm⟩)
    · next hv =>
      have hd : initVerdict Config.pixelRamLeds maxLeds pinMask16 = .invalidConfiguration ∨
          initVerdict Config.pixelRamLeds maxLeds pinMask16 = .allocationFailure ∨
          initVerdict Config.pixelRamLeds maxLeds pinMask16 = .ok := by
        unfold initVerdict; split_ifs <;> simp
      rcases hd with hd | hd | hd
      · exact .inr (.inl ⟨hc'.1, hc'.2, .inl hd, by rw [← outcome_next_inj h, hd]; rfl⟩)
      · exact .inr (.inl ⟨hc'.1, hc'.2, .inr hd, by rw [← outcome_next_inj h, hd]; rfl⟩)
      · exact absurd hd hv

/-- What a verdict of OK says of INIT's operands (rule R120). -/
theorem initVerdict_ok {ram : Nat} {maxLeds pinMask16 : BitVec 16} (h : initVerdict ram maxLeds pinMask16 = .ok) :
    1 ≤ maxLeds.toNat ∧ maxLeds.toNat ≤ 1024 ∧ popcount16 pinMask16 = 1 ∧ maxLeds.toNat ≤ ram := by
  unfold initVerdict Config.maxCapacity at h
  split_ifs at h with h1 h2 h3
  exact ⟨by omega, by omega, by simpa using h2, by omega⟩

/-- SET (rule R136): refused, out of range, or one pixel is written. -/
theorem execSet_cases {index : BitVec 16} {r g b : Byte} {s t : State} (h : execSet index r g b s = .next t) :
    (s.deviceReady = false ∧ t = s.refuse) ∨
    (s.deviceReady = true ∧ s.capacity.toNat ≤ index.toNat ∧ t = s.raise .indexOutOfRange) ∨
    (s.deviceReady = true ∧ index.toNat < s.capacity.toNat ∧ t = (s.writePixel index.toNat r g b).taintFrame.complete) := by
  unfold execSet at h
  split at h
  · next hc => exact .inl ⟨by simpa using hc, (outcome_next_inj h).symm⟩
  · next hc =>
    have hc' : s.deviceReady = true := by simpa using hc
    split at h
    · next hi => exact .inr (.inl ⟨hc', hi, (outcome_next_inj h).symm⟩)
    · next hi => exact .inr (.inr ⟨hc', by omega, (outcome_next_inj h).symm⟩)

/-- SET_ALL (rule R137): refused, or every pixel is written. -/
theorem execSetAll_cases {r g b : Byte} {s t : State} (h : execSetAll r g b s = .next t) :
    (s.deviceReady = false ∧ t = s.refuse) ∨
    (s.deviceReady = true ∧ t = (s.writePixels r g b s.capacity.toNat).taintFrame.complete) := by
  unfold execSetAll at h
  split at h
  · next hc => exact .inl ⟨by simpa using hc, (outcome_next_inj h).symm⟩
  · next hc => exact .inr ⟨by simpa using hc, (outcome_next_inj h).symm⟩

/-- TRIGGER_UPDATE (rules R201, R202): refused, dropped, or a frame is launched from the prefilled buffers. -/
theorem execTriggerUpdate_cases {s t : State} (h : execTriggerUpdate s = .next t) :
    (s.deviceReady = false ∧ t = s.refuse) ∨
    (s.deviceReady = true ∧ s.inProgress = true ∧ t = s.complete) ∨
    (s.deviceReady = true ∧ s.inProgress = false ∧ ∃ u, s.prefill = .ok u ∧ t = u.launch) := by
  unfold execTriggerUpdate at h
  split at h
  · next hc => exact .inl ⟨by simpa using hc, (outcome_next_inj h).symm⟩
  · next hc =>
    have hc' : s.deviceReady = true := by simpa using hc
    split at h
    · next hp => exact .inr (.inl ⟨hc', hp, (outcome_next_inj h).symm⟩)
    · next hp =>
      split at h
      · next u hu => exact .inr (.inr ⟨hc', by simpa using hp, u, hu, (outcome_next_inj h).symm⟩)
      · cases h

/-- TICK_START (rule R177): the idle channel's transfer, or only the phase advances. -/
theorem execTickStart_cases {s t : State} (h : execTickStart s = .next t) :
    s.timEn = true ∧ s.timPhase = .start ∧
    ((s.idleEn = true ∧ ∃ v, s.memRead .isb 0 = .ok v ∧ t = (s.portWrite .pulseStart v).endTick) ∨
     (s.idleEn = false ∧ t = s.endTick)) := by
  unfold execTickStart at h
  split at h
  · cases h
  · next hc =>
    have hc' : s.timEn = true ∧ s.timPhase = .start := by simpa [State.tickStartEnabled] using hc
    refine ⟨hc'.1, hc'.2, ?_⟩
    split at h
    · next hi =>
      split at h
      · next v hv => exact .inl ⟨hi, v, hv, (outcome_next_inj h).symm⟩
      · cases h
    · next hi => exact .inr ⟨by simpa using hi, (outcome_next_inj h).symm⟩

/-- TICK_SLOT (rule R178): one transfer of the encode channel, or only the phase advances. -/
theorem execTickSlot_cases {s t : State} (h : execTickSlot s = .next t) :
    s.timEn = true ∧ s.timPhase ≠ .start ∧
    ((s.encEn = true ∧ ∃ v, s.memRead (.wb s.encCt) s.encPos.toNat = .ok v ∧
        t = ((s.recordCell.portWrite .pulseEnd v).advanceSlot).endTick) ∨
     (s.encEn = false ∧ t = s.endTick)) := by
  unfold execTickSlot at h
  split at h
  · cases h
  · next hc =>
    have hc' : s.timEn = true ∧ s.timPhase ≠ .start := by
      cases ht : s.timEn <;> cases hp : s.timPhase <;> simp_all [State.tickSlotEnabled]
    refine ⟨hc'.1, hc'.2, ?_⟩
    split at h
    · next hi =>
      split at h
      · next v hv => exact .inl ⟨hi, v, hv, (outcome_next_inj h).symm⟩
      · cases h
    · next hi => exact .inr ⟨by simpa using hi, (outcome_next_inj h).symm⟩

/-- REFILL (rule R204): the frame ends, or the half just consumed is filled. -/
theorem execRefill_cases {s t : State} (h : execRefill s = .next t) :
    s.halfDonePending = true ∧
    ((s.drained = true ∧ t = s.toggleActive.finishFrame.returnFromEvent) ∨
     (s.drained = false ∧ ∃ u, s.toggleActive.fill s.activeHalf = .ok u ∧
        t = (u.setPhase (if u.endReached then .draining else .streaming)).returnFromEvent)) := by
  have hdr : s.toggleActive.drained = s.drained := rfl
  unfold execRefill at h
  rw [hdr] at h
  split at h
  · cases h
  · next hc =>
    refine ⟨by simpa [State.refillEnabled] using hc, ?_⟩
    split at h
    · next hd => exact .inl ⟨hd, (outcome_next_inj h).symm⟩
    · next hd =>
      split at h
      · next u hu =>
        unfold State.refillHalf at hu
        simp only [State.toggleActive_activeHalf, Bool.not_not] at hu
        split at hu
        · next w hw =>
          refine .inr ⟨by simpa using hd, w, hw, ?_⟩
          rw [← outcome_next_inj h]; injection hu with hu; rw [hu]
        · cases hu
      · cases h

/-! ### One step -/

/-- What a turn can bring: a step runs on the state whose turn was taken off, a reserved word is refused, or nothing
happens. -/
theorem step_cases {s t : State} (h : step s = .next t) :
    (∃ i, s.fetch = .run i ∧ exec i s.takeTurn = .next t) ∨
    (s.fetch = .reservedWord ∧ t = s.takeTurn.refuse) ∨
    (s.fetch = .noStep ∧ t = s.takeTurn) := by
  unfold step at h
  split at h
  · next i hi => exact .inl ⟨i, hi, h⟩
  · next hi => exact .inr (.inl ⟨hi, (outcome_next_inj h).symm⟩)
  · next hi => exact .inr (.inr ⟨hi, (outcome_next_inj h).symm⟩)

/-- A property that every meaning keeps, and that taking a turn and a refusal keep, is kept by every step. -/
theorem step_keeps {P : State → Prop} (hturn : ∀ s, P s → P s.takeTurn) (hrefuse : ∀ s, P s → P s.refuse)
    (hexec : ∀ i s t, P s → exec i s = .next t → P t) {s t : State} (hs : P s) (h : step s = .next t) : P t := by
  rcases step_cases h with ⟨i, _, he⟩ | ⟨_, rfl⟩ | ⟨_, rfl⟩
  · exact hexec i _ _ (hturn _ hs) he
  · exact hrefuse _ (hturn _ hs)
  · exact hturn _ hs

end Sys2Proof.Machine
end

