-- ==== Sys2Proof/Laws/Device.lean ====
section
/-!
SUPPORT. What each operation does to the canonical form of the memories and to a consistent Device (rules R31 to R35,
R53), said once per operation.
-/

namespace Sys2Proof.Machine

/-- Every memory in canonical form, said by address space. -/
theorem State.canonical_iff (s : State) : s.canonical ↔ ∀ sp, Memory.wf (s.mem sp) := by
  constructor
  · rintro ⟨h1, h2, h3, h4⟩ sp
    cases sp with | wb h => cases h <;> assumption | _ => assumption
  · intro h; exact ⟨h .pix, h .isb, h (.wb false), h (.wb true)⟩

/-- Putting a canonical memory into a space keeps every memory canonical. -/
theorem State.setMem_wf {s : State} {sp : Space} {m : Memory} (hs : ∀ sp, Memory.wf (s.mem sp)) (hm : Memory.wf m) :
    ∀ sq, Memory.wf ((s.setMem sp m).mem sq) := by
  intro sq
  by_cases h : sp = sq
  · subst h; simpa using hm
  · rw [State.mem_setMem_other _ _ h]; exact hs sq

/-- The same for the state a fill leaves. -/
theorem State.afterFill_wf {s : State} {h : Half} {m c e d} (hs : ∀ sp, Memory.wf (s.mem sp)) (hm : Memory.wf m) :
    ∀ sq, Memory.wf ((s.afterFill h m c e d).mem sq) := by
  intro sq
  by_cases hh : Space.wb h = sq
  · subst hh; simpa using hm
  · rw [State.afterFill_mem_other _ _ _ _ _ _ hh]; exact hs sq

/-- A fill keeps every memory canonical, whatever state it starts from. -/
theorem State.fill_wf {s t : State} {h : Half} (hr : s.fill h = .ok t) (hs : ∀ sp, Memory.wf (s.mem sp)) :
    ∀ sp, Memory.wf (t.mem sp) := by
  obtain ⟨m, c, e, d, rfl, hm⟩ := State.fill_shape hr
  exact State.afterFill_wf hs (hm.1 (hs _))

/-- What the prefill can change: the two buffers, and the encoder's position and counter. -/
theorem State.prefill_shape {s u : State} (hu : s.prefill = .ok u) :
    ∃ m₀ m₁ c e d, u = { s with wb0 := m₀, wb1 := m₁, cursor := c, endReached := e, drainCount := d } ∧
      Memory.OnlyEven s.wb0 m₀ ∧ Memory.OnlyEven s.wb1 m₁ := by
  unfold State.prefill at hu
  split at hu
  · next v hv =>
    obtain ⟨m₀, c, e, d, rfl, h₀⟩ := State.fill_shape hv
    obtain ⟨m₁, c', e', d', rfl, h₁⟩ := State.fill_shape hu
    exact ⟨m₀, m₁, c', e', d', rfl, h₀, h₁⟩
  · cases hu

/-- The idle channel reads the mask (rules R63, R177). -/
theorem State.DeviceOk.isb_read {s : State} (hd : s.DeviceOk) : s.memRead .isb 0 = .ok s.mask := by
  rw [State.memRead_ok_iff]; simp [State.spaceSize, hd.isb_eq, Memory.read]

/-- Both waveform buffers list exactly slots 0 to 287. -/
theorem State.DeviceOk.wb_holds {s : State} (hd : s.DeviceOk) (h : Half) : Memory.Holds (s.mem (.wb h)) 288 := by
  cases h; exact hd.wb0_holds; exact hd.wb1_holds
/-- The slots of both waveform buffers are legal (rule R93). -/
theorem State.DeviceOk.wb_slots {s : State} (hd : s.DeviceOk) (h : Half) : slotsLegal s.mask (s.mem (.wb h)) := by
  cases h; exact hd.wb0_slots; exact hd.wb1_slots

/-- Every slot of a waveform buffer can be read; an odd one holds the mask, and any holds 0 or the mask. -/
theorem State.DeviceOk.wb_read {s : State} (hd : s.DeviceOk) (h : Half) {a : Nat} (ha : a < 288) :
    ∃ v, Memory.read (s.mem (.wb h)) a = some v ∧ s.memRead (.wb h) a = .ok v ∧
      (a % 2 = 1 → v = s.mask) ∧ (v = 0 ∨ v = s.mask) := by
  obtain ⟨v, hv⟩ := (State.DeviceOk.wb_holds hd h).read ha
  have hk := State.DeviceOk.wb_slots hd h (a / 2) (by omega)
  refine ⟨v, hv, (State.memRead_ok_iff ..).2 ⟨by simpa [State.spaceSize, Config.slotsPerHalf, Config.ledsPerHalf, Config.bitsPerLed, Config.slotsPerBit] using ha, hv⟩, ?_, ?_⟩
  · intro h1
    have h2 : oddSlot (a / 2) = a := by unfold oddSlot; omega
    have := hk.1; rw [h2, hv] at this; exact Option.some.inj this
  · rcases Nat.mod_two_eq_zero_or_one a with h1 | h1
    · have h2 : evenSlot (a / 2) = a := by unfold evenSlot; omega
      have := hk.2; rw [h2, hv] at this
      rcases this with h | h
      · exact .inl (Option.some.inj h)
      · exact .inr (Option.some.inj h)
    · have h2 : oddSlot (a / 2) = a := by unfold oddSlot; omega
      have := hk.1; rw [h2, hv] at this; exact .inr (Option.some.inj this)

/-- Slots stay legal when legal values are written into the even ones. -/
theorem slotsLegal_evenWrites {mask : Byte} {m : Memory} (hl : slotsLegal mask m) {f : Nat → Byte}
    (hf : ∀ i, f i = 0 ∨ f i = mask) : slotsLegal mask (Memory.evenWrites m 0 f 144) := by
  intro k hk
  refine ⟨?_, ?_⟩
  · rw [Memory.read_evenWrites_odd _ _ _ _ _ (by unfold oddSlot; omega)]; exact (hl k hk).1
  · rw [Memory.read_evenWrites, if_pos (by omega)]
    rcases hf (k - 0) with h | h <;> rw [h] <;> simp

/-- A fill writes 0 or the mask. -/
theorem State.fillSlot_legal (s : State) (i : Nat) : s.fillSlot i = 0 ∨ s.fillSlot i = s.mask := by
  unfold State.fillSlot State.cellSlot slotFor; split_ifs <;> simp

/-- What of a consistent Device concerns its parameters and its memories. -/
structure Layout (s : State) : Prop where
  capacity_pos : 1 ≤ s.capacity.toNat
  capacity_le : s.capacity.toNat ≤ 1024
  mask_oneHot : oneHot s.mask
  pix_holds : Memory.Holds s.pix (3 * s.capacity.toNat)
  isb_eq : s.isb = [(0, s.mask)]
  wb_holds : ∀ h, Memory.Holds (s.mem (.wb h)) 288
  wb_slots : ∀ h, slotsLegal s.mask (s.mem (.wb h))

/-- A consistent Device has that layout. -/
theorem State.DeviceOk.layout {s : State} (h : s.DeviceOk) : Layout s :=
  ⟨h.1, h.2, h.3, h.4, h.5, State.DeviceOk.wb_holds h, State.DeviceOk.wb_slots h⟩

/-- A fill keeps the layout. -/
theorem Layout.filled {s : State} (hl : Layout s) (h : Half) : Layout (s.filled h) := by
  refine ⟨by simpa using hl.1, by simpa using hl.2, by simpa using hl.3, by simpa using hl.4, by simpa using hl.5, ?_, ?_⟩
  · intro g
    by_cases hg : h = g
    · subst hg; rw [State.filled_mem_self]; exact (hl.6 h).evenWrites 0 _ 144 (by omega)
    · rw [State.filled_mem_other _ hg]; exact hl.6 g
  · intro g
    rw [State.filled_mask]
    by_cases hg : h = g
    · subst hg; rw [State.filled_mem_self]; exact slotsLegal_evenWrites (hl.7 h) (State.fillSlot_legal s)
    · rw [State.filled_mem_other _ hg]; exact hl.7 g

/-- On that layout a fill completes, with the closed form `filled`. -/
theorem Layout.fill {s : State} (hl : Layout s) (hcur : s.cursor.toNat ≤ 3 * s.capacity.toNat) (h : Half) :
    s.fill h = .ok (s.filled h) :=
  State.fill_ok s h (State.pixReadable_of_holds hl.4) hl.2 hcur

/-- The layout depends on the parameters and the memories alone. -/
theorem Layout.of_eq {s t : State} (hl : Layout s) (h1 : t.capacity = s.capacity) (h2 : t.mask = s.mask)
    (h3 : t.pix = s.pix) (h4 : t.isb = s.isb) (h5 : ∀ h, t.mem (.wb h) = s.mem (.wb h)) : Layout t :=
  ⟨by rw [h1]; exact hl.1, by rw [h1]; exact hl.2, by rw [h2]; exact hl.3, by rw [h1, h3]; exact hl.4,
   by rw [h4, h2]; exact hl.5, fun h => by rw [h5]; exact hl.6 h, fun h => by rw [h5, h2]; exact hl.7 h⟩

/-- What of a consistent Device concerns the encoder's position (rule R53 (f)). -/
structure CursorOk (s : State) : Prop where
  cursor_le : s.cursor.toNat ≤ 3 * s.capacity.toNat
  end_cursor : s.endReached = true → s.cursor.toNat = 3 * s.capacity.toNat

/-- A fill keeps the encoder's position consistent. -/
theorem CursorOk.filled {s : State} (hc : CursorOk s) (hcap : s.capacity.toNat ≤ 1024) (h : Half) : CursorOk (s.filled h) := by
  have e := State.streamEnd_eq s
  have h1 := State.filled_cursor s h hcap
  have h2 := State.filled_endReached s h hcap
  refine ⟨?_, ?_⟩
  · rw [h1, State.filled_capacity]; split
    · exact hc.1
    · omega
  · intro he
    rw [h1, State.filled_capacity]
    cases hs : s.endReached with
    | true => simpa using hc.2 hs
    | false =>
      rw [he, hs] at h2
      have : s.streamEnd ≤ s.cursor.toNat + 18 := by simpa using h2.symm
      simp; omega

/-- A consistent Device from its layout, the encoder's position and the rest. -/
theorem State.DeviceOk.mk' {s : State} (hl : Layout s) (hc : CursorOk s)
  (encPos_lt : s.encPos.toNat < 288)
  (engines : s.timEn = s.inProgress ∧ s.idleEn = s.inProgress ∧ s.encEn = s.inProgress)
  (mirror : s.timEn = true → s.refillMissed = false → s.activeHalf = (s.encCt ^^ s.halfDonePending))
  (parity : s.encPos.toNat % 2 = (if s.timPhase = .odd then 1 else 0))
  (idle_iff : s.phase = .idle ↔ s.inProgress = false)
  (draining_end : s.phase = .draining → s.endReached = true)
  (end_draining : s.inProgress = true → s.endReached = true → s.phase = .draining)
  (drain_le : s.drainCount.toNat ≤ 2)
  (pending_running : s.halfDonePending = true → s.timEn = true)
  (rests_low : s.timEn = false → s.pinLevel = .low)
  (start_low : s.timPhase = .start → s.pinLevel = .low)
  (even_high : s.timEn = true → s.timPhase = .even → s.pinLevel = .high) : s.DeviceOk :=
  ⟨hl.1, hl.2, hl.3, hl.4, hl.5, hl.6 false, hl.6 true, hl.7 false, hl.7 true, encPos_lt, engines, mirror, parity, idle_iff,
   draining_end, end_draining, hc.1, hc.2, drain_le, pending_running, rests_low, start_low, even_high⟩

/-- The derived mask is one-hot (rules R28, R97). -/
theorem transitionMask_oneHot (p : BitVec 16) : oneHot (transitionMask p) :=
  ⟨pinNumber p % 8, by omega, rfl⟩

/-- The idle pattern's slots are legal. -/
theorem idlePattern_slots (mask : Byte) : slotsLegal mask (idlePattern mask) := by
  intro k hk
  have h : Config.slotsPerHalf = 288 := rfl
  unfold idlePattern
  rw [h]
  refine ⟨?_, ?_⟩
  · rw [Memory.read_ofFn _ (by unfold oddSlot; omega), if_neg (by unfold oddSlot; omega)]
  · rw [Memory.read_ofFn _ (by unfold evenSlot; omega), if_pos (by unfold evenSlot; omega)]; simp

/-- INIT makes a consistent Device (rule R123). -/
theorem State.construct_ok {s : State} {a b : BitVec 16} {c : BitVec 1} (h1 : 1 ≤ a.toNat) (h2 : a.toNat ≤ 1024) :
    (s.construct a b c).complete.DeviceOk := by
  have ha : (a.setWidth 11).toNat = a.toNat := by rw [BitVec.toNat_setWidth]; apply Nat.mod_eq_of_lt; omega
  apply State.DeviceOk.mk'
  · refine ⟨?_, ?_, transitionMask_oneHot b, ?_, rfl, ?_, ?_⟩
    · show 1 ≤ (a.setWidth 11).toNat; omega
    · show (a.setWidth 11).toNat ≤ 1024; omega
    · show Memory.Holds (Memory.ofFn (3 * a.toNat) _) (3 * (a.setWidth 11).toNat)
      rw [ha]; exact Memory.holds_ofFn _ _
    · intro h; cases h <;> exact Memory.holds_ofFn 288 _
    · intro h; cases h <;> exact idlePattern_slots _
  · exact ⟨Nat.zero_le _, fun h => by cases h⟩
  all_goals simp [State.construct]

/-- Launching a frame keeps the Device consistent. -/
theorem State.launch_ok {u : State} (l2 : Layout u) (c2 : CursorOk u) (hlow : u.pinLevel = .low) (hdr : u.drainCount.toNat ≤ 2) :
    u.launch.DeviceOk := by
  apply State.DeviceOk.mk'
  · exact l2.of_eq rfl rfl rfl rfl (fun h => State.launch_mem _ _)
  · exact ⟨c2.1, c2.2⟩
  · exact Nat.zero_lt_succ _
  · exact ⟨rfl, rfl, rfl⟩
  · intro _ _; rfl
  · rfl
  · show (if u.endReached then Phase.draining else Phase.fillingFirstHalf) = .idle ↔ true = false
    split <;> simp
  · show (if u.endReached then Phase.draining else Phase.fillingFirstHalf) = .draining → u.endReached = true
    split <;> simp_all
  · intro _; show u.endReached = true → (if u.endReached then Phase.draining else Phase.fillingFirstHalf) = .draining
    intro h; simp [h]
  · exact hdr
  · intro h; cases h
  · intro h; cases h
  · intro _; exact hlow
  · intro _ h; cases h

/-- On a consistent Device at rest the prefill is two fills in closed form, and the frame it launches is consistent. -/
theorem State.trigger_ok {s u : State} (hd : s.DeviceOk) (hip : s.inProgress = false) (hu : s.prefill = .ok u) :
    u = (s.rewind.filled false).filled true ∧ u.launch.DeviceOk := by
  have l0 : Layout s.rewind := hd.layout.of_eq rfl rfl rfl rfl (fun h => by simp)
  have c0 : CursorOk s.rewind := ⟨Nat.zero_le _, fun h => by cases h⟩
  have l1 := l0.filled false
  have c1 := c0.filled l0.2 false
  have l2 := l1.filled true
  have c2 := c1.filled l1.2 true
  have hu' : u = (s.rewind.filled false).filled true := by
    unfold State.prefill at hu
    rw [l0.fill c0.1] at hu
    simp only [l1.fill c1.1] at hu
    injection hu with hu; exact hu.symm
  refine ⟨hu', ?_⟩
  have hlow : u.pinLevel = .low := by
    rw [hu']; simp only [State.filled_pinLevel, State.rewind_pinLevel]
    exact hd.rests_low (by rw [hd.engines.1, hip])
  have hdr : u.drainCount.toNat ≤ 2 := by
    rw [hu', State.filled_drainCount, State.filled_drainCount]
    simp only [State.rewind_endReached, State.rewind_drainCount, Bool.false_eq_true, if_false]
    split <;> decide
  rw [← hu'] at l2 c2
  exact State.launch_ok l2 c2 hlow hdr

/-- TICK_START on a consistent Device: it raises the pin, and the Device stays consistent. -/
theorem State.tickStart_ok {s : State} (hd : s.DeviceOk) (ht : s.timEn = true) (hp : s.timPhase = .start) :
    execTickStart s = .next (s.portWrite .pulseStart s.mask).endTick ∧ (s.portWrite .pulseStart s.mask).endTick.DeviceOk := by
  have hi : s.idleEn = true := by rw [hd.engines.2.1, ← hd.engines.1, ht]
  refine ⟨by simp [execTickStart, State.tickStartEnabled, ht, hp, hi, State.DeviceOk.isb_read hd], ?_⟩
  have hm := hd.mask_oneHot.ne_zero
  have hh : (s.portWrite .pulseStart s.mask).pinLevel = .high := by
    rw [State.portWrite_pinLevel, if_pos (by rwa [BitVec.and_self])]
  have hpar := hd.parity
  apply State.DeviceOk.mk'
  · exact hd.layout.of_eq (by simp) (by simp) (by simp) (by simp) (fun h => by simp)
  · exact ⟨by simpa using hd.cursor_le, by simpa using hd.end_cursor⟩
  · simpa using hd.encPos_lt
  · simpa using hd.engines
  · simpa using hd.mirror
  · simp only [State.endTick_encPos, State.portWrite_encPos, State.endTick_timPhase, State.portWrite_timPhase, hp, TimPhase.next]
    rw [hpar, hp]; rfl
  · simpa using hd.idle_iff
  · simpa using hd.draining_end
  · simpa using hd.end_draining
  · simpa using hd.drain_le
  · simpa using hd.pending_running
  · simp [ht]
  · simp [hp, TimPhase.next]
  · simp only [State.endTick_pinLevel, hh]; simp

/-- TICK_SLOT on a consistent Device: the slot it reads, and the state it leaves. -/
theorem State.tickSlot_state {s : State} (hd : s.DeviceOk) (ht : s.timEn = true) (hp : s.timPhase ≠ .start) :
    ∃ v, Memory.read (s.mem (.wb s.encCt)) s.encPos.toNat = some v ∧
      (s.timPhase = .odd → v = s.mask) ∧ (v = 0 ∨ v = s.mask) ∧
      execTickSlot s = .next ((s.recordCell.portWrite .pulseEnd v).advanceSlot).endTick := by
  have he : s.encEn = true := by rw [hd.engines.2.2, ← hd.engines.1, ht]
  obtain ⟨v, h1, h2, h3, h4⟩ := State.DeviceOk.wb_read hd s.encCt hd.encPos_lt
  refine ⟨v, h1, ?_, h4, ?_⟩
  · intro ho; apply h3; rw [hd.parity, ho]; rfl
  · unfold execTickSlot
    rw [if_neg (by cases hq : s.timPhase <;> simp_all [State.tickSlotEnabled]), if_pos he]
    simp only [h2]

/-- TICK_SLOT keeps the Device consistent. -/
theorem State.tickSlot_ok {s : State} (hd : s.DeviceOk) (ht : s.timEn = true) (hp : s.timPhase ≠ .start) {t : State}
    (h : execTickSlot s = .next t) : t.DeviceOk := by
  obtain ⟨v, hv, hodd, hleg, hex⟩ := State.tickSlot_state hd ht hp
  rw [hex] at h
  have htt := outcome_next_inj h
  subst htt
  clear h hex
  set w := s.recordCell.portWrite .pulseEnd v with hw
  have hpos : w.encPos = s.encPos := by rw [hw]; simp
  have hpend : w.halfDonePending = s.halfDonePending := by rw [hw]; simp
  have hpin : s.timPhase = .odd → w.pinLevel = .low := by
    intro ho
    rw [hw, State.portWrite_pinLevel, if_pos]
    rw [State.recordCell_mask, hodd ho, BitVec.and_self]; exact hd.mask_oneHot.ne_zero
  have hwl : Layout w := hd.layout.of_eq (by simp [w]) (by simp [w]) (by simp [w]) (by simp [w]) (fun h => by simp [w])
  have hpar := hd.parity
  have htimw : w.timPhase = s.timPhase := by simp [w]
  have hip : s.inProgress = true := by rw [← hd.engines.1, ht]
  rcases w.advanceSlot_cases (by rw [hpos]; exact hd.encPos_lt) with ⟨h1, h2⟩ | ⟨h1, h2, h3⟩
  · rw [hpos] at h1
    have ho : s.timPhase = .odd := by
      by_contra hc; rw [if_neg hc, h1] at hpar; omega
    apply State.DeviceOk.mk'
    · exact hwl.of_eq (by simp [h2]) (by simp [h2]) (by simp [h2]) (by simp [h2]) (fun h => by rw [State.endTick_mem, State.advanceSlot_mem])
    · exact ⟨by simpa [h2, w] using hd.cursor_le, by simpa [h2, w] using hd.end_cursor⟩
    · simp [h2]
    · simpa [h2, w] using hd.engines
    · have := hd.mirror ht
      simp only [State.endTick_refillMissed, h2, State.endTick_activeHalf, State.endTick_encCt, State.endTick_halfDonePending, w]
      simp only [State.portWrite_refillMissed, State.recordCell_refillMissed, State.portWrite_halfDonePending, State.recordCell_halfDonePending, State.portWrite_activeHalf, State.recordCell_activeHalf, State.portWrite_encCt, State.recordCell_encCt]
      intro _ hm
      have hm' : s.refillMissed = false ∧ s.halfDonePending = false := by simpa using hm
      rw [this hm'.1, hm'.2]; simp
    · simp [h2, htimw, ho, TimPhase.next]
    · simpa [h2, w] using hd.idle_iff
    · simpa [h2, w] using hd.draining_end
    · simpa [h2, w] using hd.end_draining
    · simpa [h2, w] using hd.drain_le
    · intro _; simp [h2, w, ht]
    · simp [h2, w, ht]
    · intro _; simp only [State.endTick_pinLevel, h2]; exact hpin ho
    · simp [h2, htimw, ho, TimPhase.next]
  · rw [hpos] at h1 h3
    rw [hpos] at h2
    apply State.DeviceOk.mk'
    · exact hwl.of_eq (by simp [h2]) (by simp [h2]) (by simp [h2]) (by simp [h2]) (fun h => by rw [State.endTick_mem, State.advanceSlot_mem])
    · exact ⟨by simpa [h2, w] using hd.cursor_le, by simpa [h2, w] using hd.end_cursor⟩
    · simp only [State.endTick_encPos, h2]; rw [h3]; omega
    · simpa [h2, w] using hd.engines
    · simpa [h2, w] using hd.mirror
    · simp only [State.endTick_encPos, h2, State.endTick_timPhase]
      rw [h3, htimw]
      cases hq : s.timPhase
      · exact absurd hq hp
      · rw [hq] at hpar; simp at hpar; simp [TimPhase.next]; omega
      · rw [hq] at hpar; simp at hpar; simp [TimPhase.next]; omega
    · simpa [h2, w] using hd.idle_iff
    · simpa [h2, w] using hd.draining_end
    · simpa [h2, w] using hd.end_draining
    · simpa [h2, w] using hd.drain_le
    · simpa [h2, w] using hd.pending_running
    · simp [h2, w, ht]
    · simp only [State.endTick_timPhase, State.endTick_pinLevel, h2, htimw]
      cases hq : s.timPhase
      · exact absurd hq hp
      · simp [TimPhase.next]
      · intro _; exact hpin hq
    · simp only [State.endTick_timPhase, h2, htimw]
      cases hq : s.timPhase
      · exact absurd hq hp
      · simp [TimPhase.next]
      · simp [TimPhase.next]

/-- When REFILL ends the frame (rule R209). -/
theorem State.drained_iff (s : State) : s.drained = true ↔ s.phase = .draining ∧ 2 ≤ s.drainCount.toNat := by
  simp [State.drained, Config.drainHalves]

/-- REFILL keeps the Device consistent. -/
theorem State.refill_ok {s t : State} (hd : s.DeviceOk) (h : execRefill s = .next t) : t.DeviceOk := by
  obtain ⟨hpend, ⟨hdr, rfl⟩ | ⟨hdr, u, hu, rfl⟩⟩ := execRefill_cases h
  · have hs : s.toggleActive.stop = { s.toggleActive with timEn := false, idleEn := false, encEn := false, pinLevel := .low } :=
      State.stop_eq hd.mask_oneHot.ne_zero
    have hq := (State.drained_iff s).1 hdr
    apply State.DeviceOk.mk'
    · exact hd.layout.of_eq (by simp [State.finishFrame, hs]) (by simp [State.finishFrame, hs]) (by simp [State.finishFrame, hs]) (by simp [State.finishFrame, hs]) (fun h => by simp [State.finishFrame_mem])
    · exact ⟨by simpa [State.finishFrame, hs] using hd.cursor_le, by simpa [State.finishFrame, hs] using hd.end_cursor⟩
    · simpa [State.finishFrame, hs] using hd.encPos_lt
    · simp [State.finishFrame, hs]
    · simp [State.finishFrame, hs]
    · simpa [State.finishFrame, hs] using hd.parity
    · simp [State.finishFrame, hs]
    · simp [State.finishFrame, hs]
    · simp [State.finishFrame, hs]
    · simpa [State.finishFrame, hs] using hd.drain_le
    · simp
    · simp [State.finishFrame, hs]
    · simp [State.finishFrame, hs]
    · simp [State.finishFrame, hs]
  · have l0 : Layout s.toggleActive := hd.layout.of_eq rfl rfl rfl rfl (fun h => by simp)
    have c0 : CursorOk s.toggleActive := ⟨hd.cursor_le, hd.end_cursor⟩
    rw [l0.fill c0.1] at hu
    injection hu with hu; subst hu
    have l1 := l0.filled s.activeHalf
    have c1 := c0.filled l0.2 s.activeHalf
    have ht := hd.pending_running hpend
    have hip : s.inProgress = true := by rw [← hd.engines.1, ht]
    apply State.DeviceOk.mk'
    · exact l1.of_eq rfl rfl rfl rfl (fun h => by simp)
    · exact ⟨c1.1, c1.2⟩
    · simpa using hd.encPos_lt
    · simpa using hd.engines
    · intro _ hm
      have hm' : s.refillMissed = false := by simpa using hm
      have := hd.mirror ht hm'
      simp [this, hpend]
    · simpa using hd.parity
    · simp only [State.returnFromEvent_phase, State.setPhase_phase]
      simp [hip]; split <;> simp
    · simp only [State.returnFromEvent_phase, State.setPhase_phase, State.returnFromEvent_endReached, State.setPhase_endReached]
      split <;> simp_all
    · simp only [State.returnFromEvent_phase, State.setPhase_phase, State.returnFromEvent_endReached, State.setPhase_endReached]
      intro _ h; simp [h]
    · rw [State.returnFromEvent_drainCount, State.setPhase_drainCount, State.filled_drainCount]
      have := hd.drain_le
      by_cases he : s.endReached = true
      · rw [if_pos (by exact he), State.toggleActive_drainCount]
        have hph := hd.end_draining hip he
        have : ¬ 2 ≤ s.drainCount.toNat := by
          intro hc; rw [(State.drained_iff s).2 ⟨hph, hc⟩] at hdr; cases hdr
        rw [BitVec.toNat_add]; show (s.drainCount.toNat + 1) % 4 ≤ 2; omega
      · rw [if_neg (by exact he)]; exact this
    · simp
    · simp [ht]
    · simpa using hd.start_low
    · simpa using hd.even_high

/-- A response changes nothing a consistent Device depends on. -/
theorem State.respond_ok {s : State} (hd : s.DeviceOk) (st : Status) : (s.respond st).DeviceOk := by
  obtain ⟨⟩ := hd; constructor <;> assumption
/-- So does an error. -/
theorem State.raise_ok {s : State} (hd : s.DeviceOk) (st : Status) : (s.raise st).DeviceOk := by
  cases st <;> (obtain ⟨⟩ := hd; constructor <;> assumption)

/-- A pixel write keeps the Device consistent. -/
theorem State.setPix_ok {s : State} (hd : s.DeviceOk) {m : Memory} (hm : Memory.Holds m (3 * s.capacity.toNat)) :
    (s.setMem .pix m).taintFrame.complete.DeviceOk := by
  obtain ⟨⟩ := hd; constructor <;> assumption

end Sys2Proof.Machine
end

