-- ==== Sys2Proof/Laws/Frame.lean ====
section
/-!
SUPPORT. How each step moves a frame in flight along: where the encoder and the hardware stand, what the two buffers
hold and what the pin has sent (rules R95, R183, R210).
-/

namespace Sys2Proof.Machine

/-- What the premise of a claim about a frame says of the three flags (rules R46, R212, R234). -/
theorem State.frameSound_iff (s : State) :
    s.frameSound = true ↔ s.frameValid = true ∧ s.refillMissed = false ∧ s.halted = false := by
  simp [State.frameSound, State.faulted]

/-- What the end of a run says of the fields (rule R285). -/
theorem State.final_iff (s : State) :
    s.final = true ↔ s.inProgress = false ∧ s.phase = .idle ∧ s.timEn = false ∧ s.halfDonePending = false ∧
      s.refillMissed = false ∧ s.halted = false := by
  simp [State.final, State.faulted, and_assoc]

/-- The slot a fill writes is the slot of the frame's cell bit (rules R95, R207). -/
theorem State.cellSlot_eq (s : State) (c0 i : Nat) : s.cellSlot c0 i = slotFor s.mask (s.cellBit (8 * c0 + i)) := by
  unfold State.cellSlot State.cellBit; split <;> simp [slotFor]

/-- The encoder stands before the frame's fill number `F` (rule R210). -/
structure AtFill (s : State) (F : Nat) : Prop where
  cursor : s.cursor.toNat = min (18 * F) (3 * s.capacity.toNat)
  endR : s.endReached = decide (3 * s.capacity.toNat ≤ 18 * F)

/-- The stream depends on the pixels alone. -/
theorem State.streamBit_congr {s t : State} (h : t.pix = s.pix) : t.streamBit = s.streamBit := by
  funext n; unfold State.streamBit; rw [h]
/-- A frame's cells depend on the pixels and the capacity alone. -/
theorem State.cellBit_congr {s t : State} (h : t.pix = s.pix) (h2 : t.capacity = s.capacity) : t.cellBit = s.cellBit := by
  funext n; unfold State.cellBit; rw [h2, State.streamBit_congr h]

/-- Fill number `F` writes cells `144 * F` on of the frame. -/
theorem AtFill.slot {s : State} {F : Nat} (ha : AtFill s F) (k : Nat) :
    s.fillSlot k = slotFor s.mask (s.cellBit (144 * F + k)) := by
  unfold State.fillSlot
  by_cases he : 3 * s.capacity.toNat ≤ 18 * F
  · rw [ha.endR, if_pos (by simpa using he)]
    unfold State.cellBit; rw [if_neg (by omega)]; rfl
  · rw [ha.endR, if_neg (by simpa using he), State.cellSlot_eq, ha.cursor]
    congr 2; omega

/-- After fill `F` the encoder stands before fill `F + 1`. -/
theorem AtFill.next {s : State} {F : Nat} (ha : AtFill s F) (hcap : s.capacity.toNat ≤ 1024) (h : Half) :
    AtFill (s.filled h) (F + 1) := by
  have e := State.streamEnd_eq s
  constructor
  · rw [State.filled_cursor s h hcap, State.filled_capacity, ha.endR, ha.cursor]
    by_cases he : 3 * s.capacity.toNat ≤ 18 * F
    · rw [if_pos (by simpa using he)]; omega
    · rw [if_neg (by simpa using he), e]; omega
  · rw [State.filled_endReached s h hcap, State.filled_capacity, ha.endR, ha.cursor, e, Bool.eq_iff_iff]
    simp only [Bool.or_eq_true, decide_eq_true_eq]
    omega

/-- Where a frame stands does not depend on the response, the phase or the model's own fields. -/
theorem State.frameOk_congr {s t : State} (hf : s.FrameOk) (h1 : t.txCells = s.txCells) (h2 : t.encPos = s.encPos)
    (h3 : t.encCt = s.encCt) (h4 : t.halfDonePending = s.halfDonePending) (h5 : t.cursor = s.cursor)
    (h6 : t.capacity = s.capacity) (h7 : t.endReached = s.endReached) (h8 : t.drainCount = s.drainCount)
    (h9 : t.mask = s.mask) (h10 : t.pix = s.pix) (h11 : ∀ h, t.mem (.wb h) = s.mem (.wb h))
    (h12 : t.timPhase = s.timPhase) (h13 : t.pinLevel = s.pinLevel) (h14 : t.wave = s.wave) : t.FrameOk := by
  have hc := State.cellBit_congr h10 h6
  have hh : t.halvesSent = s.halvesSent := by unfold State.halvesSent; rw [h1]
  have hm : t.fillsMade = s.fillsMade := by unfold State.fillsMade; rw [hh, h4]
  have hd : t.dataHalves = s.dataHalves := by unfold State.dataHalves; rw [h6]
  constructor
  · rw [h1, hc]; exact hf.sent
  · rw [h1, hc, h12, h14]; exact hf.waveform
  · rw [h1, h2]; exact hf.position
  · rw [h3, hh]; exact hf.target
  · rw [h4, hh]; exact hf.pending_sent
  · rw [h5, hm, h6]; exact hf.encoded
  · rw [h7, hm, h6]; exact hf.boundary
  · rw [h8, hm, hd]; exact hf.drain
  · rw [hm, hd]; exact hf.fills_le
  · rw [hm, h9, hc]; intro q hq hq2 k hk; rw [h11]; exact hf.buffers q hq hq2 k hk
  · rw [hc, h1, h12, h13]; exact hf.early_edge

/-- A launched frame stands at its start. -/
theorem State.launch_frame {s : State} (hd : s.DeviceOk) :
    ((s.rewind.filled false).filled true).launch.FrameOk := by
  have hcap := hd.capacity_le
  have hpos := hd.capacity_pos
  have a0 : AtFill s.rewind 0 := ⟨by simp, by simp; omega⟩
  have a1 := a0.next hcap false
  have a2 := a1.next (by simpa using hcap) true
  have hdr : ((s.rewind.filled false).filled true).drainCount.toNat = 2 - (s.capacity.toNat + 5) / 6 := by
    rw [State.filled_drainCount, State.filled_drainCount, a1.endR]
    simp only [State.filled_capacity, State.rewind_capacity]
    by_cases he : 3 * s.capacity.toNat ≤ 18 * 1
    · rw [if_pos (by simpa using he), if_neg (by simp)]; simp; omega
    · rw [if_neg (by simpa using he), if_neg (by simp)]; simp; omega
  have b0 : ∀ k, k < 144 → Memory.read (((s.rewind.filled false).filled true).mem (.wb false)) (evenSlot k) =
      some (slotFor s.mask (s.cellBit k)) := by
    intro k hk
    rw [State.filled_mem_other _ (by decide), State.filled_mem_self, Memory.read_evenWrites, if_pos (by omega), a0.slot]
    rw [State.cellBit_congr (s := s) (t := s.rewind) rfl rfl]; simp
  have b1 : ∀ k, k < 144 → Memory.read (((s.rewind.filled false).filled true).mem (.wb true)) (evenSlot k) =
      some (slotFor s.mask (s.cellBit (144 + k))) := by
    intro k hk
    rw [State.filled_mem_self, Memory.read_evenWrites, if_pos (by omega), a1.slot]
    rw [State.cellBit_congr (s := s) (t := s.rewind.filled false) (by simp) (by simp)]; simp
  have hpix : ((s.rewind.filled false).filled true).pix = s.pix := by simp
  have hcp : ((s.rewind.filled false).filled true).capacity = s.capacity := by simp
  have hmk : ((s.rewind.filled false).filled true).mask = s.mask := by simp
  generalize (s.rewind.filled false).filled true = u at *
  have hc : u.launch.cellBit = s.cellBit := State.cellBit_congr hpix hcp
  have hT : u.launch.txCells = [] := rfl
  have hP : u.launch.encPos = 0 := rfl
  have hC : u.launch.capacity = u.capacity := rfl
  have hH : u.launch.halvesSent = 0 := by unfold State.halvesSent; rw [hT]; rfl
  have hF : u.launch.fillsMade = 2 := by
    have h2 : u.launch.halfDonePending = false := rfl
    unfold State.fillsMade; rw [hH, h2]; rfl
  constructor
  · rw [hT]; rfl
  · rw [hT]; rfl
  · rw [hT, hP]; rfl
  · rw [hH]; rfl
  · intro h; cases h
  · rw [hF]; exact a2.cursor
  · rw [hF]; exact a2.endR
  · rw [hF]; unfold State.dataHalves; rw [hC, hcp]; exact hdr
  · rw [hF]; show 2 ≤ (u.capacity.toNat + 5) / 6 + 2; omega
  · rw [hF, hc]
    intro q hq _ k hk
    have hm : u.launch.mask = s.mask := hmk
    rw [State.launch_mem, hm]
    have : q = 0 ∨ q = 1 := by omega
    rcases this with rfl | rfl
    · simpa using b0 k hk
    · simpa using b1 k hk
  · intro h; cases h

/-- TICK_START keeps a frame where its pixels say. -/
theorem State.tickStart_frame {s : State} (hd : s.DeviceOk) (hf : s.FrameOk) (hp : s.timPhase = .start) :
    (s.portWrite .pulseStart s.mask).endTick.FrameOk := by
  have hh : (s.portWrite .pulseStart s.mask).pinLevel = .high := by
    rw [State.portWrite_pinLevel, if_pos (by rw [BitVec.and_self]; exact hd.mask_oneHot.ne_zero)]
  have e1 : (s.portWrite .pulseStart s.mask).endTick.wave = s.wave ++ [.high] := by
    rw [State.endTick_wave, hh]; simp
  have e2 : (s.portWrite .pulseStart s.mask).endTick.timPhase = .even := by simp [hp, TimPhase.next]
  have e3 : ∀ h, (s.portWrite .pulseStart s.mask).endTick.mem (.wb h) = s.mem (.wb h) := fun h => by simp
  have e4 : (s.portWrite .pulseStart s.mask).endTick.txCells = s.txCells := by simp
  have hc : (s.portWrite .pulseStart s.mask).endTick.cellBit = s.cellBit := State.cellBit_congr (by simp) (by simp)
  have hh : (s.portWrite .pulseStart s.mask).endTick.halvesSent = s.halvesSent := by unfold State.halvesSent; rw [e4]
  have hm : (s.portWrite .pulseStart s.mask).endTick.fillsMade = s.fillsMade := by unfold State.fillsMade; rw [hh]; simp
  have hdh : (s.portWrite .pulseStart s.mask).endTick.dataHalves = s.dataHalves := by simp [State.dataHalves]
  constructor
  · rw [e4, hc]; exact hf.sent
  · rw [e4, hc, e1, e2, hf.waveform, hp]; simp [cellWaveSoFar]
  · rw [e4]; simpa using hf.position
  · rw [hh]; simpa using hf.target
  · rw [hh]; simpa using hf.pending_sent
  · rw [hm]; simpa using hf.encoded
  · rw [hm]; simpa using hf.boundary
  · rw [hm, hdh]; simpa using hf.drain
  · rw [hm, hdh]; exact hf.fills_le
  · intro q h1 h2 k hk
    rw [e3, hc]
    rw [hm] at h1 h2
    simpa using hf.buffers q h1 h2 k hk
  · rw [e2]; intro h; cases h

/-- A slot through the port: only a 0 bit makes an early edge (rules R66, R91). -/
theorem slotFor_and (mask : Byte) (b : Bool) : slotFor mask b &&& mask = if b then 0 else mask := by
  cases b <;> simp [slotFor]

/-- The symbol recorded for a pin level (rule R184). -/
theorem symbol_level (b : Bool) : (if b then Level.high else Level.low).symbol = symbolOf b := by cases b <;> rfl

/-- TICK_SLOT keeps a frame where its pixels say, unless it finds a missed deadline. -/
theorem State.tickSlot_frame {s t : State} (hd : s.DeviceOk) (hf : s.FrameOk) (ht : s.timEn = true) (hp : s.timPhase ≠ .start)
    (h : execTickSlot s = .next t) (hmiss : t.refillMissed = false) : t.FrameOk := by
  obtain ⟨v, hv, hodd, hleg, hex⟩ := State.tickSlot_state hd ht hp
  rw [hex] at h
  have htt := outcome_next_inj h
  subst htt
  clear h hex
  have hpar := hd.parity
  have hlt := hd.encPos_lt
  have hpos0 := hf.position
  cases hq : s.timPhase with
  | start => exact absurd hq hp
  | even =>
    -- early slot
    rw [hq] at hpar
    have hpar' : s.encPos.toNat % 2 = 0 := by simpa using hpar
    have hrc : s.recordCell = s := by unfold State.recordCell; rw [if_neg (by rw [hq]; decide)]
    rw [hrc] at hmiss ⊢
    set w := s.portWrite .pulseEnd v with hw
    have h2 : w.advanceSlot = { w with encPos := w.encPos + 1 } := State.advanceSlot_next (by simp [w]; omega)
    have h3 : (s.encPos + 1).toNat = s.encPos.toNat + 1 := by
      rw [BitVec.toNat_add]; show (s.encPos.toNat + 1) % 512 = _; omega
    have hcell : v = slotFor s.mask (s.cellBit s.txCells.length) := by
      have hb := hf.buffers s.halvesSent (by unfold State.fillsMade; split <;> omega) (by unfold State.fillsMade; split <;> omega)
        (s.encPos.toNat / 2) (by omega)
      have e1 : evenSlot (s.encPos.toNat / 2) = s.encPos.toNat := by unfold evenSlot; omega
      have e2 : 144 * s.halvesSent + s.encPos.toNat / 2 = s.txCells.length := by unfold State.halvesSent; omega
      rw [← hf.target, e1, e2, hv] at hb
      exact Option.some.inj hb
    have hpin : w.pinLevel = if s.cellBit s.txCells.length then .high else .low := by
      rw [hw, State.portWrite_pinLevel, hcell, slotFor_and, hd.even_high ht hq]
      have := hd.mask_oneHot.ne_zero
      cases s.cellBit s.txCells.length <;> simp_all
    have hc : (w.advanceSlot.endTick).cellBit = s.cellBit := State.cellBit_congr (by simp [h2, w]) (by simp [h2, w])
    have hh : (w.advanceSlot.endTick).halvesSent = s.halvesSent := by simp [State.halvesSent, h2, w]
    have hpd : (w.advanceSlot.endTick).halfDonePending = s.halfDonePending := by simp [h2, w]
    have hm : (w.advanceSlot.endTick).fillsMade = s.fillsMade := by unfold State.fillsMade; rw [hh, hpd]
    have hdh : (w.advanceSlot.endTick).dataHalves = s.dataHalves := by simp [State.dataHalves, h2, w]
    have htx : (w.advanceSlot.endTick).txCells = s.txCells := by simp [h2, w]
    constructor
    · rw [hc, htx]; exact hf.sent
    · have e1 : (w.advanceSlot.endTick).wave = s.wave ++ [w.pinLevel] := by simp [State.endTick_wave, h2, w]
      have e2 : (w.advanceSlot.endTick).timPhase = .odd := by simp [h2, w, hq, TimPhase.next]
      rw [hc, htx, e1, e2, hpin, hf.waveform, hq]; simp [cellWaveSoFar]
    · rw [htx]; simp only [State.endTick_encPos, h2]
      have : (w.encPos + 1).toNat = s.encPos.toNat + 1 := by simpa [w] using h3
      rw [this]; omega
    · rw [hh]; simpa [h2, w] using hf.target
    · rw [hh]; simpa [h2, w] using hf.pending_sent
    · rw [hm]; simpa [h2, w] using hf.encoded
    · rw [hm]; simpa [h2, w] using hf.boundary
    · rw [hm, hdh]; simpa [h2, w] using hf.drain
    · rw [hm, hdh]; exact hf.fills_le
    · rw [hm, hc]; intro q h1 h2' k hk
      have := hf.buffers q h1 h2' k hk
      rw [State.endTick_mem, State.advanceSlot_mem, State.portWrite_mem]
      simpa [h2, w] using this
    · intro _; rw [hc, htx]; simp only [State.endTick_pinLevel, h2]; exact hpin
  | odd =>
    rw [hq] at hpar
    have hpar' : s.encPos.toNat % 2 = 1 := by simpa using hpar
    have hvm := hodd hq
    subst hvm
    set r := s.recordCell with hr
    have hrtx : r.txCells = s.txCells ++ [s.pinLevel.symbol] := by rw [hr, State.recordCell_txCells, if_pos hq]
    set w := r.portWrite .pulseEnd s.mask with hw
    have hwtx : w.txCells = s.txCells ++ [s.pinLevel.symbol] := by rw [hw, State.portWrite_txCells, hrtx]
    have hsym : s.pinLevel.symbol = symbolOf (s.cellBit s.txCells.length) := by
      rw [hf.early_edge hq, symbol_level]
    set t := w.advanceSlot.endTick with htdef
    have hpixt : t.pix = s.pix := by
      have := State.advanceSlot_mem w .pix
      simp only [State.mem_pix] at this
      rw [htdef, State.endTick_pix, this]; simp [w, r]
    have hadv : t.capacity = s.capacity ∧ t.txCells = w.txCells ∧ t.cursor = s.cursor ∧ t.endReached = s.endReached ∧
        t.drainCount = s.drainCount ∧ t.mask = s.mask := by
      rw [htdef]; unfold State.advanceSlot; split <;> simp [w, r]
    obtain ⟨hcap, htx, hcur, hend, hdr, hmk⟩ := hadv
    have hmem : ∀ h, t.mem (.wb h) = s.mem (.wb h) := by
      intro h; rw [htdef, State.endTick_mem, State.advanceSlot_mem]; simp [w, r]
    have hc : t.cellBit = s.cellBit := State.cellBit_congr hpixt hcap
    have hlen : t.txCells.length = s.txCells.length + 1 := by rw [htx, hwtx]; simp
    have hdh : t.dataHalves = s.dataHalves := by unfold State.dataHalves; rw [hcap]
    have hsent : t.txCells = (List.range t.txCells.length).map (fun n => symbolOf (t.cellBit n)) := by
      rw [hlen, hc, List.range_succ, List.map_append, ← hf.sent, htx, hwtx, hsym]; rfl
    have hpw : w.encPos = s.encPos ∧ w.halfDonePending = s.halfDonePending ∧ w.encCt = s.encCt := by simp [w, r]
    have htp : t.timPhase ≠ .odd := by
      have : w.advanceSlot.timPhase = s.timPhase := by unfold State.advanceSlot; split <;> simp [w, r]
      rw [htdef, State.endTick_timPhase, this, hq]; decide
    have hfm : t.fillsMade = s.fillsMade ∧ t.txCells.length % 144 = t.encPos.toNat / 2 ∧
        t.encCt = decide (t.halvesSent % 2 = 1) ∧ (t.halfDonePending = true → 1 ≤ t.halvesSent) := by
      rcases w.advanceSlot_cases (by rw [hpw.1]; exact hlt) with ⟨h1, h2⟩ | ⟨h1, h2, h3⟩
      · have hnp : s.halfDonePending = false := by
          have : t.refillMissed = (s.refillMissed || s.halfDonePending) := by rw [htdef, State.endTick_refillMissed, h2]; simp [w, r]
          rw [this] at hmiss; simp at hmiss; exact hmiss.2
        have hhs : t.halvesSent = s.halvesSent + 1 := by
          unfold State.halvesSent; rw [hlen]; rw [hpw.1] at h1; omega
        have htpend : t.halfDonePending = true := by rw [htdef, State.endTick_halfDonePending, h2]
        refine ⟨?_, ?_, ?_, ?_⟩
        · unfold State.fillsMade; rw [hhs, htpend, hnp]; simp
        · rw [hlen]; rw [hpw.1] at h1
          have : t.encPos.toNat = 0 := by rw [htdef, State.endTick_encPos, h2]; rfl
          rw [this]; omega
        · have : t.encCt = !s.encCt := by rw [htdef, State.endTick_encCt, h2]; simp [w, r]
          rw [this, hf.target, hhs, Bool.eq_iff_iff]; simp; omega
        · intro _; omega
      · have h4 : t.encPos.toNat = s.encPos.toNat + 1 := by
          rw [htdef, State.endTick_encPos, h2]; show (w.encPos + 1).toNat = _; rw [h3, hpw.1]
        have h5 : t.halfDonePending = s.halfDonePending := by rw [htdef, State.endTick_halfDonePending, h2]; exact hpw.2.1
        have h6 : t.encCt = s.encCt := by rw [htdef, State.endTick_encCt, h2]; exact hpw.2.2
        have hhs : t.halvesSent = s.halvesSent := by
          unfold State.halvesSent; rw [hlen]; rw [hpw.1] at h1; omega
        refine ⟨?_, ?_, ?_, ?_⟩
        · unfold State.fillsMade; rw [hhs, h5]
        · rw [hlen, h4]; rw [hpw.1] at h1; omega
        · rw [h6, hhs]; exact hf.target
        · rw [h5, hhs]; exact hf.pending_sent
    obtain ⟨hfm, hpo, htg, hps⟩ := hfm
    have hwlow : w.pinLevel = .low := by
      have hne := hd.mask_oneHot.ne_zero
      have hrm : r.mask = s.mask := by simp [r]
      rw [hw, State.portWrite_pinLevel, if_pos (by rw [hrm, BitVec.and_self]; exact hne)]
    have hwv : t.wave = s.wave ++ [.low] := by
      have e1 : w.advanceSlot.wave = w.wave ∧ w.advanceSlot.pinLevel = w.pinLevel := by
        unfold State.advanceSlot; split <;> simp
      have e2 : w.wave = s.wave := by simp [w, r]
      rw [htdef, State.endTick_wave, e1.1, e1.2, e2, hwlow]
    have htph : t.timPhase = .start := by
      have : w.advanceSlot.timPhase = s.timPhase := by unfold State.advanceSlot; split <;> simp [w, r]
      rw [htdef, State.endTick_timPhase, this, hq]; rfl
    constructor
    · exact hsent
    · rw [hwv, htph, hlen, hc, List.range_succ, List.flatMap_append, hf.waveform, hq]
      simp [cellWaveSoFar, cellWave]
    · exact hpo
    · exact htg
    · exact hps
    · rw [hcur, hfm, hcap]; exact hf.encoded
    · rw [hend, hfm, hcap]; exact hf.boundary
    · rw [hdr, hfm, hdh]; exact hf.drain
    · rw [hfm, hdh]; exact hf.fills_le
    · rw [hfm, hc, hmk]; intro q h1 h2' k hk; rw [hmem]; exact hf.buffers q h1 h2' k hk
    · intro h; exact absurd h htp

/-- The data ends inside the first `dataHalves` fills (rule R210). -/
theorem State.dataHalves_le (s : State) (F : Nat) : s.dataHalves ≤ F ↔ 3 * s.capacity.toNat ≤ 18 * F := by
  unfold State.dataHalves; omega

/-- REFILL keeps a frame where its pixels say, unless it ends it. -/
theorem State.refill_frame {s t : State} (hd : s.DeviceOk) (hf : s.FrameOk) (hmiss : s.refillMissed = false)
    (h : execRefill s = .next t) (hip : t.inProgress = true) : t.FrameOk := by
  obtain ⟨hpend, ⟨hdr, rfl⟩ | ⟨hdr, u, hu, rfl⟩⟩ := execRefill_cases h
  · simp [State.finishFrame] at hip
  · have l0 : Layout s.toggleActive := hd.layout.of_eq rfl rfl rfl rfl (fun h => by simp)
    have c0 : CursorOk s.toggleActive := ⟨hd.cursor_le, hd.end_cursor⟩
    rw [l0.fill c0.1] at hu
    injection hu with hu
    have ht := hd.pending_running hpend
    have hips : s.inProgress = true := by rw [← hd.engines.1, ht]
    have hact := hd.mirror ht hmiss
    have hF : s.fillsMade = s.halvesSent + 1 := by unfold State.fillsMade; rw [hpend]; simp
    have ha : AtFill s.toggleActive s.fillsMade := ⟨hf.encoded, hf.boundary⟩
    have ha1 := ha.next hd.capacity_le s.activeHalf
    have htgt : s.activeHalf = decide (s.fillsMade % 2 = 1) := by
      rw [hact, hpend, hf.target, hF, Bool.eq_iff_iff]; simp; omega
    have hself : ∀ k, k < 144 → Memory.read (u.mem (.wb s.activeHalf)) (evenSlot k) =
        some (slotFor s.mask (s.cellBit (144 * s.fillsMade + k))) := by
      intro k hk
      rw [← hu, State.filled_mem_self, Memory.read_evenWrites, if_pos (by omega), ha.slot]
      rw [State.cellBit_congr (s := s) (t := s.toggleActive) rfl rfl]; simp
    have hother : u.mem (.wb (!s.activeHalf)) = s.mem (.wb (!s.activeHalf)) := by
      rw [← hu, State.filled_mem_other _ (by cases s.activeHalf <;> decide)]; simp
    have hdrain : u.drainCount.toNat = s.fillsMade + 1 - s.dataHalves := by
      have hd1 := hf.drain
      have := State.dataHalves_le s s.fillsMade
      have hle := hd.drain_le
      rw [← hu, State.filled_drainCount]
      by_cases he : 3 * s.capacity.toNat ≤ 18 * s.fillsMade
      · have hee : s.endReached = true := by rw [hf.boundary]; simpa using he
        rw [if_pos (by exact hee), State.toggleActive_drainCount, BitVec.toNat_add]
        have hn : ¬ 2 ≤ s.drainCount.toNat := by
          intro hc; rw [(State.drained_iff s).2 ⟨hd.end_draining hips hee, hc⟩] at hdr; cases hdr
        show (s.drainCount.toNat + 1) % 4 = _
        omega
      · have hee : ¬ s.endReached = true := by rw [hf.boundary]; simpa using he
        rw [if_neg (by exact hee), State.toggleActive_drainCount]
        omega
    have hle2 : s.fillsMade + 1 ≤ s.dataHalves + 2 := by
      have hd1 := hf.drain
      have h0 := hf.fills_le
      have := State.dataHalves_le s s.fillsMade
      by_contra hc
      have hee : s.endReached = true := by rw [hf.boundary]; simp; omega
      have : 2 ≤ s.drainCount.toNat := by omega
      rw [(State.drained_iff s).2 ⟨hd.end_draining hips hee, this⟩] at hdr; cases hdr
    have hcap : u.capacity = s.capacity := by rw [← hu]; simp
    have hpix : u.pix = s.pix := by rw [← hu]; simp
    have hmk : u.mask = s.mask := by rw [← hu]; simp
    have htx : u.txCells = s.txCells := by rw [← hu]; simp
    have hpos : u.encPos = s.encPos := by rw [← hu]; simp
    have hct : u.encCt = s.encCt := by rw [← hu]; simp
    have htp : u.timPhase = s.timPhase := by rw [← hu]; simp
    have hpl : u.pinLevel = s.pinLevel := by rw [← hu]; simp
    have hwv : u.wave = s.wave := by rw [← hu]; simp
    rw [hu] at ha1
    have hcu : u.cursor.toNat = min (18 * (s.fillsMade + 1)) (3 * u.capacity.toNat) := ha1.cursor
    have hen : u.endReached = decide (3 * u.capacity.toNat ≤ 18 * (s.fillsMade + 1)) := ha1.endR
    clear hu ha1
    generalize htt : (u.setPhase (if u.endReached = true then Phase.draining else Phase.streaming)).returnFromEvent = t
    have e : t.txCells = s.txCells ∧ t.encPos = s.encPos ∧ t.encCt = s.encCt ∧ t.halfDonePending = false ∧ t.cursor = u.cursor ∧
      t.capacity = s.capacity ∧ t.endReached = u.endReached ∧ t.drainCount = u.drainCount ∧ t.mask = s.mask ∧ t.pix = s.pix ∧
      (∀ sp, t.mem sp = u.mem sp) ∧ t.timPhase = s.timPhase ∧ t.pinLevel = s.pinLevel ∧ t.wave = s.wave := by
      rw [← htt]; simp [hcap, hpix, hmk, htx, hpos, hct, htp, hpl, hwv]
    obtain ⟨e1, e2, e3, e4, e5, e6, e7, e8, e9, e10, e11, e12, e13, e14⟩ := e
    have hc := State.cellBit_congr e10 e6
    have hh : t.halvesSent = s.halvesSent := by unfold State.halvesSent; rw [e1]
    have hm : t.fillsMade = s.fillsMade + 1 := by unfold State.fillsMade; rw [hh, e4, hpend]; simp
    have hdh : t.dataHalves = s.dataHalves := by unfold State.dataHalves; rw [e6]
    constructor
    · rw [e1, hc]; exact hf.sent
    · rw [e1, hc, e12, e14]; exact hf.waveform
    · rw [e1, e2]; exact hf.position
    · rw [e3, hh]; exact hf.target
    · rw [e4]; intro h; cases h
    · rw [e5, hm, e6, ← hcap]; exact hcu
    · rw [e7, hm, e6, ← hcap]; exact hen
    · rw [e8, hm, hdh]; exact hdrain
    · rw [hm, hdh]; exact hle2
    · rw [hm, hc, e9]
      intro q h1 h2 k hk
      rw [e11]
      rcases Nat.lt_or_ge q s.fillsMade with h3 | h3
      · have : decide (q % 2 = 1) = !s.activeHalf := by
          rw [htgt, Bool.eq_iff_iff]; simp; omega
        rw [this, hother, ← this]
        exact hf.buffers q h3 (by omega) k hk
      · have : q = s.fillsMade := by omega
        subst this
        rw [← htgt]; exact hself k hk
    · rw [hc, e1, e12, e13]; exact hf.early_edge

end Sys2Proof.Machine
end

