-- ==== Sys2Proof/Laws/PerInstr.lean ====
section
/-!
SUPPORT. The per-instruction family Encoding: every instruction is well-formed as syntax, and a row of the opcode table
admits its encoded form.
-/

namespace Sys2Proof.Laws.Encoding

/-- The instruction is well-formed and its encoded form is not reserved (rules R99 to R108). -/
def Statement (i : Instr) : Prop := i.wellFormed = true ∧ (encode i).wellFormed = true

/-- A command word is legal if one of the four rows admits it. -/
theorem command_legal {w : BitVec 64} (h : true ∈ commandRows.map (fun row => row.admits w)) :
    (Packet.command w).wellFormed = true := by
  simpa [Packet.wellFormed] using h

theorem init (maxLeds pinMask16 : BitVec 16) (drive : BitVec 1) : Statement (.init maxLeds pinMask16 drive) := by
  refine ⟨rfl, command_legal ?_⟩
  rw [commandRows_admits]
  simp [cmdOpcode_cmdWord, cmdC2_cmdWord, cmdC1_cmdWord, cmdC0_cmdWord, drive_fields]

theorem set (index : BitVec 16) (r g b : Byte) : Statement (.set index r g b) := by
  refine ⟨rfl, command_legal ?_⟩
  rw [commandRows_admits]
  simp [cmdOpcode_cmdWord, cmdM16_cmdWord]

theorem setAll (r g b : Byte) : Statement (.setAll r g b) := by
  refine ⟨rfl, command_legal ?_⟩
  rw [commandRows_admits]
  simp [cmdOpcode_cmdWord, cmdA16_cmdWord, cmdM16_cmdWord]

theorem triggerUpdate : Statement .triggerUpdate := ⟨rfl, by decide⟩

theorem tickStart : Statement .tickStart := ⟨rfl, by decide⟩

theorem tickSlot : Statement .tickSlot := ⟨rfl, by decide⟩

theorem refill : Statement .refill := ⟨rfl, by decide⟩

end Sys2Proof.Laws.Encoding
end

