-- ==== Sys2Proof/Tests/Slice0.lean ====
section
/-!
SUPPORT. Small tests. Expected results are the words of 30_encoding.md and the vectors of 95_test_vectors.md, named in each docstring;
the last part shows, for every obligation with hypotheses, a state and operands that meet them.
-/

open Sys2Proof Sys2Proof.Machine

namespace Sys2Proof.Tests

-- The tests are elaborated one after another: with one thread for each the whole package runs out of memory for threads.
set_option Elab.async false

/-! ### Encodings, written out bit by bit from the patterns of rules R99 to R106 -/

/-- V-CMD-2 and V-CMD-3. -/
theorem test_decode_init :
    decodeCommand 0b0000000100000000000000100000000100000000000000000000000000000001#64 = .ok (.init 2 0x0100 1) ∧
    decodeCommand 0b0000000100000100000000001000000000000000000000000000000000000001#64 = .ok (.init 1024 0x8000 1) := by decide

/-- V-CMD-7 and V-CMD-8. -/
theorem test_decode_set :
    decodeCommand 0b0000001000000000000000010000000000000000000000000000000111111111#64 = .ok (.set 1 0x00 0x01 0xFF) ∧
    decodeCommand 0b0000001000000000000000100000000000000000000100100011010001010110#64 = .ok (.set 2 0x12 0x34 0x56) := by decide

/-- V-CMD-9. -/
theorem test_decode_setAll :
    decodeCommand 0b0000001100000000000000000000000000000000010101011010101000000000#64 = .ok (.setAll 0x55 0xAA 0x00) := by decide

/-- V-CMD-11. -/
theorem test_decode_trigger :
    decodeCommand 0b0000010000000000000000000000000000000000000000000000000000000000#64 = .ok .triggerUpdate := by decide

/-- The `EVT3` vectors of 95_test_vectors.md section 2.1. -/
theorem test_decode_events :
    decodeEvent 0b100#3 = .ok .tickStart ∧ decodeEvent 0b010#3 = .ok .tickSlot ∧ decodeEvent 0b001#3 = .ok .refill := by
  decide

/-- V-CMD-1, 3, 5, 6 and 9 as encodings. -/
theorem test_encode_words :
    encode (.init 1 0x0020 0) = .command 0x0100010020000000#64 ∧
    encode (.init 1024 0x8000 1) = .command 0x0104008000000001#64 ∧
    encode (.init 2000 0x0020 0) = .command 0x0107D00020000000#64 ∧
    encode (.set 0 0xFF 0 0) = .command 0x0200000000FF0000#64 ∧
    encode (.setAll 0x55 0xAA 0x00) = .command 0x030000000055AA00#64 := by decide

/-- V-CMD-12 to V-CMD-19, each refused under the name of the field that is wrong. -/
theorem test_reserved_words :
    decodeCommand 0x0000000000000000#64 = .error (.reservedOpcode 0x00) ∧
    decodeCommand 0x0500000000000000#64 = .error (.reservedOpcode 0x05) ∧
    decodeCommand 0xFF00000000000000#64 = .error (.reservedOpcode 0xFF) ∧
    decodeCommand 0x0400000000000001#64 = .error .nonzeroC0 ∧
    decodeCommand 0x0100010020000002#64 = .error .nonzeroC0 ∧
    decodeCommand 0x0100010020010000#64 = .error .nonzeroC2 ∧
    decodeCommand 0x0200000001000000#64 = .error .nonzeroM16 ∧
    decodeCommand 0x0300010000000000#64 = .error .nonzeroA16 := by decide

/-- The vectors that are no step, and byte lists that are no command word (rules R67, R98, R107). -/
theorem test_reserved_events :
    decodeEvent 0b000#3 = .error .noRequest ∧
    [0b011#3, 0b101#3, 0b110#3, 0b111#3].map decodeEvent = List.replicate 4 (.error .severalRequests) ∧
    decodeBytes [] = .error .wrongLength ∧ decodeBytes (List.replicate 7 4) = .error .wrongLength := by decide

/-- A command word as bytes, most significant first (rule R67 (d)). -/
theorem test_bytes :
    decodeBytes [0x02, 0x00, 0x02, 0x00, 0x00, 0x12, 0x34, 0x56] = .ok (.set 2 0x12 0x34 0x56) := by decide

/-- The words the host asks for, by the table's numbering. -/
theorem test_table_words :
    decodeTableWord 64 0x0100010020000000 = some (.init 1 0x0020 0) ∧
    decodeTableWord 64 0x0400000000000000 = some .triggerUpdate ∧
    decodeTableWord 3 4 = some .tickStart ∧ decodeTableWord 3 2 = some .tickSlot ∧ decodeTableWord 3 1 = some .refill ∧
    decodeTableWord 8 1 = some .refill ∧ decodeTableWord 3 3 = none ∧ decodeTableWord 64 0 = none := by decide

/-! ### Smoke test of well-formedness: an ill-formed form for each check of each row -/

/-- INIT's zero fields `c2`, `c1` and bits 7:1 of `c0`, each broken at its lowest and its highest bit. -/
theorem test_illFormed_init :
    [0x0100010020010000#64, 0x0100010020800000#64, 0x0100010020000100#64, 0x0100010020008000#64, 0x0100010020000002#64,
     0x0100010020000080#64].all (fun w => !Packet.wellFormed (.command w)) = true := by decide

/-- SET's and SET_ALL's zero fields. -/
theorem test_illFormed_set :
    [0x0200000001000000#64, 0x0200008000000000#64, 0x0300010000000000#64, 0x0380000000000000#64, 0x0300000001000000#64,
     0x0300008000000000#64].all (fun w => !Packet.wellFormed (.command w)) = true := by decide

/-- TRIGGER_UPDATE's fields, and opcodes outside the table. -/
theorem test_illFormed_trigger :
    [0x0400010000000000#64, 0x0400000001000000#64, 0x0400000000010000#64, 0x0400000000000100#64, 0x0400000000000001#64,
     0x0000000000000000#64, 0x0500000000000000#64, 0xFF00000000000000#64].all
      (fun w => !Packet.wellFormed (.command w)) = true := by decide

/-- Event vectors with no bit or more than one bit set. -/
theorem test_illFormed_event :
    [0b000#3, 0b011#3, 0b101#3, 0b110#3, 0b111#3].all (fun e => !Packet.wellFormed (.event e)) = true := by decide

/-! ### Small states -/

/-- The next state, if there is one. -/
def nextOf : Host.Outcome State Fault Refusal → Option State
  | .next t => some t
  | _ => none

theorem exists_next {o : Host.Outcome State Fault Refusal} (h : (nextOf o).isSome = true) : ∃ t, o = .next t := by
  cases o with
  | next t => exact ⟨t, rfl⟩
  | _ => cases h

/-- A property of the next state, decided. -/
theorem exists_next_with {o : Host.Outcome State Fault Refusal} {P : State → Bool}
    (h : (match nextOf o with | some t => P t | none => false) = true) : ∃ t, o = .next t ∧ P t = true := by
  cases o with
  | next t => exact ⟨t, rfl, h⟩
  | _ => cases h

/-- The Device after `INIT n, 0x0020, PP` from power-on, its pixel bytes the free draw. -/
def dev (n : BitVec 16) : State := (State.reset.construct n 0x0020 0).complete

/-- The same Device with every pixel byte equal to `v`. -/
def devOf (n : BitVec 16) (v : Byte) : State := { dev n with pix := Memory.ofFn (3 * n.toNat) (fun _ => v) }

/-- The Device of `INIT 1, 0x0020, PP` and `SET 0, 0xFF, 0, 0` (V-REF-1). -/
def red : State := { dev 1 with pix := [(0, 0xFF), (1, 0), (2, 0)] }

/-- The even slots of a buffer, from cell `k` on. -/
def evens (m : Memory) (k n : Nat) : List (Option Byte) := (List.range n).map (fun i => Memory.read m (evenSlot (k + i)))

/-! ### INIT (95_test_vectors.md section 2.2) -/

/-- V-INIT-2: the upper lane, open drain. -/
theorem test_init_device :
    (nextOf (exec (.init 1024 0x8000 1) State.reset)).map (fun t => (t.capacity, t.pinLane, t.mask, t.pinMode)) =
      some (1024, 1, 0x80, 1) ∧
    (nextOf (exec (.init 1024 0x8000 1) State.reset)).map (fun t => (t.lastStatus.code, t.isb)) = some (0, [(0, 0x80)]) ∧
    (nextOf (exec (.init 1024 0x8000 1) State.reset)).map (fun t => (t.wb0.take 2, t.wb1.drop 286)) =
      some ([(0, 0x00), (1, 0x80)], [(286, 0x00), (287, 0x80)]) :=
  ⟨by decide +kernel, by decide +kernel, by decide +kernel⟩

/-- V-INIT-3, 5, 7, 8, 11, 10: the checks in their order. -/
theorem test_init_checks :
    exec (.init 0 0x0020 0) State.reset = .next { State.reset with lastStatus := .invalidConfiguration } ∧
    initVerdict 1024 1025 0x0020 = .invalidConfiguration ∧ initVerdict 1024 2 0x0003 = .invalidConfiguration ∧
    initVerdict 1024 2 0x0000 = .invalidConfiguration ∧ initVerdict 512 2000 0x0020 = .invalidConfiguration ∧
    initVerdict 512 600 0x0020 = .allocationFailure ∧ initVerdict 1024 600 0x0020 = .ok :=
  ⟨rfl, by decide, by decide, by decide, by decide, by decide, by decide⟩

/-- The mask derivations of 95_test_vectors.md section 2.2. -/
theorem test_mask_derivation :
    [0x0001, 0x0002, 0x0020, 0x0080, 0x0100, 0x0200, 0x1000, 0x4000, 0x8000].map (fun p => (pinLaneOf p, transitionMask p)) =
      [(0, 0x01), (0, 0x02), (0, 0x20), (0, 0x80), (1, 0x01), (1, 0x02), (1, 0x10), (1, 0x40), (1, 0x80)] := by decide

/-! ### SET and SET_ALL (section 2.3) -/

/-- V-SET-1 and V-SET-3 on a Device of two pixels. -/
theorem test_set :
    (nextOf (exec (.set 1 1 2 3) (devOf 2 9))).map (fun t => (t.pix, t.lastStatus.code)) =
      some ([(0, 9), (1, 9), (2, 9), (3, 1), (4, 2), (5, 3)], 0) ∧
    (nextOf (exec (.set 2 1 2 3) (devOf 2 9))).map (fun t => (t.pix, t.lastStatus.code, t.halted)) =
      some ([(0, 9), (1, 9), (2, 9), (3, 9), (4, 9), (5, 9)], 3, true) := by decide +kernel

/-- V-SET-5. -/
theorem test_setAll :
    (nextOf (exec (.setAll 0x55 0xAA 0x00) (devOf 2 9))).map (fun t => t.pix) =
      some [(0, 0x55), (1, 0xAA), (2, 0x00), (3, 0x55), (4, 0xAA), (5, 0x00)] := by decide +kernel

/-! ### The Bit Encoder (section 2.4) -/

/-- V-ENC-3 and V-ENC-6: one byte to its eight even slots, most significant bit first. -/
theorem test_byte_slots :
    (List.range 8).map (fun j => slotFor 0x01 (byteBit 0xA5 j)) = [0, 1, 0, 1, 1, 0, 1, 0] ∧
    (List.range 8).map (fun j => slotFor 0x01 (byteBit 0x3C j)) = [1, 1, 0, 0, 0, 0, 1, 1] := by decide

/-- V-ENC-9: even slots `00x8 20x16 00x120`, `cursor = 3`, the boundary reached. -/
theorem test_encodeHalf :
    (match red.encodeHalf false with
      | .ok t => (evens t.wb0 0 144, t.cursor, t.endReached)
      | .error _ => ([], 0, false)) =
      (List.replicate 8 (some 0x00) ++ (List.replicate 16 (some 0x20) ++ List.replicate 120 (some 0x00)), 3, true) := by
  decide +kernel

/-! ### The hardware (section 2.5) -/

/-- V-TICK-1 to V-TICK-3: the first cell of a frame whose first bit is 1. -/
theorem test_tick_cell :
    ((nextOf (exec .tickStart red.arm)).bind (fun t => nextOf (exec .tickSlot t))).bind
      (fun t => (nextOf (exec .tickSlot t)).map (fun u => (u.pinLevel, u.encPos, u.timPhase, u.txCells, u.wave))) =
      some (.low, 2, .start, [.one], [.high, .high, .low]) := by decide +kernel

/-- V-TICK-8: the wrap finds the latch still set. -/
theorem test_tickSlot_missed :
    (nextOf (exec .tickSlot { red.arm with encPos := 287, timPhase := .odd, halfDonePending := true })).map
      (fun t => (t.encCt, t.encPos, t.halfDonePending, t.refillMissed)) = some (true, 0, true, true) := by decide +kernel

/-! ### TRIGGER_UPDATE and REFILL (section 2.6) -/

/-- V-REF-1. -/
theorem test_trigger :
    (nextOf (exec .triggerUpdate red)).map (fun t => (t.cursor, t.endReached, t.drainCount, t.phase)) =
      some (3, true, 1, .draining) ∧
    (nextOf (exec .triggerUpdate red)).map (fun t => (evens t.wb0 0 26, evens t.wb1 0 26)) =
      some (List.replicate 8 (some 0x00) ++ (List.replicate 16 (some 0x20) ++ List.replicate 2 (some 0x00)),
        List.replicate 26 (some 0x00)) :=
  ⟨by decide +kernel, by decide +kernel⟩

/-- V-REF-2, capacity 13 and the boundary of capacity 12. -/
theorem test_trigger_capacity :
    (nextOf (exec .triggerUpdate (devOf 13 0))).map (fun t => (t.cursor, t.endReached, t.phase, t.drainCount)) =
      some (36, false, .fillingFirstHalf, 0) ∧
    (nextOf (exec .triggerUpdate (devOf 12 0))).map (fun t => (t.cursor, t.endReached, t.phase, t.drainCount)) =
      some (36, true, .draining, 0) := by decide +kernel

/-- V-REF-5, capacity 1: event 1 leaves the drain one fill further, event 2 ends the frame. -/
theorem test_refill :
    ((nextOf (exec .triggerUpdate red)).bind (fun t => nextOf (exec .refill { t with halfDonePending := true }))).map
      (fun t => (t.phase, t.cursor, t.drainCount, t.activeHalf, t.halfDonePending)) = some (.draining, 3, 2, true, false) := by
  decide +kernel

/-- The end of a frame: STOP (rule R180) and the idle phase; the pin LOW. -/
theorem test_refill_last :
    (nextOf (exec .refill { red.arm with halfDonePending := true, phase := .draining, drainCount := 2, inProgress := true,
                                         pinLevel := .high })).map
      (fun t => (t.phase, t.inProgress, t.timEn, t.pinLevel, t.activeHalf)) = some (.idle, false, false, .low, true) := by
  decide +kernel

/-- V-ERR-7: SET out of range in a frame leaves the timer running and the state faulted, so no claim covers it (rule R234). -/
theorem test_set_halts_frame :
    (nextOf (exec (.set 13 0 0 0) { (devOf 13 0).arm with inProgress := true })).map
      (fun t => (t.halted, t.timEn, t.faulted, t.frameSound, t.final)) = some (true, true, true, false, false) := by
  decide +kernel

/-! ### Whole steps -/

/-- The host's next turn issues the word: INIT runs as the first instruction after power-on (V-CMD-1). -/
theorem test_step_runs_init :
    (nextOf (step (State.reset.withFetchWord 64 0x0100010020000000))).map (fun t => (t.initialized, t.capacity, t.mask)) =
      some (true, 1, 0x20) := by decide +kernel

/-- V-ERR-6: a reserved word is refused and changes nothing else. -/
theorem test_step_refuses_reserved :
    step (State.reset.withFetchWord 64 0x0500000000000000) = .next { State.reset with lastStatus := .refused } := rfl

/-- The placed event vectors run as the first step after power-on. -/
theorem test_step_runs_events :
    (nextOf (step (State.reset.withFetchWord 3 4))).map (fun t => t.timPhase) = some .even ∧
    (nextOf (step (State.reset.withFetchWord 3 2))).map (fun t => t.timPhase) = some .odd ∧
    (nextOf (step (State.reset.withFetchWord 3 1))).map (fun t => t.halfDonePending) = some false := by decide +kernel

/-! ### Consistent states and frames in flight -/

theorem dev_ok {n : BitVec 16} (h1 : 1 ≤ n.toNat) (h2 : n.toNat ≤ 1024) : (dev n).DeviceOk := State.construct_ok h1 h2

theorem devOf_ok {n : BitVec 16} (v : Byte) (h1 : 1 ≤ n.toNat) (h2 : n.toNat ≤ 1024) : (devOf n v).DeviceOk := by
  have hcap : (devOf n v).capacity.toNat = n.toNat := by
    show (n.setWidth 11).toNat = n.toNat
    rw [BitVec.toNat_setWidth]; exact Nat.mod_eq_of_lt (by omega)
  have hd := dev_ok h1 h2
  obtain ⟨⟩ := hd
  constructor <;> first | assumption | skip
  rw [hcap]; exact Memory.holds_ofFn _ _

theorem consistent_of {s : State} (hi : s.initialized = true) (hd : s.DeviceOk) : s.Consistent :=
  ⟨⟨hd.pix_holds.wf, by rw [hd.isb_eq]; exact List.pairwise_singleton _ _, hd.wb0_holds.wf, hd.wb1_holds.wf⟩,
   fun h => absurd h (by rw [hi]; decide), fun _ => hd⟩

theorem dev_consistent {n : BitVec 16} (h1 : 1 ≤ n.toNat) (h2 : n.toNat ≤ 1024) : (dev n).Consistent :=
  consistent_of rfl (dev_ok h1 h2)

/-- A frame of one white LED (every bit 1, so every cell of the frame is a long pulse) after `cells` cells, the timer at
phase `p`, with or without a pending event. -/
def white (cells : Nat) (p : TimPhase) (pending : Bool) : State :=
  { devOf 1 0xFF with
    cursor := 3, endReached := true, drainCount := BitVec.ofNat 2 (cells / 144 + (if pending then 0 else 1))
    activeHalf := decide (cells / 144 % 2 = 1) ^^ pending, inProgress := true, phase := .draining
    timEn := true, idleEn := true, encEn := true, encDbm := true, timPhase := p
    encCt := decide (cells / 144 % 2 = 1), encPos := BitVec.ofNat 9 (2 * (cells % 144) + (if p = .odd then 1 else 0))
    halfDonePending := pending, pinLevel := if p = .start then .low else .high
    txCells := List.replicate cells .one
    wave := (List.range cells).flatMap (fun _ => cellWave true) ++ cellWaveSoFar p true }

theorem white_cellBit (cells : Nat) (p : TimPhase) (pending : Bool) (n : Nat) : (white cells p pending).cellBit n = true := by
  unfold State.cellBit
  split
  · next h =>
    have h24 : n < 24 := h
    have hr : Memory.read (white cells p pending).pix (n / 8) = some 0xFF :=
      Memory.read_ofFn (n := 3) (fun _ => 0xFF) (by omega)
    have hb : ∀ j : Fin 8, byteBit 0xFF j.val = true := by decide
    unfold State.streamBit; rw [hr]; exact hb ⟨n % 8, by omega⟩
  · rfl

theorem white_slot (h : Half) {k : Nat} (hk : k < 144) (cells : Nat) (p : TimPhase) (pending : Bool) :
    Memory.read ((white cells p pending).mem (.wb h)) (evenSlot k) = some 0 := by
  have : (white cells p pending).mem (.wb h) = idlePattern 0x20 := by cases h <;> rfl
  rw [this, idlePattern, Memory.read_ofFn _ (show evenSlot k < Config.slotsPerHalf by show 2 * k < 288; omega)]
  simp [evenSlot]

theorem white_ok {cells : Nat} {p : TimPhase} {pending : Bool} (hF : cells / 144 + (if pending then 1 else 2) ≤ 3) :
    (white cells p pending).DeviceOk := by
  have hd := devOf_ok (n := 1) 0xFF (by decide) (by decide)
  obtain ⟨⟩ := hd
  have hpos : (white cells p pending).encPos.toNat = 2 * (cells % 144) + (if p = .odd then 1 else 0) := by
    show (BitVec.ofNat 9 _).toNat = _
    rw [BitVec.toNat_ofNat]; apply Nat.mod_eq_of_lt; split <;> omega
  constructor <;> first | assumption | skip
  · rw [hpos]; split <;> omega
  · exact ⟨rfl, rfl, rfl⟩
  · intro _ _; rfl
  · rw [hpos]; show _ = (if p = .odd then 1 else 0); split <;> omega
  · exact ⟨(fun h => by cases h), (fun h => by cases h)⟩
  · intro _; rfl
  · intro _ _; rfl
  · exact Nat.le_refl 3
  · intro _; rfl
  · show (BitVec.ofNat 2 _).toNat ≤ 2
    rw [BitVec.toNat_ofNat]; cases pending <;> simp at hF ⊢ <;> omega
  · intro _; rfl
  · intro h; cases h
  · intro h; have h' : p = .start := h; subst h'; rfl
  · intro _ h; have h' : p = .even := h; subst h'; rfl

theorem white_frame {cells : Nat} {p : TimPhase} {pending : Bool} (hF : cells / 144 + (if pending then 1 else 2) ≤ 3)
    (hp : pending = true → 1 ≤ cells / 144) : (white cells p pending).FrameInv := by
  have hpos : (white cells p pending).encPos.toNat = 2 * (cells % 144) + (if p = .odd then 1 else 0) := by
    show (BitVec.ofNat 9 _).toNat = _
    rw [BitVec.toNat_ofNat]; apply Nat.mod_eq_of_lt; split <;> omega
  have hlen : (white cells p pending).txCells.length = cells := List.length_replicate
  have hsent : (white cells p pending).halvesSent = cells / 144 := by unfold State.halvesSent; rw [hlen]
  have hmade : (white cells p pending).fillsMade = cells / 144 + (if pending then 1 else 2) := by
    unfold State.fillsMade; rw [hsent]; rfl
  have hcap : (white cells p pending).capacity.toNat = 1 := rfl
  have hdata : (white cells p pending).dataHalves = 1 := by unfold State.dataHalves; rw [hcap]
  refine ⟨consistent_of rfl (white_ok hF), fun _ _ _ => ?_⟩
  constructor
  · rw [hlen]
    show List.replicate cells Symbol.one = _
    apply List.ext_getElem
    · simp
    · intro i h1 h2; simp [white_cellBit, symbolOf]
  · rw [hlen, white_cellBit]
    have hb : (fun n => cellWave ((white cells p pending).cellBit n)) = fun _ => cellWave true := by
      funext n; rw [white_cellBit]
    rw [hb]; rfl
  · rw [hlen, hpos]; split <;> omega
  · rw [hsent]; rfl
  · intro h; rw [hsent]; exact hp h
  · rw [hmade, hcap]; show (3#12).toNat = _; cases pending <;> simp <;> omega
  · rw [hmade, hcap]; show true = _; cases pending <;> simp <;> omega
  · rw [hmade, hdata]; show (BitVec.ofNat 2 _).toNat = _
    rw [BitVec.toNat_ofNat]; cases pending <;> simp at hF hp ⊢ <;> omega
  · rw [hmade, hdata]; omega
  · intro q _ _ k hk; rw [white_slot _ hk, white_cellBit]; rfl
  · intro h; have h' : p = .odd := h; subst h'; rw [white_cellBit]; rfl

/-- A frame of `n` white LEDs right after its TRIGGER_UPDATE, for `n` at least 13. -/
def filling (n : BitVec 16) : State :=
  { devOf n 0xFF with
    cursor := 36, phase := .fillingFirstHalf, inProgress := true, timEn := true, idleEn := true, encEn := true, encDbm := true }

/-- The same after the hardware has finished the first half and raised its event. -/
def fillingPending (n : BitVec 16) : State := { filling n with encCt := true, halfDonePending := true }

theorem filling_ok {n : BitVec 16} (h1 : 13 ≤ n.toNat) (h2 : n.toNat ≤ 1024) :
    (filling n).DeviceOk ∧ (fillingPending n).DeviceOk ∧ { fillingPending n with phase := .streaming }.DeviceOk := by
  have hcap : (n.setWidth 11).toNat = n.toNat := by
    rw [BitVec.toNat_setWidth]; exact Nat.mod_eq_of_lt (by omega)
  have hcur : (36#12).toNat ≤ 3 * (n.setWidth 11).toNat := by rw [hcap]; show 36 ≤ _; omega
  have hd := devOf_ok (n := n) 0xFF (by omega) h2
  obtain ⟨⟩ := hd
  refine ⟨?_, ?_, ?_⟩
  all_goals
    constructor <;> first | assumption | exact hcur | rfl | exact ⟨rfl, rfl, rfl⟩ | (intro h; cases h; done) | (intro _ h; cases h; done) | (intro _ _; rfl) | (intro _; rfl) | exact ⟨(fun h => by cases h), (fun h => by cases h)⟩

/-! ### Witnesses: for every obligation with hypotheses, a state and operands that meet all of them -/

theorem test_witness_DecodeEncodeRoundTrip : (Instr.init 0xFFFF 0xFFFF 1).wellFormed = true := rfl

theorem test_witness_DecodedFormIsTheEncoding :
    decode (.command 0x0200020000123456#64) = .ok (.set 2 0x12 0x34 0x56) ∧ decode (.event 0b010#3) = .ok .tickSlot := by decide

theorem test_witness_StepRunsDecodedInstruction :
    Instr.triggerUpdate.wellFormed = true ∧
    decode (((dev 1).placeCommand 0x0400000000000000).packetOf ((dev 1).placeCommand 0x0400000000000000).nextTurn) =
      .ok .triggerUpdate ∧
    decode ((white 0 .start false).packetOf .timer) = .ok .tickStart := ⟨rfl, rfl, rfl⟩

theorem test_witness_ReservedWordRefused :
    ((dev 1).placeCommand 0x0400000000000001).nextTurn = .host 0x0400000000000001 ∧
    Packet.wellFormed (.command 0x0400000000000001) = false := ⟨rfl, by decide⟩

/-- Both agents, with and without an enabled step. -/
theorem test_witness_AgentTakesItsEnabledStep :
    { dev 1 with turns := [.timer] }.nextTurn = .timer ∧ { white 0 .odd false with turns := [.timer] }.nextTurn = .timer ∧
    { dev 1 with turns := [.refill] }.nextTurn = .refill ∧ { white 144 .start true with turns := [.refill] }.nextTurn = .refill :=
  ⟨rfl, rfl, rfl, rfl⟩

theorem test_witness_StepNotEnabledHasNoTransition :
    State.reset.timEn = false ∧ (white 0 .even false).timPhase ≠ .start ∧ (white 0 .start false).timPhase = .start ∧
    State.reset.halfDonePending = false := by decide

theorem test_witness_PowerOnState :
    isHostStep .triggerUpdate = true ∧ ∀ maxLeds pin drive, Instr.triggerUpdate ≠ .init maxLeds pin drive :=
  ⟨rfl, fun _ _ _ h => by cases h⟩

/-- The smallest and the largest count, the lowest and the highest pin. -/
theorem test_witness_InitConstructsTheDevice :
    State.reset.initialized = false ∧ State.reset.halted = false ∧ 1 ≤ (1#16).toNat ∧ (1024#16).toNat ≤ 1024 ∧ 0 < 16 ∧ 15 < 16 := by
  decide

theorem test_witness_PinMaskDerivation : 15 < 16 ∧ 0x8000#16 = 1#16 <<< 15 ∧ 0 < 16 ∧ 0x0001#16 = 1#16 <<< 0 := by decide

/-- Each way a configuration is invalid, at the edge of its range, and an INIT that answers the error. -/
theorem test_witness_InvalidConfiguration :
    State.reset.initialized = false ∧ State.reset.halted = false ∧ (0#16).toNat < 1 ∧ 1024 < (1025#16).toNat ∧
    popcount16 0x0003 ≠ 1 ∧ popcount16 0x0000 ≠ 1 ∧
    ∃ t, exec (.init 1025 0x0001 0) State.reset = .next t ∧
      (decide (State.reset.lastStatus ≠ .invalidConfiguration ∧ t.lastStatus = .invalidConfiguration)) = true :=
  ⟨by decide, by decide, by decide, by decide, by decide, by decide, exists_next_with (by decide +kernel)⟩

theorem test_witness_InitCheckOrder :
    (∃ t, exec .triggerUpdate State.reset = .next t) ∧ State.reset.lastStatus ≠ .allocationFailure :=
  ⟨⟨_, rfl⟩, by decide⟩

theorem test_witness_FailedInitMayBeRetried :
    State.reset.initialized = false ∧ State.reset.halted = false ∧
    (∃ t, exec (.init 0 0x0020 0) State.reset = .next t ∧ (decide (t.lastStatus ≠ .ok)) = true) ∧
    1 ≤ (1024#16).toNat ∧ (1024#16).toNat ≤ 1024 ∧ 15 < 16 :=
  ⟨rfl, rfl, exists_next_with (by decide +kernel), by decide, by decide, by decide⟩

/-- The first and the last pixel of a Device of 1024. -/
theorem test_witness_SetWritesOnePixel :
    (dev 1024).initialized = true ∧ (dev 1024).halted = false ∧ (0#16).toNat < (dev 1024).capacity.toNat ∧
    (1023#16).toNat < (dev 1024).capacity.toNat := by decide

/-- The first index that is out of range, and the largest expressible one. -/
theorem test_witness_SetOutOfRangeHalts :
    (dev 1024).initialized = true ∧ (dev 1024).halted = false ∧ (dev 1024).capacity.toNat ≤ (1024#16).toNat ∧
    (dev 1024).capacity.toNat ≤ (0xFFFF#16).toNat ∧ isHostStep (.setAll 0 0 0) = true ∧
    { dev 1024 with halted := true }.halted = true := by decide

theorem test_witness_SetAllWritesEveryPixel : (dev 1).initialized = true ∧ (dev 1).halted = false := by decide

theorem test_witness_SetAllIsEverySet :
    (dev 2).initialized = true ∧ (dev 2).halted = false ∧ 1 ≤ (dev 2).capacity.toNat ∧ Memory.wf (dev 2).pix ∧
    ([1#16, 0#16].map BitVec.toNat).Perm (List.range (dev 2).capacity.toNat) :=
  ⟨rfl, rfl, by decide, (dev_ok (by decide) (by decide)).pix_holds.wf, by decide⟩

theorem test_witness_StreamBitOrder :
    Memory.read red.pix (7 / 8) = some 0xFF ∧ Memory.read red.pix (23 / 8) = some 0 ∧
    red.initialized = true ∧ red.halted = false ∧ (0#16).toNat < red.capacity.toNat ∧
    (∃ t, exec (.set 0 1 2 3) red = .next t) ∧ 24 / 24 ≠ (0#16).toNat :=
  ⟨by decide, by decide, rfl, rfl, by decide, ⟨_, rfl⟩, by decide⟩

theorem test_witness_HostStepRefusedExactlyWhen :
    isHostStep (.init 1 1 0) = true ∧ (∃ t, exec (.init 1 1 0) (dev 1) = .next t) ∧ isHostStep (.set 0 0 0 0) = true ∧
    (∃ t, exec (.set 0 0 0 0) (dev 1) = .next t) :=
  ⟨rfl, ⟨_, rfl⟩, rfl, ⟨_, rfl⟩⟩

theorem test_witness_ReadAfterWrite :
    0 < (dev 1).spaceSize .pix ∧ 2 < (dev 1).spaceSize .pix ∧ 287 < (dev 1).spaceSize (.wb true) ∧ 0 < (dev 1).spaceSize .isb ∧
    (dev 1).canonical :=
  ⟨by decide, by decide, by decide, by decide, (dev_consistent (by decide) (by decide)).canonical⟩

theorem test_witness_ReadOfNoByteFaults :
    (dev 1).spaceSize .pix ≤ 3 ∧ State.reset.spaceSize (.wb false) ≤ 288 ∧ 287 < State.reset.spaceSize (.wb false) ∧
    Memory.read (State.reset.mem (.wb false)) 287 = none := by decide

/-- A Device before its first byte, and one with nothing left to encode. -/
theorem test_witness_EncodeHalfResult :
    (dev 7).capacity.toNat ≤ 1024 ∧ Memory.Holds (dev 7).pix (3 * (dev 7).capacity.toNat) ∧
    (dev 7).cursor.toNat ≤ 3 * (dev 7).capacity.toNat ∧
    { dev 7 with cursor := 21 }.cursor.toNat ≤ 3 * { dev 7 with cursor := 21 }.capacity.toNat :=
  ⟨by decide, (dev_ok (by decide) (by decide)).pix_holds, by decide, by decide⟩

theorem test_witness_EncodedHalfDecodesBack :
    red.capacity.toNat ≤ 1024 ∧ Memory.Holds red.pix (3 * red.capacity.toNat) ∧ red.cursor.toNat ≤ 3 * red.capacity.toNat ∧
    red.mask ≠ 0 ∧ (∃ t, red.encodeHalf false = .ok t) ∧ 8 * red.cursor.toNat + 23 < 24 * red.capacity.toNat :=
  ⟨by decide, by decide, by decide, by decide, ⟨_, rfl⟩, by decide⟩

theorem test_witness_KeepStaleLeavesTheTail :
    red.capacity.toNat ≤ 1024 ∧ (∃ t, red.encodeHalfWith .keepStale false = .ok t) ∧
    24 * red.capacity.toNat ≤ 8 * red.cursor.toNat + 24 ∧ 24 < 144 ∧ 143 < 144 :=
  ⟨by decide, ⟨_, rfl⟩, by decide, by decide, by decide⟩

theorem test_witness_FillIdleResult :
    Memory.Holds ((dev 1).mem (.wb true)) 288 ∧
    ∀ k, k < 144 → Memory.read ((dev 1).mem (.wb true)) (2 * k + 1) = some (dev 1).mask :=
  ⟨(dev_ok (by decide) (by decide)).wb1_holds, fun k hk => ((dev_ok (n := 1) (by decide) (by decide)).wb1_slots k hk).1⟩

/-- A buffer whose even slots held the mask. -/
theorem test_witness_FillLeavesNothingStale :
    (dev 1).setMem (.wb false) (Memory.evenWrites (dev 1).wb0 0 (fun _ => 0x20) 144) =
      (dev 1).setMem (.wb false) (Memory.evenWrites (dev 1).wb0 0 (fun _ => 0x20) 144) ∧
    (dev 1).capacity.toNat ≤ 1024 ∧ Memory.Holds (dev 1).pix (3 * (dev 1).capacity.toNat) ∧
    (dev 1).cursor.toNat ≤ 3 * (dev 1).capacity.toNat ∧ Memory.Holds ((dev 1).mem (.wb false)) 288 ∧
    Memory.Holds (Memory.evenWrites (dev 1).wb0 0 (fun _ => 0x20) 144) 288 ∧
    ∀ k, k < 144 → Memory.read (Memory.evenWrites (dev 1).wb0 0 (fun _ => 0x20) 144) (oddSlot k) =
      Memory.read ((dev 1).mem (.wb false)) (oddSlot k) := by
  have hd := dev_ok (n := 1) (by decide) (by decide)
  exact ⟨rfl, by decide, hd.pix_holds, by decide, hd.wb0_holds, hd.wb0_holds.evenWrites _ _ _ (by decide),
    fun k _ => Memory.read_evenWrites_odd _ _ _ _ _ (by unfold oddSlot; omega)⟩

theorem test_witness_OddSlotInvariant :
    (∃ t, exec (.init 1 0x0020 0) State.reset = .next t ∧ t.initialized = true) ∧ State.reset.initialized = false ∧
    ((dev 1).placeCommand 0x0400000000000000).initialized = true ∧
    slotsLegal (dev 1).mask ((dev 1).placeCommand 0x0400000000000000).wb0 ∧
    slotsLegal (dev 1).mask ((dev 1).placeCommand 0x0400000000000000).wb1 ∧
    (∃ t, step ((dev 1).placeCommand 0x0400000000000000) = .next t) ∧
    (∃ t, exec .refill (white 144 .start true) = .next t) :=
  ⟨exists_next_with (P := fun t => t.initialized) (by decide +kernel), rfl, rfl, (dev_ok (by decide) (by decide)).wb0_slots,
    (dev_ok (by decide) (by decide)).wb1_slots, exists_next (by decide +kernel), exists_next (by decide +kernel)⟩

/-- Both clauses: an enabled idle channel and a disabled one. -/
theorem test_witness_TickStartResult :
    (white 0 .start false).timEn = true ∧ (white 0 .start false).timPhase = .start ∧ (white 0 .start false).idleEn = true ∧
    Memory.read (white 0 .start false).isb 0 = some 0x20 ∧
    { white 0 .start false with idleEn := false }.idleEn = false := by decide

/-- The first slot, the last one, and a disabled encode channel. -/
theorem test_witness_TickSlotResult :
    (white 0 .even false).timEn = true ∧ (white 0 .even false).timPhase ≠ .start ∧ (white 0 .even false).encPos.toNat < 288 ∧
    (white 0 .even false).encEn = true ∧
    Memory.read ((white 0 .even false).mem (.wb (white 0 .even false).encCt)) (white 0 .even false).encPos.toNat = some 0x00 ∧
    (white 143 .odd false).encPos.toNat = 287 ∧
    Memory.read ((white 143 .odd false).mem (.wb (white 143 .odd false).encCt)) (white 143 .odd false).encPos.toNat = some 0x20 ∧
    { white 0 .even false with encEn := false }.encEn = false := by decide +kernel

/-- A cell of a 1 bit, and the same Device with a buffer of 0 bits. -/
theorem test_witness_BitCellWaveform :
    (white 0 .start false).timEn = true ∧ (white 0 .start false).idleEn = true ∧ (white 0 .start false).encEn = true ∧
    (white 0 .start false).timPhase = .start ∧ (white 0 .start false).mask ≠ 0 ∧
    Memory.read (white 0 .start false).isb 0 = some (white 0 .start false).mask ∧ (white 0 .start false).encPos.toNat < 287 ∧
    Memory.read (white 0 .start false).wb0 0 = some (slotFor 0x20 true) ∧ Memory.read (white 0 .start false).wb0 1 = some 0x20 ∧
    Memory.read { white 0 .start false with wb0 := Memory.ofFn 288 (fun _ => 0x20) }.wb0 0 = some (slotFor 0x20 false) ∧
    Memory.read { white 0 .start false with wb0 := Memory.ofFn 288 (fun _ => 0x20) }.wb0 1 = some 0x20 := by decide +kernel

/-- The latch set by the wrap, cleared by a REFILL, by an accepted TRIGGER_UPDATE and by INIT. -/
theorem test_witness_EventLatchSetAndCleared :
    (∃ t, exec .tickSlot (white 143 .odd false) = .next t ∧ t.halfDonePending = true) ∧
    (∃ t, exec .refill (white 144 .start true) = .next t ∧ (!t.halfDonePending) = true) ∧
    (∃ t, exec .triggerUpdate { dev 1 with halfDonePending := true } = .next t ∧ (!t.halfDonePending) = true) ∧
    (∃ t, exec (.init 1 0x0020 0) { State.reset with halfDonePending := true } = .next t ∧ (!t.halfDonePending) = true) ∧
    (white 143 .odd false).halfDonePending = false ∧ (white 144 .start true).halfDonePending = true :=
  ⟨exists_next_with (P := fun t => t.halfDonePending) (by decide +kernel),
    exists_next_with (P := fun t => !t.halfDonePending) (by decide +kernel),
    exists_next_with (P := fun t => !t.halfDonePending) (by decide +kernel),
    exists_next_with (P := fun t => !t.halfDonePending) (by decide +kernel), rfl, rfl⟩

theorem test_witness_MissedDeadlineIsStickyAndExact :
    (∃ t, exec .tickSlot (white 287 .odd true) = .next t ∧ t.refillMissed = true) ∧ (white 287 .odd true).refillMissed = false ∧
    (∃ t, exec .refill { white 144 .start true with refillMissed := true } = .next t) ∧
    { white 144 .start true with refillMissed := true }.initialized = true :=
  ⟨exists_next_with (P := fun t => t.refillMissed) (by decide +kernel), rfl, exists_next (by decide +kernel), rfl⟩

/-- A cell start, a slot, the last slot of a half with an event pending, and the REFILL that stops the timer. -/
theorem test_witness_HardwareIsAutonomous :
    (white 0 .start false).Consistent ∧ (white 0 .start false).timEn = true ∧ (white 287 .odd true).Consistent ∧
    (white 287 .odd true).timEn = true ∧ (white 287 .odd true).timPhase ≠ .start ∧ (white 287 .odd true).encPos.toNat = 287 ∧
    (white 288 .start true).initialized = true ∧ (white 288 .start true).timEn = true ∧
    (∃ t, exec .refill (white 288 .start true) = .next t ∧ (!t.timEn) = true) :=
  ⟨consistent_of rfl (white_ok (by decide)), rfl, consistent_of rfl (white_ok (by decide)), rfl, by decide, by decide, rfl, rfl,
    exists_next_with (P := fun t => !t.timEn) (by decide +kernel)⟩

theorem test_witness_EventStepsRaiseNoError :
    isHostStep .refill = false ∧ (∃ t, exec .refill (white 144 .start true) = .next t) ∧ (white 287 .odd true).DeviceOk ∧
    (white 287 .odd true).timEn = true ∧ (white 287 .odd true).timPhase = .odd ∧ (white 287 .odd true).encPos.toNat = 287 ∧
    (white 287 .odd true).halfDonePending = true :=
  ⟨rfl, exists_next (by decide +kernel), white_ok (by decide), rfl, rfl, by decide, rfl⟩

/-- The smallest and the largest Device. -/
theorem test_witness_TriggerStartsTheFrame :
    (dev 1).initialized = true ∧ (dev 1).halted = false ∧ (dev 1).inProgress = false ∧ 1 ≤ (dev 1).capacity.toNat ∧
    (dev 1024).capacity.toNat ≤ 1024 ∧ Memory.Holds (dev 1).pix (3 * (dev 1).capacity.toNat) ∧
    Memory.Holds (dev 1024).pix (3 * (dev 1024).capacity.toNat) :=
  ⟨rfl, rfl, rfl, by decide, by decide, (dev_ok (by decide) (by decide)).pix_holds, (dev_ok (by decide) (by decide)).pix_holds⟩

theorem test_witness_TriggerDuringFrameDropped :
    (white 0 .start false).initialized = true ∧ (white 0 .start false).halted = false ∧ (white 0 .start false).inProgress = true ∧
    (dev 1).inProgress = false ∧ (∃ t, exec .triggerUpdate (dev 1) = .next t ∧ t.inProgress = true) :=
  ⟨rfl, rfl, rfl, rfl, exists_next_with (P := fun t => t.inProgress) (by decide +kernel)⟩

theorem test_witness_BlackFrameSlots :
    (dev 12).Consistent ∧ (dev 12).initialized = true ∧ (dev 12).halted = false ∧ (dev 12).inProgress = false :=
  ⟨dev_consistent (by decide) (by decide), rfl, rfl, rfl⟩

/-- A REFILL before the boundary and one after it. -/
theorem test_witness_RefillFillsTheConsumedHalf :
    (fillingPending 13).halfDonePending = true ∧ ¬ ((fillingPending 13).phase = .draining ∧ 2 ≤ (fillingPending 13).drainCount.toNat) ∧
    (fillingPending 13).capacity.toNat ≤ 1024 ∧ Memory.Holds (fillingPending 13).pix (3 * (fillingPending 13).capacity.toNat) ∧
    (fillingPending 13).cursor.toNat ≤ 3 * (fillingPending 13).capacity.toNat ∧ (fillingPending 13).endReached = false ∧
    (white 144 .start true).halfDonePending = true ∧ (white 144 .start true).drainCount.toNat = 1 ∧
    Memory.Holds (white 144 .start true).pix (3 * (white 144 .start true).capacity.toNat) ∧
    (white 144 .start true).cursor.toNat ≤ 3 * (white 144 .start true).capacity.toNat ∧ (white 144 .start true).endReached = true := by
  decide +kernel

theorem test_witness_RefillEndsTheFrame :
    (white 288 .start true).halfDonePending = true ∧ (white 288 .start true).phase = .draining ∧
    2 ≤ (white 288 .start true).drainCount.toNat := by decide +kernel

/-- Every row of the table of phases. -/
theorem test_witness_PhaseTransitions :
    ((dev 13).Consistent ∧ (dev 12).Consistent ∧ (fillingPending 19).Consistent ∧ (fillingPending 13).Consistent ∧
      { fillingPending 13 with phase := .streaming }.Consistent ∧ (white 288 .start true).Consistent) ∧
    (∃ t, exec .triggerUpdate (dev 13) = .next t ∧ (t.phase == .fillingFirstHalf) = true) ∧
    (∃ t, exec .triggerUpdate (dev 12) = .next t ∧ (t.phase == .draining) = true) ∧
    (∃ t, exec .refill (fillingPending 19) = .next t ∧ (t.phase == .streaming) = true) ∧
    (∃ t, exec .refill (fillingPending 13) = .next t ∧ (t.phase == .draining) = true) ∧
    (∃ t, exec .refill { fillingPending 13 with phase := .streaming } = .next t ∧ (t.phase == .draining) = true) ∧
    (∃ t, exec .refill (white 288 .start true) = .next t ∧ (t.phase == .idle) = true) ∧
    ((dev 12).phase = .idle ∧ (dev 12).halted = false ∧ (dev 12).capacity.toNat = 12 ∧ (dev 13).capacity.toNat = 13) ∧
    ((fillingPending 13).phase ≠ .idle ∧ (fillingPending 13).halfDonePending = true ∧ (fillingPending 13).phase = .fillingFirstHalf) ∧
    ((white 144 .start true).Consistent ∧ (white 144 .start true).phase = .draining ∧ (white 144 .start true).halfDonePending = true ∧
      (white 144 .start true).drainCount.toNat = 1 ∧ (white 288 .start true).drainCount.toNat = 2) :=
  ⟨⟨dev_consistent (by decide) (by decide), dev_consistent (by decide) (by decide),
      consistent_of rfl (filling_ok (by decide) (by decide)).2.1, consistent_of rfl (filling_ok (by decide) (by decide)).2.1,
      consistent_of rfl (filling_ok (by decide) (by decide)).2.2, consistent_of rfl (white_ok (by decide))⟩,
    exists_next_with (P := fun t => t.phase == .fillingFirstHalf) (by decide +kernel),
    exists_next_with (P := fun t => t.phase == .draining) (by decide +kernel),
    exists_next_with (P := fun t => t.phase == .streaming) (by decide +kernel),
    exists_next_with (P := fun t => t.phase == .draining) (by decide +kernel),
    exists_next_with (P := fun t => t.phase == .draining) (by decide +kernel),
    exists_next_with (P := fun t => t.phase == .idle) (by decide +kernel), by decide, by decide,
    consistent_of rfl (white_ok (by decide)), rfl, rfl, by decide, by decide⟩

theorem test_witness_HalfBeingReadIsNotWritten :
    (fillingPending 13).Consistent ∧ (fillingPending 13).timEn = true ∧ (fillingPending 13).refillMissed = false ∧
    (∃ t, exec .refill (fillingPending 13) = .next t) ∧ (∃ t, exec (.set 0 1 2 3) (fillingPending 13) = .next t) :=
  ⟨consistent_of rfl (filling_ok (by decide) (by decide)).2.1, rfl, rfl, exists_next (by decide +kernel), exists_next (by decide +kernel)⟩

/-- A REFILL in a frame, a new frame on a Device whose last one left `cursor` at its end, and a dropped trigger. -/
theorem test_witness_CursorMonotone :
    (fillingPending 13).Consistent ∧ (fillingPending 13).initialized = true ∧ (fillingPending 13).inProgress = true ∧
    (∃ t, exec .refill (fillingPending 13) = .next t) ∧
    { devOf 13 0 with cursor := 39 }.Consistent ∧
    (∃ t, exec .triggerUpdate { devOf 13 0 with cursor := 39 } = .next t ∧ (decide (t.cursor.toNat < 39)) = true) ∧
    { devOf 13 0 with cursor := 39 }.halted = false ∧ { devOf 13 0 with cursor := 39 }.inProgress = false ∧
    (∃ t, exec .triggerUpdate (fillingPending 13) = .next t) ∧
    (∃ t, exec .triggerUpdate { devOf 13 0 with cursor := 39, halted := true } = .next t) ∧
    { devOf 13 0 with cursor := 39, halted := true }.halted = true :=
  ⟨consistent_of rfl (filling_ok (by decide) (by decide)).2.1, rfl, rfl, exists_next (by decide +kernel),
    consistent_of rfl (by
      have hd := devOf_ok (n := 13) 0 (by decide) (by decide)
      obtain ⟨⟩ := hd
      constructor <;> first | assumption | exact Nat.le_refl 39 | (intro h; cases h)),
    exists_next_with (P := fun t => decide (t.cursor.toNat < 39)) (by decide +kernel), rfl, rfl, exists_next (by decide +kernel),
    exists_next (by decide +kernel), rfl⟩

theorem test_witness_ConstructionParametersFixed :
    (∃ t, exec (.init 1 0x0020 0) State.reset = .next t ∧ t.initialized = true) ∧ State.reset.initialized = false ∧
    ((dev 1).placeCommand 0x0200000000123456).initialized = true ∧
    (∃ t, step ((dev 1).placeCommand 0x0200000000123456) = .next t) ∧
    Memory.Holds ((dev 1).placeCommand 0x0200000000123456).pix (3 * (dev 1).capacity.toNat) :=
  ⟨exists_next_with (P := fun t => t.initialized) (by decide +kernel), rfl, rfl, exists_next (by decide +kernel),
    (dev_ok (by decide) (by decide)).pix_holds⟩

theorem test_witness_InProgressLifetime :
    (dev 1).initialized = true ∧ (dev 1).halted = false ∧ (dev 1).inProgress = false ∧
    (∃ t, exec .triggerUpdate (dev 1) = .next t ∧ t.inProgress = true) ∧ (white 288 .start true).initialized = true ∧
    (white 288 .start true).inProgress = true ∧ (white 288 .start true).phase = .draining ∧
    2 ≤ (white 288 .start true).drainCount.toNat ∧
    (∃ t, exec .refill (white 288 .start true) = .next t ∧ (!t.inProgress) = true) ∧
    (∃ t, exec .triggerUpdate (white 288 .start true) = .next t) :=
  ⟨rfl, rfl, rfl, exists_next_with (P := fun t => t.inProgress) (by decide +kernel), rfl, rfl, rfl, by decide,
    exists_next_with (P := fun t => !t.inProgress) (by decide +kernel), exists_next (by decide +kernel)⟩

theorem test_witness_HostCannotDisturbAFrame :
    isHostStep (.set 0 0 0 0) = true ∧ (white 0 .start false).initialized = true ∧ (white 0 .start false).inProgress = true ∧
    (∃ t, exec (.set 0 0 0 0) (white 0 .start false) = .next t ∧ (decide (t.pix ≠ (white 0 .start false).pix)) = true) :=
  ⟨rfl, rfl, rfl, exists_next_with (P := fun t => decide (t.pix ≠ (white 0 .start false).pix)) (by decide +kernel)⟩

theorem test_witness_HostStepsComplete :
    State.reset.Consistent ∧ (white 0 .start false).Consistent ∧ isHostStep .triggerUpdate = true :=
  ⟨⟨by decide, fun _ => by constructor <;> rfl, fun h => by cases h⟩, consistent_of rfl (white_ok (by decide)), rfl⟩

theorem test_witness_PinModeAndLaneUnread :
    (∀ maxLeds pinMask16 drive, Instr.tickStart ≠ .init maxLeds pinMask16 drive) ∧
    ∃ t, exec .tickStart (white 0 .start false) = .next t :=
  ⟨(fun _ _ _ h => by cases h), exists_next (by decide +kernel)⟩

theorem test_witness_CanonicalMemoriesKept :
    ((dev 1).placeCommand 0x0400000000000000).canonical ∧ ∃ t, step ((dev 1).placeCommand 0x0400000000000000) = .next t :=
  ⟨(dev_consistent (n := 1) (by decide) (by decide)).canonical, exists_next (by decide +kernel)⟩

/-- A host turn, and a turn of the hardware during a frame. -/
theorem test_witness_ConsistentKept :
    ((dev 1).placeCommand 0x0400000000000000).Consistent ∧ (∃ t, step ((dev 1).placeCommand 0x0400000000000000) = .next t) ∧
    { white 287 .odd true with turns := [.timer] }.Consistent ∧
    (∃ t, step { white 287 .odd true with turns := [.timer] } = .next t) :=
  ⟨consistent_of rfl (by
      have hd := dev_ok (n := 1) (by decide) (by decide)
      obtain ⟨⟩ := hd
      constructor <;> assumption), exists_next (by decide +kernel),
    consistent_of rfl (by
      have hd := white_ok (cells := 287) (p := .odd) (pending := true) (by decide)
      obtain ⟨⟩ := hd
      constructor <;> assumption), exists_next (by decide +kernel)⟩

theorem test_witness_ConsistentStateSteps : State.reset.Consistent ∧ (white 288 .start true).Consistent :=
  ⟨⟨by decide, fun _ => by constructor <;> rfl, fun h => by cases h⟩, consistent_of rfl (white_ok (by decide))⟩

/-- The last slot of the first half of a frame, the timer's turn. -/
theorem test_witness_FrameInvariantKept :
    { white 143 .odd false with turns := [.timer] }.FrameInv ∧
    ∃ t, step { white 143 .odd false with turns := [.timer] } = .next t := by
  have hf := white_frame (cells := 143) (p := .odd) (pending := false) (by decide) (by decide)
  have hd := hf.consistent.after rfl
  refine ⟨⟨consistent_of rfl (by obtain ⟨⟩ := hd; constructor <;> assumption), fun _ _ _ => ?_⟩, exists_next (by decide +kernel)⟩
  exact State.frameOk_congr (hf.frame rfl rfl rfl) rfl rfl rfl rfl rfl rfl rfl rfl rfl rfl (fun h => by cases h <;> rfl) rfl rfl rfl

theorem test_witness_HardwarePositionInTheFrame :
    (white 143 .odd false).FrameInv ∧ (white 143 .odd false).initialized = true ∧ (white 143 .odd false).inProgress = true ∧
    (white 143 .odd false).frameSound = true ∧ (∃ t, exec .tickSlot (white 143 .odd false) = .next t) ∧
    (white 0 .even false).FrameInv ∧ (∃ t, exec .tickSlot (white 0 .even false) = .next t) :=
  ⟨white_frame (by decide) (by decide), rfl, rfl, by decide, exists_next (by decide +kernel), white_frame (by decide) (by decide),
    exists_next (by decide +kernel)⟩

/-- The REFILL of event 1, which goes on, and that of event 2, which ends the frame. -/
theorem test_witness_FrameEndsAtItsEvent :
    (white 144 .start true).FrameInv ∧ (white 144 .start true).frameSound = true ∧
    (∃ t, exec .refill (white 144 .start true) = .next t ∧ t.inProgress = true) ∧
    (white 288 .start true).FrameInv ∧ (white 288 .start true).frameSound = true ∧
    (∃ t, exec .refill (white 288 .start true) = .next t ∧ (!t.inProgress) = true) :=
  ⟨white_frame (by decide) (by decide), by decide, exists_next_with (P := fun t => t.inProgress) (by decide +kernel),
    white_frame (by decide) (by decide), rfl, exists_next_with (P := fun t => !t.inProgress) (by decide +kernel)⟩

/-- At the event itself, and at the latest moment, in the last cell of the guard half. -/
theorem test_witness_FrameDelivered :
    (white 288 .start true).FrameInv ∧ (white 288 .start true).initialized = true ∧ (white 288 .start true).frameSound = true ∧
    (∃ t, exec .refill (white 288 .start true) = .next t ∧ (!t.inProgress) = true) ∧
    (white 431 .odd true).FrameInv ∧ (white 431 .odd true).frameSound = true ∧
    (∃ t, exec .refill (white 431 .odd true) = .next t ∧ (!t.inProgress) = true) :=
  ⟨white_frame (by decide) (by decide), rfl, by decide, exists_next_with (P := fun t => !t.inProgress) (by decide +kernel),
    white_frame (by decide) (by decide), rfl, exists_next_with (P := fun t => !t.inProgress) (by decide +kernel)⟩

end Sys2Proof.Tests
end

section
/-!
PROOFS. The state's invariants (10_state.md R31 to R35): what every step of a Device keeps, where `cursor` goes, and how
long `in_progress` lasts.
-/

namespace Sys2Proof.Machine

/-! ### What the encode channel's pointer and the end of a frame leave alone -/

section
variable (s : State)
@[simp] theorem State.advanceSlot_initialized : s.advanceSlot.initialized = s.initialized := by unfold State.advanceSlot; split <;> rfl
@[simp] theorem State.advanceSlot_capacity : s.advanceSlot.capacity = s.capacity := by unfold State.advanceSlot; split <;> rfl
@[simp] theorem State.advanceSlot_cursor : s.advanceSlot.cursor = s.cursor := by unfold State.advanceSlot; split <;> rfl
@[simp] theorem State.advanceSlot_inProgress : s.advanceSlot.inProgress = s.inProgress := by unfold State.advanceSlot; split <;> rfl
@[simp] theorem State.advanceSlot_mask : s.advanceSlot.mask = s.mask := by unfold State.advanceSlot; split <;> rfl
@[simp] theorem State.advanceSlot_pinLane : s.advanceSlot.pinLane = s.pinLane := by unfold State.advanceSlot; split <;> rfl
@[simp] theorem State.advanceSlot_pinMode : s.advanceSlot.pinMode = s.pinMode := by unfold State.advanceSlot; split <;> rfl

@[simp] theorem State.finishFrame_initialized : s.finishFrame.initialized = s.initialized := by simp [State.finishFrame, State.stop]
@[simp] theorem State.finishFrame_capacity : s.finishFrame.capacity = s.capacity := by simp [State.finishFrame, State.stop]
@[simp] theorem State.finishFrame_cursor : s.finishFrame.cursor = s.cursor := by simp [State.finishFrame, State.stop]
@[simp] theorem State.finishFrame_inProgress : s.finishFrame.inProgress = false := rfl
@[simp] theorem State.finishFrame_mask : s.finishFrame.mask = s.mask := by simp [State.finishFrame, State.stop]
@[simp] theorem State.finishFrame_timEn : s.finishFrame.timEn = false := by simp [State.finishFrame, State.stop]
@[simp] theorem State.finishFrame_idleEn : s.finishFrame.idleEn = false := by simp [State.finishFrame, State.stop]
@[simp] theorem State.finishFrame_encEn : s.finishFrame.encEn = false := by simp [State.finishFrame, State.stop]
@[simp] theorem State.finishFrame_pinLane : s.finishFrame.pinLane = s.pinLane := by simp [State.finishFrame, State.stop]
@[simp] theorem State.finishFrame_pinMode : s.finishFrame.pinMode = s.pinMode := by simp [State.finishFrame, State.stop]
end

/-! ### What the fills write -/

/-- Slots stay legal when legal values are written into any run of even slots (rules R93, R153). -/
theorem slotsLegal.evenWrites {mask : Byte} {m : Memory} (hl : slotsLegal mask m) (k n : Nat) {f : Nat → Byte}
    (hf : ∀ i, f i = 0 ∨ f i = mask) : slotsLegal mask (Memory.evenWrites m k f n) := by
  intro c hc
  obtain ⟨hodd, heven⟩ := hl c hc
  refine ⟨?_, ?_⟩
  · rw [Memory.read_evenWrites_odd _ _ _ _ _ (by unfold oddSlot; omega)]; exact hodd
  · rw [Memory.read_evenWrites]
    split
    · rcases hf (c - k) with h | h <;> simp [h]
    · exact heven

/-- ENCODE_HALF's loop writes only 0 and the mask, whatever state it starts from (rules R91, R151). -/
theorem State.encodeBytes_slotsLegal (n : Nat) : ∀ {s t : State} {h : Half} {k k' : Nat},
    s.encodeBytes h k n = .ok (k', t) → slotsLegal s.mask (s.mem (.wb h)) → slotsLegal s.mask (t.mem (.wb h)) := by
  induction n with
  | zero =>
    intro s t h k k' hr hl
    simp only [State.encodeBytes, Except.ok.injEq, Prod.mk.injEq] at hr
    rwa [← hr.2]
  | succ n ih =>
    intro s t h k k' hr hl
    unfold State.encodeBytes at hr
    split at hr
    · split at hr
      · next v _ =>
        rw [State.encodeByte_eq] at hr
        have hbyte := hl.evenWrites k 8 (f := fun j => slotFor s.mask (byteBit v j))
          (fun j => by unfold slotFor; split <;> simp)
        simpa using ih hr (by simpa using hbyte)
      · cases hr
    · simp only [Except.ok.injEq, Prod.mk.injEq] at hr
      rwa [← hr.2]

/-- FILL writes only 0 and the mask, whatever state it starts from (rules R156, R157, R158). -/
theorem State.fill_slotsLegal {s t : State} {h : Half} (hr : s.fill h = .ok t)
    (hl : slotsLegal s.mask (s.mem (.wb h))) : slotsLegal s.mask (t.mem (.wb h)) := by
  unfold State.fill at hr
  split at hr
  · injection hr with hr
    subst hr
    simpa [State.fillIdle_eq] using hl.evenWrites 0 144 (fun _ => .inl rfl)
  · unfold State.encodeHalf State.encodeHalfWith at hr
    split at hr
    · next k u hu =>
      injection hr with hr
      subst hr
      simpa [Config.tailPolicy, State.padTail, State.writeEvenSlots_eq] using
        (State.encodeBytes_slotsLegal _ hu hl).evenWrites k (Config.cellsPerHalf - k) (fun _ => .inl rfl)
    · cases hr

/-- The prefill is two fills, buffer 0 first, of the rewound Device (rules R201, R203). -/
theorem State.prefill_fills {s u : State} (hu : s.prefill = .ok u) :
    ∃ v, s.rewind.fill false = .ok v ∧ v.fill true = .ok u := by
  unfold State.prefill at hu
  split at hu
  · next v hv => exact ⟨v, hv, hu⟩
  · cases hu

/-! ### What every step of a Device keeps -/

/-- What `t` has kept of the Device `s`: the parameters of its construction (rules R31, R127), the size of its pixel store,
and of its waveform buffers everything but the even slots, in which 0 and the mask remain the only values (rule R35). -/
structure State.KeepsDevice (s t : State) : Prop where
  initialized : t.initialized = s.initialized
  capacity : t.capacity = s.capacity
  mask : t.mask = s.mask
  isb : t.isb = s.isb
  pinLane : t.pinLane = s.pinLane
  pinMode : t.pinMode = s.pinMode
  pix_holds : Memory.Holds s.pix (3 * s.capacity.toNat) → Memory.Holds t.pix (3 * s.capacity.toNat)
  onlyEven : ∀ h, Memory.OnlyEven (s.mem (.wb h)) (t.mem (.wb h))
  slots : ∀ h, slotsLegal s.mask (s.mem (.wb h)) → slotsLegal s.mask (t.mem (.wb h))

namespace State.KeepsDevice

/-- An update that touches neither the parameters nor a memory. -/
theorem of_mem_eq {s t : State} (hinit : t.initialized = s.initialized) (hcap : t.capacity = s.capacity)
    (hmask : t.mask = s.mask) (hlane : t.pinLane = s.pinLane) (hmode : t.pinMode = s.pinMode)
    (hmem : ∀ sp, t.mem sp = s.mem sp) : s.KeepsDevice t where
  initialized := hinit
  capacity := hcap
  mask := hmask
  isb := hmem .isb
  pinLane := hlane
  pinMode := hmode
  pix_holds hp := by rwa [show t.pix = s.pix from hmem .pix]
  onlyEven h := by rw [hmem]; exact Memory.OnlyEven.refl _
  slots h hl := by rwa [hmem]

theorem trans {s t u : State} (hst : s.KeepsDevice t) (htu : t.KeepsDevice u) : s.KeepsDevice u where
  initialized := htu.initialized.trans hst.initialized
  capacity := htu.capacity.trans hst.capacity
  mask := htu.mask.trans hst.mask
  isb := htu.isb.trans hst.isb
  pinLane := htu.pinLane.trans hst.pinLane
  pinMode := htu.pinMode.trans hst.pinMode
  pix_holds hp := by
    have ht := htu.pix_holds
    rw [hst.capacity] at ht
    exact ht (hst.pix_holds hp)
  onlyEven h := (hst.onlyEven h).trans (htu.onlyEven h)
  slots h hl := by
    have ht := htu.slots h
    rw [hst.mask] at ht
    exact ht (hst.slots h hl)

/-- A response to the host. -/
theorem respond (s : State) (st : Status) : s.KeepsDevice (s.respond st) :=
  of_mem_eq rfl rfl rfl rfl rfl (fun _ => rfl)

/-- A pixel write that lists no new byte of a complete pixel store. -/
theorem writePix {s : State} {m : Memory}
    (hm : Memory.Holds s.pix (3 * s.capacity.toNat) → Memory.Holds m (3 * s.capacity.toNat)) :
    s.KeepsDevice (s.setMem .pix m).taintFrame.complete where
  initialized := rfl
  capacity := rfl
  mask := rfl
  isb := rfl
  pinLane := rfl
  pinMode := rfl
  pix_holds := hm
  onlyEven h := by simpa using Memory.OnlyEven.refl _
  slots h hl := by simpa using hl

/-- FILL of one half, in every state in which it succeeds. -/
theorem fill {s t : State} {h : Half} (hr : s.fill h = .ok t) : s.KeepsDevice t := by
  have hslots := State.fill_slotsLegal hr
  obtain ⟨m, c, e, d, rfl, hm⟩ := State.fill_shape hr
  have hother : ∀ g, h ≠ g → (s.afterFill h m c e d).mem (.wb g) = s.mem (.wb g) :=
    fun g hg => State.afterFill_mem_other _ _ _ _ _ _ (fun hc => hg (Space.wb.inj hc))
  exact {
    initialized := by simp
    capacity := by simp
    mask := by simp
    isb := by simp
    pinLane := by simp
    pinMode := by simp
    pix_holds := by simp
    onlyEven := fun g => by
      by_cases hg : h = g
      · subst hg; simpa using hm
      · rw [hother g hg]; exact Memory.OnlyEven.refl _
    slots := fun g hl => by
      by_cases hg : h = g
      · subst hg; exact hslots hl
      · rwa [hother g hg] }

/-- An accepted TRIGGER_UPDATE: the rewound pointers, two fills, and the launch. -/
theorem trigger {s u : State} (hu : s.prefill = .ok u) : s.KeepsDevice u.launch := by
  obtain ⟨v, hv, hu⟩ := State.prefill_fills hu
  have hrewind : s.KeepsDevice s.rewind := of_mem_eq rfl rfl rfl rfl rfl (by simp)
  have hlaunch : u.KeepsDevice u.launch := of_mem_eq rfl rfl rfl rfl rfl (State.launch_mem u)
  exact ((hrewind.trans (fill hv)).trans (fill hu)).trans hlaunch

/-- REFILL: the drain's end touches no memory, and every other REFILL is one fill. -/
theorem refill {s t : State} (h : execRefill s = .next t) : s.KeepsDevice t := by
  obtain ⟨-, ⟨-, rfl⟩ | ⟨-, u, hu, rfl⟩⟩ := execRefill_cases h
  · exact of_mem_eq (by simp) (by simp) (by simp) (by simp) (by simp) (by simp [State.finishFrame_mem])
  · have htoggle : s.KeepsDevice s.toggleActive := of_mem_eq rfl rfl rfl rfl rfl (by simp)
    exact (htoggle.trans (fill hu)).trans (of_mem_eq rfl rfl rfl rfl rfl (by simp))

end State.KeepsDevice

/-- INIT is refused once a Device exists (rule R125). -/
theorem execInit_refused {maxLeds pinMask16 : BitVec 16} {drive : BitVec 1} {s t : State}
    (h : execInit maxLeds pinMask16 drive s = .next t) (hs : s.initialized = true) : t = s.refuse := by
  rcases execInit_cases h with ⟨-, rfl⟩ | ⟨hno, -⟩ | ⟨hno, -⟩
  · rfl
  · simp [hs] at hno
  · simp [hs] at hno

/-- Every step but the INIT that constructs a Device keeps the Device, in every state. -/
theorem exec_keepsDevice {i : Instr} {s t : State}
    (hi : s.initialized = true ∨ ∀ maxLeds pinMask16 drive, i ≠ .init maxLeds pinMask16 drive)
    (h : exec i s = .next t) : s.KeepsDevice t := by
  cases i with
  | init maxLeds pinMask16 drive =>
    have hinit : s.initialized = true := hi.resolve_right (fun hne => hne _ _ _ rfl)
    rw [execInit_refused h hinit]
    exact .respond s _
  | set index r g b =>
    rcases execSet_cases h with ⟨-, rfl⟩ | ⟨-, -, rfl⟩ | ⟨-, hlt, rfl⟩
    · exact .respond s _
    · exact .of_mem_eq rfl rfl rfl rfl rfl (by simp)
    · rw [State.writePixel_eq]
      exact .writePix (fun hp => hp.pixelWrite (by omega) r g b)
  | setAll r g b =>
    rcases execSetAll_cases h with ⟨-, rfl⟩ | ⟨-, rfl⟩
    · exact .respond s _
    · rw [State.writePixels_eq]
      exact .writePix (fun hp => hp.pixelWrites r g b (Nat.le_refl _))
  | triggerUpdate =>
    rcases execTriggerUpdate_cases h with ⟨-, rfl⟩ | ⟨-, -, rfl⟩ | ⟨-, -, u, hu, rfl⟩
    · exact .respond s _
    · exact .respond s _
    · exact .trigger hu
  | tickStart =>
    obtain ⟨-, -, ⟨-, v, -, rfl⟩ | ⟨-, rfl⟩⟩ := execTickStart_cases h
    · exact .of_mem_eq (by simp) (by simp) (by simp) (by simp) (by simp) (by simp)
    · exact .of_mem_eq rfl rfl rfl rfl rfl (by simp)
  | tickSlot =>
    obtain ⟨-, -, ⟨-, v, -, rfl⟩ | ⟨-, rfl⟩⟩ := execTickSlot_cases h
    · exact .of_mem_eq (by simp) (by simp) (by simp) (by simp) (by simp) (by simp [State.advanceSlot_mem])
    · exact .of_mem_eq rfl rfl rfl rfl rfl (by simp)
  | refill => exact .refill h

/-- Every step of a Device keeps it. -/
theorem step_keepsDevice {s t : State} (hs : s.initialized = true) (h : step s = .next t) : s.KeepsDevice t := by
  have hturn : s.KeepsDevice s.takeTurn :=
    .of_mem_eq (by simp) (by simp) (by simp) (by simp) (by simp) (by simp)
  rcases step_cases h with ⟨i, -, he⟩ | ⟨-, rfl⟩ | ⟨-, rfl⟩
  · exact hturn.trans (exec_keepsDevice (.inl (by simpa using hs)) he)
  · exact hturn.trans (.respond _ _)
  · exact hturn

/-- The INIT after which a Device exists is the one that found legal operands and constructed it (rules R120, R124). -/
theorem execInit_constructed {maxLeds pinMask16 : BitVec 16} {drive : BitVec 1} {s t : State}
    (h : execInit maxLeds pinMask16 drive s = .next t) (hs : s.initialized = false) (ht : t.initialized = true) :
    initVerdict Config.pixelRamLeds maxLeds pinMask16 = .ok ∧ t = (s.construct maxLeds pinMask16 drive).complete := by
  rcases execInit_cases h with ⟨-, rfl⟩ | ⟨-, -, -, rfl⟩ | ⟨-, -, hv, rfl⟩
  · simp [hs] at ht
  · simp [hs] at ht
  · exact ⟨hv, rfl⟩

/-- A legal `max_leds` fits the capacity register (rule R22). -/
theorem State.construct_capacity_toNat (s : State) {maxLeds : BitVec 16} (pinMask16 : BitVec 16) (drive : BitVec 1)
    (h : maxLeds.toNat ≤ 1024) : (s.construct maxLeds pinMask16 drive).capacity.toNat = maxLeds.toNat := by
  show (maxLeds.setWidth 11).toNat = _
  rw [BitVec.toNat_setWidth]
  exact Nat.mod_eq_of_lt (by omega)

/-- Settles O29: INIT lays down the idle pattern, a step of a Device writes 0 or the mask into even slots only. -/
theorem oddSlotInvariant : Obligations.OddSlotInvariant := by
  refine ⟨?_, ?_, ?_⟩
  · intro s t maxLeds pinMask16 drive h hs ht
    obtain ⟨-, rfl⟩ := execInit_constructed h hs ht
    exact ⟨idlePattern_slots _, idlePattern_slots _⟩
  · rintro s t hs ⟨h0, h1⟩ h
    have hk := step_keepsDevice hs h
    rw [hk.mask]
    exact ⟨hk.slots false h0, hk.slots true h1⟩
  · intro i s t hi h half a ha
    obtain ⟨-, hread⟩ := (exec_keepsDevice (.inr hi) h).onlyEven half
    exact hread a (.inl ha)

/-- Settles O48: INIT sizes the pixel store by `max_leds`, and every step of a Device keeps what construction fixed. -/
theorem constructionParametersFixed : Obligations.ConstructionParametersFixed := by
  refine ⟨?_, ?_⟩
  · intro s t maxLeds pinMask16 drive h hs ht
    obtain ⟨hv, rfl⟩ := execInit_constructed h hs ht
    obtain ⟨hpos, hle, -, -⟩ := initVerdict_ok hv
    exact ⟨State.construct_capacity_toNat s pinMask16 drive hle, (State.construct_ok hpos hle).pix_holds⟩
  · intro s t hs h
    have hk := step_keepsDevice hs h
    refine ⟨hk.initialized.trans hs, hk.capacity, ?_, hk.mask, hk.isb, hk.pinLane, hk.pinMode⟩
    rw [hk.capacity]
    exact hk.pix_holds

/-! ### The encoder's position -/

/-- Only TRIGGER_UPDATE and REFILL move the encoder's position or start and end a frame (rules R33, R34). -/
theorem exec_cursor_inProgress_of_other {i : Instr} {s t : State} (h : exec i s = .next t)
    (hs : s.initialized = true) (htr : i ≠ .triggerUpdate) (hrf : i ≠ .refill) :
    t.cursor = s.cursor ∧ t.inProgress = s.inProgress := by
  cases i with
  | init maxLeds pinMask16 drive =>
    rw [execInit_refused h hs]
    exact ⟨rfl, rfl⟩
  | set index r g b =>
    rcases execSet_cases h with ⟨-, rfl⟩ | ⟨-, -, rfl⟩ | ⟨-, -, rfl⟩
    · exact ⟨rfl, rfl⟩
    · exact ⟨rfl, rfl⟩
    · simp [State.writePixel_eq]
  | setAll r g b =>
    rcases execSetAll_cases h with ⟨-, rfl⟩ | ⟨-, rfl⟩
    · exact ⟨rfl, rfl⟩
    · simp [State.writePixels_eq]
  | triggerUpdate => exact absurd rfl htr
  | tickStart =>
    obtain ⟨-, -, ⟨-, v, -, rfl⟩ | ⟨-, rfl⟩⟩ := execTickStart_cases h
    · simp
    · exact ⟨rfl, rfl⟩
  | tickSlot =>
    obtain ⟨-, -, ⟨-, v, -, rfl⟩ | ⟨-, rfl⟩⟩ := execTickSlot_cases h
    · simp
    · exact ⟨rfl, rfl⟩
  | refill => exact absurd rfl hrf

/-- Once a Device exists, only a halt makes it refuse host steps (rule R236 (b), (d)). -/
theorem State.deviceReady_eq_not_halted {s : State} (hs : s.initialized = true) : s.deviceReady = !s.halted := by
  simp [State.deviceReady, hs]

/-- A fill moves `cursor` forward only (rules R33, R151). -/
theorem State.cursor_le_of_fill {s t : State} {h : Half} (hp : Memory.Holds s.pix (3 * s.capacity.toNat))
    (hcap : s.capacity.toNat ≤ 1024) (hcur : s.cursor.toNat ≤ 3 * s.capacity.toNat) (hr : s.fill h = .ok t) :
    s.cursor.toNat ≤ t.cursor.toNat := by
  rw [State.fill_ok s h (State.pixReadable_of_holds hp) hcap hcur] at hr
  injection hr with hr
  rw [← hr, State.filled_cursor s h hcap]
  have hend := State.streamEnd_eq s
  split <;> omega

/-- The prefill's two fills take `cursor` from 0 to the end of the stream, or over two halves' 36 bytes (rule R203). -/
theorem State.prefilled_cursor (s : State) (hcap : s.capacity.toNat ≤ 1024) :
    ((s.rewind.filled false).filled true).cursor.toNat = min 36 (3 * s.capacity.toNat) := by
  have hend := State.streamEnd_eq s
  have hfirst : (s.rewind.filled false).cursor.toNat = min 18 s.streamEnd := by
    simpa using State.filled_cursor s.rewind false hcap
  have hboundary : (s.rewind.filled false).endReached = decide (s.streamEnd ≤ 18) := by
    simpa using State.filled_endReached s.rewind false hcap
  rw [State.filled_cursor _ _ (by simpa using hcap), hfirst, hboundary]
  simp only [State.filled_streamEnd, State.rewind_streamEnd, decide_eq_true_eq]
  split <;> omega

/-- The prefill rewinds first, so it does not depend on where `cursor` stood (rule R201). -/
theorem State.prefill_setCursor (s : State) (c : BitVec 12) : (s.setCursor c).prefill = s.prefill := rfl

/-- Where a step can take `cursor`: an accepted TRIGGER_UPDATE to the end of its prefill, a REFILL forward, and any other
step leaves it. -/
theorem exec_cursor_cases {i : Instr} {s t : State} (hd : s.DeviceOk) (hs : s.initialized = true)
    (h : exec i s = .next t) :
    (i = .triggerUpdate ∧ s.halted = false ∧ s.inProgress = false ∧
      t.cursor.toNat = min 36 (3 * s.capacity.toNat)) ∨
    (i = .refill ∧ s.cursor.toNat ≤ t.cursor.toNat) ∨
    ((i = .triggerUpdate → s.halted = true ∨ s.inProgress = true) ∧ t.cursor = s.cursor) := by
  cases i with
  | triggerUpdate =>
    have hready := State.deviceReady_eq_not_halted hs
    rcases execTriggerUpdate_cases h with ⟨hno, rfl⟩ | ⟨-, hip, rfl⟩ | ⟨hyes, hip, u, hu, rfl⟩
    · exact .inr (.inr ⟨fun _ => .inl (by simpa [hready] using hno), rfl⟩)
    · exact .inr (.inr ⟨fun _ => .inr hip, rfl⟩)
    · obtain ⟨rfl, -⟩ := State.trigger_ok hd hip hu
      exact .inl ⟨rfl, by simpa [hready] using hyes, hip, State.prefilled_cursor s hd.capacity_le⟩
  | refill =>
    refine .inr (.inl ⟨rfl, ?_⟩)
    obtain ⟨-, ⟨-, rfl⟩ | ⟨-, u, hu, rfl⟩⟩ := execRefill_cases h
    · simp
    · simpa using State.cursor_le_of_fill (s := s.toggleActive) hd.pix_holds hd.capacity_le hd.cursor_le hu
  | _ => exact .inr (.inr ⟨nofun, (exec_cursor_inProgress_of_other h hs nofun nofun).1⟩)

/-- Settles O47, by where a step can take `cursor`. -/
theorem cursorMonotone : Obligations.CursorMonotone := by
  intro i s t hc hs h
  rcases exec_cursor_cases (hc.after hs) hs h with ⟨hi, hh, hip, hcur⟩ | ⟨rfl, hle⟩ | ⟨hi, hcur⟩
  · exact ⟨fun hp => by simp [hip] at hp, fun _ => ⟨hi, hh, hip⟩, fun _ _ _ => ⟨(State.prefill_setCursor s 0).symm, hcur⟩,
      fun _ hor => by simp [hh, hip] at hor⟩
  · exact ⟨fun _ => hle, fun hlt => by omega, nofun, nofun⟩
  · refine ⟨fun _ => by rw [hcur], fun hlt => by rw [hcur] at hlt; omega, fun htr hh hip => ?_, fun _ _ => hcur⟩
    simpa [hh, hip] using hi htr

/-! ### A frame's lifetime -/

/-- TRIGGER_UPDATE during a frame, dropped or refused, changes the response alone (rules R202, R236). -/
theorem execTriggerUpdate_inFrame {s t : State} (hip : s.inProgress = true) (h : execTriggerUpdate s = .next t) :
    t = { s with lastStatus := t.lastStatus } := by
  rcases execTriggerUpdate_cases h with ⟨-, rfl⟩ | ⟨-, -, rfl⟩ | ⟨-, hno, -⟩
  · rfl
  · rfl
  · simp [hip] at hno

/-- What a step does to `in_progress`: TRIGGER_UPDATE without a halt leaves it 1, the REFILL that performs STOP leaves it 0,
and any other step leaves it. -/
theorem exec_inProgress_cases {i : Instr} {s t : State} (hs : s.initialized = true) (h : exec i s = .next t) :
    (i = .triggerUpdate ∧ s.halted = false ∧ t.inProgress = true) ∨
    (i = .refill ∧ s.drained = true ∧ t.inProgress = false ∧ t.timEn = false ∧ t.idleEn = false ∧ t.encEn = false) ∨
    ((i = .triggerUpdate → s.halted = true) ∧ (i = .refill → s.drained = false) ∧ t.inProgress = s.inProgress) := by
  cases i with
  | triggerUpdate =>
    have hready := State.deviceReady_eq_not_halted hs
    rcases execTriggerUpdate_cases h with ⟨hno, rfl⟩ | ⟨hyes, hip, rfl⟩ | ⟨hyes, -, u, -, rfl⟩
    · exact .inr (.inr ⟨fun _ => by simpa [hready] using hno, nofun, rfl⟩)
    · exact .inl ⟨rfl, by simpa [hready] using hyes, hip⟩
    · exact .inl ⟨rfl, by simpa [hready] using hyes, rfl⟩
  | refill =>
    obtain ⟨-, ⟨hdr, rfl⟩ | ⟨hdr, u, hu, rfl⟩⟩ := execRefill_cases h
    · exact .inr (.inl ⟨rfl, hdr, by simp⟩)
    · obtain ⟨m, c, e, d, rfl, -⟩ := State.fill_shape hu
      exact .inr (.inr ⟨nofun, fun _ => hdr, by simp⟩)
  | _ => exact .inr (.inr ⟨nofun, nofun, (exec_cursor_inProgress_of_other h hs nofun nofun).2⟩)

/-- Settles O49, by what a step does to `in_progress`. -/
theorem inProgressLifetime : Obligations.InProgressLifetime := by
  intro i s t hs h
  have hinFrame : i = .triggerUpdate → s.inProgress = true → t = { s with lastStatus := t.lastStatus } := by
    rintro rfl hip
    exact execTriggerUpdate_inFrame hip h
  rcases exec_inProgress_cases hs h with ⟨rfl, hh, hon⟩ | ⟨rfl, hdr, hoff, htim, hidle, henc⟩ | ⟨htr, hrf, heq⟩
  · exact ⟨fun _ _ => ⟨rfl, hh⟩, fun _ _ => hon, fun _ hoff => by simp [hon] at hoff, nofun, hinFrame⟩
  · obtain ⟨hph, hdc⟩ := (State.drained_iff s).1 hdr
    exact ⟨fun _ hon => by simp [hoff] at hon, nofun, fun _ _ => ⟨rfl, hph, hdc, htim, hidle, henc⟩,
      fun _ _ _ => hoff, hinFrame⟩
  · refine ⟨fun hoff hon => by simp [heq, hoff] at hon, fun hi hh => ?_, fun hon hoff => by simp [heq, hon] at hoff,
      fun hi hph hdc => ?_, hinFrame⟩
    · simp [htr hi] at hh
    · have hdr := (State.drained_iff s).2 ⟨hph, hdc⟩
      simp [hrf hi] at hdr

end Sys2Proof.Machine
end

section
/-!
PROOFS. The host's steps (20_memory.md): in a consistent state each of them completes.
-/

namespace Sys2Proof.Machine

/-- INIT completes in every state: refused, failed, or the Device is constructed (rules R120, R124, R125). -/
theorem execInit_completes (maxLeds pinMask16 : BitVec 16) (drive : BitVec 1) (s : State) :
    ∃ t, execInit maxLeds pinMask16 drive s = .next t := by
  unfold execInit
  split
  · exact ⟨_, rfl⟩
  · split <;> exact ⟨_, rfl⟩

/-- SET completes in every state: refused, out of range, or one pixel is written (rule R136). -/
theorem execSet_completes (index : BitVec 16) (r g b : Byte) (s : State) : ∃ t, execSet index r g b s = .next t := by
  unfold execSet
  split
  · exact ⟨_, rfl⟩
  · split <;> exact ⟨_, rfl⟩

/-- SET_ALL completes in every state: refused, or every pixel is written (rule R137). -/
theorem execSetAll_completes (r g b : Byte) (s : State) : ∃ t, execSetAll r g b s = .next t := by
  unfold execSetAll
  split <;> exact ⟨_, rfl⟩

/-- On a consistent Device the prefill meets no fault: every byte the encoder reads is listed, and both fills take their
closed form (rules R151, R201). -/
theorem State.DeviceOk.prefill_eq {s : State} (hd : s.DeviceOk) :
    s.prefill = .ok ((s.rewind.filled false).filled true) := by
  have hl : Layout s.rewind := hd.layout.of_eq rfl rfl rfl rfl (fun h => by simp)
  have hc : CursorOk s.rewind := ⟨Nat.zero_le _, nofun⟩
  have hcap : s.rewind.capacity.toNat ≤ 1024 := hd.capacity_le
  simp only [State.prefill, hl.fill hc.1, (hl.filled false).fill (hc.filled hcap false).1]

/-- TRIGGER_UPDATE completes where a Device, if one exists, is consistent: the prefill is its only operation that could
meet a fault (rules R201, R202). -/
theorem execTriggerUpdate_completes {s : State} (hd : s.initialized = true → s.DeviceOk) :
    ∃ t, execTriggerUpdate s = .next t := by
  unfold execTriggerUpdate
  split
  · exact ⟨_, rfl⟩
  · next hready =>
    split
    · exact ⟨_, rfl⟩
    · have hs : s.initialized = true ∧ s.halted = false := by simpa [State.deviceReady] using hready
      rw [(hd hs.1).prefill_eq]
      exact ⟨_, rfl⟩

/-- Settles O51, step by step: only TRIGGER_UPDATE needs the state to be consistent. -/
theorem hostStepsComplete : Obligations.HostStepsComplete := by
  intro i s hc hi
  cases i with
  | init maxLeds pinMask16 drive => exact execInit_completes maxLeds pinMask16 drive s
  | set index r g b => exact execSet_completes index r g b s
  | setAll r g b => exact execSetAll_completes r g b s
  | triggerUpdate => exact execTriggerUpdate_completes hc.after
  | tickStart | tickSlot | refill => cases hi

end Sys2Proof.Machine
end

section
/-!
PROOFS. The bit stream (30_encoding.md): which bit of which byte is stream bit `n`, and what SET does to the stream.
-/

namespace Sys2Proof.Machine

/-- A bit counted from the top of a byte, as the shift and the AND with 1 of rule R94. -/
theorem byteBit_eq_shiftRight (byte : Byte) (j : Nat) : byteBit byte j = (byte >>> (7 - j)).getLsbD 0 := by
  simp [byteBit]

/-- The stream bits of a byte that holds a value are its bits (rule R94). -/
theorem State.streamBit_of_read {s : State} {n : Nat} {byte : Byte} (h : Memory.read s.pix (n / 8) = some byte) :
    s.streamBit n = byteBit byte (n % 8) := by
  simp only [State.streamBit, h]

/-- Equal readings of its byte give equal values of a stream bit. -/
theorem State.streamBit_congr_read {s t : State} {n : Nat}
    (h : Memory.read t.pix (n / 8) = Memory.read s.pix (n / 8)) : t.streamBit n = s.streamBit n := by
  simp only [State.streamBit, h]

/-- A SET of a Device's own pixel writes the three bytes of that pixel into the pixel memory (rule R136). -/
theorem execSet_pix {s t : State} {index : BitVec 16} {r g b : Byte} (hready : s.deviceReady = true)
    (hlt : index.toNat < s.capacity.toNat) (h : execSet index r g b s = .next t) :
    t.pix = Memory.pixelWrite s.pix index.toNat r g b := by
  rcases execSet_cases h with ⟨hrefused, -⟩ | ⟨-, hout, -⟩ | ⟨-, -, rfl⟩
  · simp [hready] at hrefused
  · omega
  · simp [State.writePixel_eq]

section
variable {s t : State} {i : Nat} {r g b : Byte} (h : t.pix = Memory.pixelWrite s.pix i r g b)
include h

/-- Channel `c` of a written pixel fills stream bits `24 * i + 8 * c` on, from bit 7 down (rule R94). -/
theorem State.streamBit_of_pixelWrite {c j : Nat} (hc : c < 3) (hj : j < 8) :
    t.streamBit (24 * i + 8 * c + j) = (channel r g b c).getLsbD (7 - j) := by
  have hbyte : (24 * i + 8 * c + j) / 8 = 3 * i + c := by omega
  have hbit : (24 * i + 8 * c + j) % 8 = j := by omega
  have hled : (3 * i + c) / 3 = i := by omega
  have hchan : (3 * i + c) % 3 = c := by omega
  have hread : Memory.read t.pix ((24 * i + 8 * c + j) / 8) = some (channel r g b c) := by
    rw [h, hbyte, Memory.read_pixelWrite, if_pos hled, hchan]
  rw [State.streamBit_of_read hread, hbit, byteBit]

/-- Writing one pixel leaves the stream bits of every other pixel alone. -/
theorem State.streamBit_of_pixelWrite_other {n : Nat} (hn : n / 24 ≠ i) : t.streamBit n = s.streamBit n := by
  have hled : n / 8 / 3 ≠ i := by omega
  exact State.streamBit_congr_read (by rw [h, Memory.read_pixelWrite, if_neg hled])

end

/-- Settles O20: SET writes one pixel's bytes, whose bits are the stream's at `24 * i` on; no other byte changes. -/
theorem streamBitOrder : Obligations.StreamBitOrder := by
  refine ⟨fun s n byte hread => ?_, fun s t index r g b hinit hhalt hlt hset => ?_⟩
  · rw [State.streamBit_of_read hread, byteBit_eq_shiftRight]
  · have hready : s.deviceReady = true := by simp [State.deviceReady, hinit, hhalt]
    have hpix := execSet_pix hready hlt hset
    refine ⟨fun j hj => ⟨?_, ?_, ?_⟩, fun n hn => State.streamBit_of_pixelWrite_other hpix hn⟩
    · exact State.streamBit_of_pixelWrite hpix (c := 0) (by decide) hj
    · exact State.streamBit_of_pixelWrite hpix (c := 1) (by decide) hj
    · exact State.streamBit_of_pixelWrite hpix (c := 2) (by decide) hj

end Sys2Proof.Machine
end

section
/-!
PROOFS. FILL_IDLE (42_bit_encoder.md): a memory is what it reads as, and what the fill leaves in its half.
-/

namespace Sys2Proof.Machine

/-! ### A memory is determined by its indices and its readings -/

/-- Canonical memories that list the same indices and read the same there are equal. -/
theorem Memory.eq_of_keys_of_read {m m' : Memory} (hw : Memory.wf m) (hk : Memory.keys m = Memory.keys m')
    (hr : ∀ a ∈ Memory.keys m, Memory.read m a = Memory.read m' a) : m = m' := by
  rw [Memory.wf_iff_keys] at hw
  induction m generalizing m' with
  | nil => exact (List.map_eq_nil_iff.1 hk.symm).symm
  | cons c m ih =>
    obtain ⟨a, v⟩ := c
    cases m' with
    | nil => simp at hk
    | cons c' m' =>
      obtain ⟨b, u⟩ := c'
      simp only [Memory.keys_cons, List.cons.injEq, List.pairwise_cons] at hk hw
      obtain ⟨rfl, hk⟩ := hk
      obtain ⟨hlt, hw⟩ := hw
      have hhead : v = u := by simpa [Memory.read] using hr a (by simp)
      have htail : ∀ k ∈ Memory.keys m, Memory.read m k = Memory.read m' k := fun k hmem => by
        have hne : a ≠ k := (hlt k hmem).ne
        simpa [Memory.read, hne] using hr k (by simp [hmem])
      rw [hhead, ih hw hk htail]

/-- Two full buffers that agree in every even and every odd slot are equal (rule R62). -/
theorem Memory.Holds.ext_slots {m m' : Memory} (h : Memory.Holds m 288) (h' : Memory.Holds m' 288)
    (heven : ∀ k, k < 144 → Memory.read m (evenSlot k) = Memory.read m' (evenSlot k))
    (hodd : ∀ k, k < 144 → Memory.read m (oddSlot k) = Memory.read m' (oddSlot k)) : m = m' := by
  refine Memory.eq_of_keys_of_read h.wf (h.trans h'.symm) fun a ha => ?_
  have hlt : a < 288 := by simpa [h] using ha
  rcases Nat.even_or_odd' a with ⟨k, rfl | rfl⟩
  · exact heven k (by omega)
  · exact hodd k (by omega)

/-! ### The idle pattern -/

theorem holds_idlePattern (mask : Byte) : Memory.Holds (idlePattern mask) 288 := Memory.holds_ofFn 288 _

theorem read_idlePattern_evenSlot (mask : Byte) {k : Nat} (hk : k < 144) :
    Memory.read (idlePattern mask) (evenSlot k) = some 0 := by
  have hlt : evenSlot k < Config.slotsPerHalf := show 2 * k < 288 by omega
  rw [idlePattern, Memory.read_ofFn _ hlt, if_pos (by unfold evenSlot; omega)]

theorem read_idlePattern_oddSlot (mask : Byte) {k : Nat} (hk : k < 144) :
    Memory.read (idlePattern mask) (oddSlot k) = some mask := by
  have hlt : oddSlot k < Config.slotsPerHalf := show 2 * k + 1 < 288 by omega
  rw [idlePattern, Memory.read_ofFn _ hlt, if_neg (by unfold oddSlot; omega)]

/-! ### FILL_IDLE -/

theorem State.fillIdle_mem_self (s : State) (h : Half) :
    (s.fillIdle h).mem (.wb h) = Memory.evenWrites (s.mem (.wb h)) 0 (fun _ => 0) 144 := by
  rw [State.fillIdle_eq, State.mem_setMem_self]

/-- FILL_IDLE changes the memory of its half only. -/
theorem State.fillIdle_eq_setMem (s : State) (h : Half) :
    s.fillIdle h = s.setMem (.wb h) ((s.fillIdle h).mem (.wb h)) := by
  rw [State.fillIdle_mem_self, State.fillIdle_eq]

theorem State.read_fillIdle_evenSlot (s : State) (h : Half) {k : Nat} (hk : k < 144) :
    Memory.read ((s.fillIdle h).mem (.wb h)) (evenSlot k) = some 0 := by
  rw [State.fillIdle_mem_self, Memory.read_evenWrites, if_pos (by omega)]

/-- FILL_IDLE writes no odd slot and nothing past its half (rules R68, R153). -/
theorem State.onlyEven_fillIdle (s : State) (h : Half) :
    Memory.OnlyEven (s.mem (.wb h)) ((s.fillIdle h).mem (.wb h)) := by
  rw [State.fillIdle_mem_self]
  exact Memory.onlyEven_evenWrites _ 0 _ 144 (by omega)

theorem State.fillIdle_holds {s : State} {h : Half} (hm : Memory.Holds (s.mem (.wb h)) 288) :
    Memory.Holds ((s.fillIdle h).mem (.wb h)) 288 := by
  rw [State.fillIdle_mem_self]
  exact hm.evenWrites 0 _ 144 (by omega)

/-- A full half whose odd slots hold the mask is the idle pattern after FILL_IDLE (rules R30, R157). -/
theorem State.fillIdle_eq_idlePattern {s : State} {h : Half} (hm : Memory.Holds (s.mem (.wb h)) 288)
    (hodd : ∀ k, k < 144 → Memory.read (s.mem (.wb h)) (oddSlot k) = some s.mask) :
    (s.fillIdle h).mem (.wb h) = idlePattern s.mask := by
  obtain ⟨-, hframe⟩ := State.onlyEven_fillIdle s h
  refine (State.fillIdle_holds hm).ext_slots (holds_idlePattern _) (fun k hk => ?_) (fun k hk => ?_)
  · rw [State.read_fillIdle_evenSlot s h hk, read_idlePattern_evenSlot _ hk]
  · rw [hframe _ (.inl (by unfold oddSlot; omega)), hodd k hk, read_idlePattern_oddSlot _ hk]

/-- Settles O27: FILL_IDLE is 144 writes of 0 to even slots, and full buffers that agree slot by slot are equal. -/
theorem fillIdleResult : Obligations.FillIdleResult := by
  intro s h
  obtain ⟨-, hframe⟩ := State.onlyEven_fillIdle s h
  exact ⟨State.fillIdle_eq_setMem s h, fun _ => State.read_fillIdle_evenSlot s h, hframe,
    State.fillIdle_eq_idlePattern⟩

end Sys2Proof.Machine
end

section
/-!
PROOFS. The Transfer Orchestrator (43_transfer_orchestrator.md): the hardware is autonomous. While the timer runs its next
TICK completes, and only the REFILL that performs STOP leaves the timer stopped.
-/

namespace Sys2Proof.Machine

/-- A consistent state whose timer runs is a Device: before INIT nothing runs (rule R52). -/
theorem State.Consistent.device_of_running {s : State} (hc : s.Consistent) (ht : s.timEn = true) : s.DeviceOk := by
  cases hs : s.initialized with
  | true => exact hc.after hs
  | false => simp [(hc.before hs).timEn] at ht

/-! ### TICKs complete -/

/-- A slot with an odd position is the odd slot of its cell (rule R53 (c)). -/
theorem State.DeviceOk.timPhase_odd {s : State} (hd : s.DeviceOk) (hpos : s.encPos.toNat % 2 = 1) : s.timPhase = .odd := by
  by_contra hne
  have hpar := hd.parity
  rw [if_neg hne] at hpar
  omega

/-- While the timer of a Device runs, the TICK its phase asks for completes, with or without a pending event (rule R182). -/
theorem State.DeviceOk.tick_completes {s : State} (hd : s.DeviceOk) (ht : s.timEn = true) :
    if s.timPhase = .start then ∃ t, exec .tickStart s = .next t else ∃ t, exec .tickSlot s = .next t := by
  split
  · next hp => exact ⟨_, (State.tickStart_ok hd ht hp).1⟩
  · next hp =>
    obtain ⟨v, -, -, -, hex⟩ := State.tickSlot_state hd ht hp
    exact ⟨_, hex⟩

/-- The last slot of a half is an odd slot: its TICK_SLOT switches to slot 0 of the other buffer, raises the event, and the
timer goes on with the next bit cell (rule R179). -/
theorem State.DeviceOk.tickSlot_wrap {s : State} (hd : s.DeviceOk) (ht : s.timEn = true) (hpos : s.encPos.toNat = 287) :
    ∃ t, exec .tickSlot s = .next t ∧ t.encCt = (!s.encCt) ∧ t.encPos = 0 ∧ t.halfDonePending = true ∧ t.timEn = true ∧
      t.timPhase = .start ∧ ∀ h, t.mem (.wb h) = s.mem (.wb h) := by
  have hodd : s.timPhase = .odd := hd.timPhase_odd (by omega)
  obtain ⟨v, -, -, -, hex⟩ := State.tickSlot_state hd ht (by simp [hodd])
  have hwrap := State.advanceSlot_wrap (s := s.recordCell.portWrite .pulseEnd v) (by simpa using hpos)
  have hmem : ∀ h, ((s.recordCell.portWrite .pulseEnd v).advanceSlot).endTick.mem (.wb h) = s.mem (.wb h) := by
    simp [State.advanceSlot_mem]
  refine ⟨_, hex, ?_, ?_, ?_, ?_, ?_, hmem⟩
  all_goals simp [hwrap, ht, hodd, TimPhase.next]

/-! ### What stops the timer -/

@[simp] theorem State.advanceSlot_timEn (s : State) : s.advanceSlot.timEn = s.timEn := by
  unfold State.advanceSlot; split <;> rfl

/-- A running timer is left running by every step of a Device but the REFILL whose drain is over (rules R180, R209). -/
theorem exec_keeps_timEn {i : Instr} {s t : State} (hs : s.initialized = true) (h : exec i s = .next t)
    (ht : s.timEn = true) (hdrain : i = .refill → s.drained = false) : t.timEn = true := by
  cases i with
  | init maxLeds pinMask16 drive =>
    rw [execInit_refused h hs]
    exact ht
  | set index r g b =>
    rcases execSet_cases h with ⟨-, rfl⟩ | ⟨-, -, rfl⟩ | ⟨-, -, rfl⟩
    · exact ht
    · exact ht
    · simpa [State.writePixel_eq] using ht
  | setAll r g b =>
    rcases execSetAll_cases h with ⟨-, rfl⟩ | ⟨-, rfl⟩
    · exact ht
    · simpa [State.writePixels_eq] using ht
  | triggerUpdate =>
    rcases execTriggerUpdate_cases h with ⟨-, rfl⟩ | ⟨-, -, rfl⟩ | ⟨-, -, u, -, rfl⟩
    · exact ht
    · exact ht
    · rfl
  | tickStart =>
    obtain ⟨-, -, ⟨-, v, -, rfl⟩ | ⟨-, rfl⟩⟩ := execTickStart_cases h
    · simpa using ht
    · exact ht
  | tickSlot =>
    obtain ⟨-, -, ⟨-, v, -, rfl⟩ | ⟨-, rfl⟩⟩ := execTickSlot_cases h
    · simpa using ht
    · exact ht
  | refill =>
    obtain ⟨-, ⟨hover, -⟩ | ⟨-, u, hu, rfl⟩⟩ := execRefill_cases h
    · simp [hdrain rfl] at hover
    · obtain ⟨m, c, e, d, rfl, -⟩ := State.fill_shape hu
      simpa using ht

/-- Settles O38: a consistent state with a running timer is a Device, whose TICKs complete, and of whose steps only the
REFILL that ends the drain stops the timer. -/
theorem hardwareIsAutonomous : Obligations.HardwareIsAutonomous := by
  refine ⟨fun s hc ht => (hc.device_of_running ht).tick_completes ht,
    fun s hc ht _ hpos => (hc.device_of_running ht).tickSlot_wrap ht hpos, fun i s t hs h ht hoff => ?_⟩
  have hstop : i = .refill ∧ s.drained = true := by
    by_contra hno
    have hon := exec_keeps_timEn hs h ht (fun hi => by simpa [hi] using hno)
    simp [hoff] at hon
  obtain ⟨hi, hdr⟩ := hstop
  exact ⟨hi, (State.drained_iff s).1 hdr⟩

end Sys2Proof.Machine
end

section
/-!
PROOFS. The Refill Controller (44_refill_controller.md): TRIGGER_UPDATE during a frame is dropped, and no other step starts
a frame, whether or not a Device exists.
-/

namespace Sys2Proof.Machine

theorem State.deviceReady_iff {s : State} : s.deviceReady = true ↔ s.initialized = true ∧ s.halted = false := by
  simp [State.deviceReady]

/-- A TRIGGER_UPDATE accepted while a frame is in flight only answers OK (rule R202). -/
theorem execTriggerUpdate_dropped {s : State} (hready : s.deviceReady = true) (hip : s.inProgress = true) :
    execTriggerUpdate s = .next s.complete := by
  simp [execTriggerUpdate, hready, hip]

/-- The TRIGGER_UPDATE that starts a frame was accepted (rules R201, R236). -/
theorem execTriggerUpdate_accepted {s t : State} (h : execTriggerUpdate s = .next t) (hoff : s.inProgress = false)
    (hon : t.inProgress = true) : s.deviceReady = true := by
  rcases execTriggerUpdate_cases h with ⟨-, rfl⟩ | ⟨hready, -, -⟩ | ⟨hready, -, -⟩
  · simp [hoff] at hon
  · exact hready
  · exact hready

/-- Where no frame is in flight, no step but TRIGGER_UPDATE starts one, before INIT as after it (rules R34, R120, R202). -/
theorem exec_keeps_frameless {i : Instr} {s t : State} (htr : i ≠ .triggerUpdate) (h : exec i s = .next t)
    (hoff : s.inProgress = false) : t.inProgress = false := by
  cases i with
  | init maxLeds pinMask16 drive =>
    rcases execInit_cases h with ⟨-, rfl⟩ | ⟨-, -, -, rfl⟩ | ⟨-, -, -, rfl⟩
    · exact hoff
    · exact hoff
    · rfl
  | set index r g b =>
    rcases execSet_cases h with ⟨-, rfl⟩ | ⟨-, -, rfl⟩ | ⟨-, -, rfl⟩
    · exact hoff
    · exact hoff
    · simpa [State.writePixel_eq] using hoff
  | setAll r g b =>
    rcases execSetAll_cases h with ⟨-, rfl⟩ | ⟨-, rfl⟩
    · exact hoff
    · simpa [State.writePixels_eq] using hoff
  | triggerUpdate => exact absurd rfl htr
  | tickStart =>
    obtain ⟨-, -, ⟨-, v, -, rfl⟩ | ⟨-, rfl⟩⟩ := execTickStart_cases h
    · simpa using hoff
    · exact hoff
  | tickSlot =>
    obtain ⟨-, -, ⟨-, v, -, rfl⟩ | ⟨-, rfl⟩⟩ := execTickSlot_cases h
    · simpa using hoff
    · exact hoff
  | refill =>
    obtain ⟨-, ⟨-, rfl⟩ | ⟨-, u, hu, rfl⟩⟩ := execRefill_cases h
    · rfl
    · obtain ⟨m, c, e, d, rfl, -⟩ := State.fill_shape hu
      simpa using hoff

/-- Settles O41: a trigger during a frame only answers, and the step that starts a frame is an accepted trigger. -/
theorem triggerDuringFrameDropped : Obligations.TriggerDuringFrameDropped := by
  refine ⟨fun s hs hh hip => execTriggerUpdate_dropped (State.deviceReady_iff.2 ⟨hs, hh⟩) hip,
    fun i s t h hoff hon => ?_⟩
  have htr : i = .triggerUpdate := by
    by_contra hne
    simp [exec_keeps_frameless hne h hoff] at hon
  subst htr
  exact ⟨rfl, State.deviceReady_iff.1 (execTriggerUpdate_accepted h hoff hon)⟩

end Sys2Proof.Machine
end

section
/-!
PROOFS. The errors of 60_exceptions.md: INIT alone answers InvalidConfiguration (rule R233), and the steps of the hardware
and of the Refill Controller raise no error (rule R237).
-/

namespace Sys2Proof.Machine

/-! ### What the steps that raise no error leave alone -/

section
variable (s : State)
@[simp] theorem State.advanceSlot_halted : s.advanceSlot.halted = s.halted := by unfold State.advanceSlot; split <;> rfl
@[simp] theorem State.advanceSlot_lastStatus : s.advanceSlot.lastStatus = s.lastStatus := by unfold State.advanceSlot; split <;> rfl
@[simp] theorem State.finishFrame_halted : s.finishFrame.halted = s.halted := by simp [State.finishFrame, State.stop]
@[simp] theorem State.finishFrame_lastStatus : s.finishFrame.lastStatus = s.lastStatus := by simp [State.finishFrame, State.stop]
end

/-- TICK_START, TICK_SLOT and REFILL leave the response and the halt as they were, in every state (rule R237). -/
theorem exec_event_keeps_response {i : Instr} {s t : State} (hi : isHostStep i = false) (h : exec i s = .next t) :
    t.lastStatus = s.lastStatus ∧ t.halted = s.halted := by
  cases i with
  | init | set | setAll | triggerUpdate => cases hi
  | tickStart =>
    obtain ⟨-, -, ⟨-, v, -, rfl⟩ | ⟨-, rfl⟩⟩ := execTickStart_cases h
    · simp
    · exact ⟨rfl, rfl⟩
  | tickSlot =>
    obtain ⟨-, -, ⟨-, v, -, rfl⟩ | ⟨-, rfl⟩⟩ := execTickSlot_cases h
    · simp
    · exact ⟨rfl, rfl⟩
  | refill =>
    obtain ⟨-, ⟨-, rfl⟩ | ⟨-, u, hu, rfl⟩⟩ := execRefill_cases h
    · simp
    · obtain ⟨m, c, e, d, rfl, -⟩ := State.fill_shape hu
      simp

/-- At the last slot of a half with an event still pending, TICK_SLOT completes and latches the missed deadline
(rules R42, R178). -/
theorem State.DeviceOk.tickSlot_misses {s : State} (hd : s.DeviceOk) (ht : s.timEn = true)
    (hpos : s.encPos.toNat = 287) (hpend : s.halfDonePending = true) :
    ∃ t, exec .tickSlot s = .next t ∧ t.refillMissed = true := by
  have hodd : s.timPhase = .odd := hd.timPhase_odd (by omega)
  obtain ⟨v, -, -, -, hex⟩ := State.tickSlot_state hd ht (by simp [hodd])
  have hwrap := State.advanceSlot_wrap (s := s.recordCell.portWrite .pulseEnd v) (by simpa using hpos)
  exact ⟨_, hex, by simp [hwrap, hpend]⟩

/-- Settles O39: no step of the hardware or of the Refill Controller answers the host, the one that misses the deadline
included. -/
theorem eventStepsRaiseNoError : Obligations.EventStepsRaiseNoError := by
  refine ⟨fun i s t hi h => exec_event_keeps_response hi h, fun s hd ht _ hpos hpend => ?_⟩
  obtain ⟨t, h, hmiss⟩ := hd.tickSlot_misses ht hpos hpend
  exact ⟨t, h, hmiss, exec_event_keeps_response rfl h⟩

/-! ### InvalidConfiguration -/

/-- INIT's checks find the configuration invalid exactly by the count or the pin mask, whatever the storage (rule R121). -/
theorem initVerdict_eq_invalidConfiguration_iff {ram : Nat} {maxLeds pinMask16 : BitVec 16} :
    initVerdict ram maxLeds pinMask16 = .invalidConfiguration ↔
      maxLeds.toNat < 1 ∨ 1024 < maxLeds.toNat ∨ popcount16 pinMask16 ≠ 1 := by
  unfold initVerdict Config.maxCapacity
  split_ifs with hcount hpin hram
  · simp only [true_iff]; omega
  · simp [hpin]
  · simp only [false_iff]; omega
  · simp only [false_iff]; omega

/-- With no Device and no halt, an INIT whose configuration is invalid answers the error and changes nothing else (rules
R124, R233). -/
theorem execInit_invalidConfiguration {s : State} {maxLeds pinMask16 : BitVec 16} (drive : BitVec 1)
    (hs : s.initialized = false) (hh : s.halted = false)
    (hbad : maxLeds.toNat < 1 ∨ 1024 < maxLeds.toNat ∨ popcount16 pinMask16 ≠ 1) :
    execInit maxLeds pinMask16 drive s = .next (s.respond .invalidConfiguration) := by
  simp [execInit, hs, hh, initVerdict_eq_invalidConfiguration_iff.2 hbad, State.raise]

/-- The host steps after INIT answer OK, IndexOutOfRange or Refused (rules R136, R137, R201, R234, R236). -/
theorem exec_host_lastStatus {i : Instr} {s t : State} (hi : isHostStep i = true)
    (hinit : ∀ maxLeds pinMask16 drive, i ≠ .init maxLeds pinMask16 drive) (h : exec i s = .next t) :
    t.lastStatus = .ok ∨ t.lastStatus = .indexOutOfRange ∨ t.lastStatus = .refused := by
  cases i with
  | init maxLeds pinMask16 drive => exact absurd rfl (hinit maxLeds pinMask16 drive)
  | set index r g b =>
    rcases execSet_cases h with ⟨-, rfl⟩ | ⟨-, -, rfl⟩ | ⟨-, -, rfl⟩
    · exact .inr (.inr rfl)
    · exact .inr (.inl rfl)
    · exact .inl rfl
  | setAll r g b =>
    rcases execSetAll_cases h with ⟨-, rfl⟩ | ⟨-, rfl⟩
    · exact .inr (.inr rfl)
    · exact .inl rfl
  | triggerUpdate =>
    rcases execTriggerUpdate_cases h with ⟨-, rfl⟩ | ⟨-, -, rfl⟩ | ⟨-, -, u, -, rfl⟩
    · exact .inr (.inr rfl)
    · exact .inl rfl
    · exact .inl rfl
  | tickStart | tickSlot | refill => cases hi

/-- The step that brings up InvalidConfiguration is an INIT (rule R233). -/
theorem exec_raises_invalidConfiguration {i : Instr} {s t : State} (h : exec i s = .next t)
    (hs : s.lastStatus ≠ .invalidConfiguration) (ht : t.lastStatus = .invalidConfiguration) :
    ∃ maxLeds pinMask16 drive, i = .init maxLeds pinMask16 drive := by
  by_contra! hinit
  cases hi : isHostStep i with
  | true => simpa [ht] using exec_host_lastStatus hi hinit h
  | false =>
    obtain ⟨hkeep, -⟩ := exec_event_keeps_response hi h
    exact hs (hkeep ▸ ht)

/-- Settles O13: INIT's checks answer the error for every malformed count or pin mask, and no other step answers it. -/
theorem invalidConfiguration : Obligations.InvalidConfiguration := by
  refine ⟨rfl, fun s _ _ drive hs hh hbad => execInit_invalidConfiguration drive hs hh hbad,
    fun s pinMask16 drive hs hh => ⟨?_, ?_⟩, fun i s t h hs ht => exec_raises_invalidConfiguration h hs ht⟩
  · exact execInit_invalidConfiguration (maxLeds := 0) drive hs hh (.inl (by decide))
  · exact execInit_invalidConfiguration (maxLeds := 2000) drive hs hh (.inr (.inl (by decide)))

end Sys2Proof.Machine
end

section
/-!
PROOFS. The encodings (30_encoding.md): what each command row decodes to, said once as an equivalence over the fields of the
word; the round trips and the domain of the decoder follow.
-/

namespace Sys2Proof

/-! ### What a command word decodes to -/

theorem decodeInit_eq_ok_iff {w : BitVec 64} {i : Instr} : decodeInit w = .ok i ↔
    (cmdC2 w = 0 ∧ cmdC1 w = 0 ∧ (cmdC0 w).extractLsb' 1 7 = 0) ∧
      i = .init (cmdA16 w) (cmdM16 w) ((cmdC0 w).extractLsb' 0 1) := by
  unfold decodeInit
  split_ifs <;> simp_all [eq_comm]

theorem decodeSet_eq_ok_iff {w : BitVec 64} {i : Instr} : decodeSet w = .ok i ↔
    cmdM16 w = 0 ∧ i = .set (cmdA16 w) (cmdC2 w) (cmdC1 w) (cmdC0 w) := by
  unfold decodeSet
  split_ifs <;> simp_all [eq_comm]

theorem decodeSetAll_eq_ok_iff {w : BitVec 64} {i : Instr} : decodeSetAll w = .ok i ↔
    (cmdA16 w = 0 ∧ cmdM16 w = 0) ∧ i = .setAll (cmdC2 w) (cmdC1 w) (cmdC0 w) := by
  unfold decodeSetAll
  split_ifs <;> simp_all [eq_comm]

theorem decodeTrigger_eq_ok_iff {w : BitVec 64} {i : Instr} : decodeTrigger w = .ok i ↔
    (cmdA16 w = 0 ∧ cmdM16 w = 0 ∧ cmdC2 w = 0 ∧ cmdC1 w = 0 ∧ cmdC0 w = 0) ∧ i = .triggerUpdate := by
  unfold decodeTrigger
  split_ifs <;> simp_all [eq_comm]

/-- A command word decodes by the row of its opcode (rules R98 to R102). -/
theorem decodeCommand_eq_ok_iff {w : BitVec 64} {i : Instr} : decodeCommand w = .ok i ↔
    (cmdOpcode w = 1 ∧ decodeInit w = .ok i) ∨ (cmdOpcode w = 2 ∧ decodeSet w = .ok i) ∨
    (cmdOpcode w = 3 ∧ decodeSetAll w = .ok i) ∨ (cmdOpcode w = 4 ∧ decodeTrigger w = .ok i) := by
  unfold decodeCommand
  split_ifs with h1 h2 h3 h4
  · simp [h1]
  · simp [h2]
  · simp [h3]
  · simp [h4]
  · simp only [false_iff]
    rintro (⟨h, -⟩ | ⟨h, -⟩ | ⟨h, -⟩ | ⟨h, -⟩)
    exacts [h1 h, h2 h, h3 h, h4 h]

/-- An event vector decodes exactly if one request bit is set, to the step of that bit (rules R103 to R106). -/
theorem decodeEvent_eq_ok_iff {ev : BitVec 3} {i : Instr} : decodeEvent ev = .ok i ↔
    (ev = 0b100#3 ∧ i = .tickStart) ∨ (ev = 0b010#3 ∧ i = .tickSlot) ∨ (ev = 0b001#3 ∧ i = .refill) := by
  have hok : ∀ j : Instr, (Except.ok j : Except DecodeError Instr) = .ok i ↔ i = j := fun j => by simp [eq_comm]
  unfold decodeEvent
  split_ifs with h1 h2 h3
  · simp [h1, hok]
  · simp [h2, hok]
  · simp [h3, hok]
  all_goals simp [h1, h2, h3]

/-! ### Round trips -/

theorem decode_encode (i : Instr) : decode (encode i) = .ok i := by
  cases i with
  | init maxLeds pinMask16 drive =>
    refine decodeCommand_eq_ok_iff.2 (.inl ⟨cmdOpcode_cmdWord .., decodeInit_eq_ok_iff.2 ?_⟩)
    simp [cmdA16_cmdWord, cmdM16_cmdWord, cmdC2_cmdWord, cmdC1_cmdWord, cmdC0_cmdWord, drive_fields]
  | set index r g b =>
    refine decodeCommand_eq_ok_iff.2 (.inr (.inl ⟨cmdOpcode_cmdWord .., decodeSet_eq_ok_iff.2 ?_⟩))
    simp [cmdA16_cmdWord, cmdM16_cmdWord, cmdC2_cmdWord, cmdC1_cmdWord, cmdC0_cmdWord]
  | setAll r g b =>
    refine decodeCommand_eq_ok_iff.2 (.inr (.inr (.inl ⟨cmdOpcode_cmdWord .., decodeSetAll_eq_ok_iff.2 ?_⟩)))
    simp [cmdA16_cmdWord, cmdM16_cmdWord, cmdC2_cmdWord, cmdC1_cmdWord, cmdC0_cmdWord]
  | triggerUpdate =>
    refine decodeCommand_eq_ok_iff.2 (.inr (.inr (.inr ⟨cmdOpcode_cmdWord .., decodeTrigger_eq_ok_iff.2 ?_⟩)))
    simp [cmdA16_cmdWord, cmdM16_cmdWord, cmdC2_cmdWord, cmdC1_cmdWord, cmdC0_cmdWord]
  | tickStart | tickSlot | refill => rfl

/-- A command word that decodes is the encoding of what it decodes to: its fields are the operands and its must-be-zero
fields are 0. -/
theorem encode_of_decodeCommand {w : BitVec 64} {i : Instr} (h : decodeCommand w = .ok i) : encode i = .command w := by
  have hfields := cmdWord_fields w
  rcases decodeCommand_eq_ok_iff.1 h with ⟨ho, h⟩ | ⟨ho, h⟩ | ⟨ho, h⟩ | ⟨ho, h⟩
  · obtain ⟨⟨hc2, hc1, hc0⟩, rfl⟩ := decodeInit_eq_ok_iff.1 h
    rw [ho, hc2, hc1] at hfields
    simp only [encode, drive_of_field _ hc0]
    exact congrArg _ hfields
  · obtain ⟨hm, rfl⟩ := decodeSet_eq_ok_iff.1 h
    rw [ho, hm] at hfields
    exact congrArg _ hfields
  · obtain ⟨⟨ha, hm⟩, rfl⟩ := decodeSetAll_eq_ok_iff.1 h
    rw [ho, ha, hm] at hfields
    exact congrArg _ hfields
  · obtain ⟨⟨ha, hm, hc2, hc1, hc0⟩, rfl⟩ := decodeTrigger_eq_ok_iff.1 h
    rw [ho, ha, hm, hc2, hc1, hc0] at hfields
    exact congrArg _ hfields

theorem encode_of_decode {p : Packet} {i : Instr} (h : decode p = .ok i) : encode i = p := by
  cases p with
  | command w => exact encode_of_decodeCommand h
  | event ev => rcases decodeEvent_eq_ok_iff.1 h with ⟨rfl, rfl⟩ | ⟨rfl, rfl⟩ | ⟨rfl, rfl⟩ <;> rfl

/-- Settles O1, row by row: the fields of an assembled word are the operands. -/
theorem decodeEncodeRoundTrip : Obligations.DecodeEncodeRoundTrip := fun i _ => decode_encode i

/-- Settles O2: every bit of a form that decodes is an operand's or one the row fixes. -/
theorem decodedFormIsTheEncoding : Obligations.DecodedFormIsTheEncoding := fun _ _ => encode_of_decode

/-! ### The domain of the decoder -/

/-- A command word decodes exactly if a row of the table admits it. -/
theorem decodeCommand_ok_iff_wellFormed (w : BitVec 64) :
    (∃ i, decodeCommand w = .ok i) ↔ (Packet.command w).wellFormed = true := by
  have hrow : (Packet.command w).wellFormed = true ↔ true ∈ commandRows.map (fun row => row.admits w) := by
    simp [Packet.wellFormed]
  rw [hrow, commandRows_admits]
  simp only [decodeCommand_eq_ok_iff, decodeInit_eq_ok_iff, decodeSet_eq_ok_iff, decodeSetAll_eq_ok_iff,
    decodeTrigger_eq_ok_iff, exists_or, exists_and_left, exists_eq, and_true]
  simp only [List.mem_cons, List.not_mem_nil, or_false, eq_comm (a := true), decide_eq_true_eq]

/-- An event vector decodes exactly if it is one of the three of the table. -/
theorem decodeEvent_ok_iff_wellFormed (ev : BitVec 3) :
    (∃ i, decodeEvent ev = .ok i) ↔ (Packet.event ev).wellFormed = true := by
  simp [decodeEvent_eq_ok_iff, exists_or, Packet.wellFormed, eventRows]

/-- The opcode field keeps the four command rows apart. -/
theorem commandRows_disjoint (w : BitVec 64) : (commandRows.filter (fun row => row.admits w)).length ≤ 1 := by
  have hcount : (commandRows.filter (fun row => row.admits w)).length =
      (commandRows.map (fun row => row.admits w)).countP id := by
    rw [List.countP_map, List.countP_eq_length_filter]; rfl
  rw [hcount, commandRows_admits]
  simp only [List.countP_cons, List.countP_nil, id, decide_eq_true_eq]
  split_ifs <;> simp_all

/-- Settles O3: form by form, and the opcodes of the rows differ. -/
theorem decoderAcceptsTheTable : Obligations.DecoderAcceptsTheTable := by
  refine ⟨fun p => ?_, commandRows_disjoint⟩
  cases p with
  | command w => exact decodeCommand_ok_iff_wellFormed w
  | event ev => exact decodeEvent_ok_iff_wellFormed ev

/-! ### Command words as bytes -/

/-- Taking the next eight bits below a field extends the field by them. -/
theorem extractLsb'_append_byte (w : BitVec 64) (lo n : Nat) :
    w.extractLsb' (lo + 8) n ++ w.extractLsb' lo 8 = w.extractLsb' lo (n + 8) := by
  apply BitVec.eq_of_getLsbD_eq
  intro i hi
  simp only [BitVec.getLsbD_append, BitVec.getLsbD_extractLsb']
  split
  · simp [*]
  · next h =>
    rw [show lo + 8 + (i - 8) = lo + i by omega, decide_eq_true (by omega : i - 8 < n), decide_eq_true hi]

theorem assembleCommand_commandBytes (w : BitVec 64) : assembleCommand (commandBytes w) = .ok w := by
  have h := fun lo n => extractLsb'_append_byte w lo n
  simp only [commandBytes, assembleCommand, h 48, h 40, h 32, h 24, h 16, h 8, h 0]
  simp

theorem commandBytes_getElem? (w : BitVec 64) {k : Nat} (hk : k < 8) :
    (commandBytes w)[k]? = some ((w >>> (8 * (7 - k))).setWidth 8) := by
  have hbyte : ∀ lo, w.extractLsb' lo 8 = (w >>> lo).setWidth 8 := fun lo => by
    apply BitVec.eq_of_getLsbD_eq
    intro i hi
    simp [hi]
  interval_cases k <;> simp [commandBytes, hbyte]

/-- Settles O4: the eight bytes are the fields of eight bits from the top down, and they are adjacent. -/
theorem commandWordBytesRoundTrip : Obligations.CommandWordBytesRoundTrip := fun w =>
  ⟨rfl, assembleCommand_commandBytes w, fun _ => commandBytes_getElem? w⟩

/-- Settles O5, by evaluating the decoder on the vectors. -/
theorem sampleWordsDecode : Obligations.SampleWordsDecode := by
  refine ⟨?_, ?_, ?_, ?_, ?_, ?_, ?_, ?_⟩ <;> decide

end Sys2Proof
end

section
/-!
PROOFS. One step of the machine (00_scope.md): what each agent's turn brings, the steps that have no transition, and the
state after power-on.
-/

namespace Sys2Proof.Machine

/-! ### What a turn brings -/

theorem State.fetch_of_decode_ok {s : State} {i : Instr} (h : decode (s.packetOf s.nextTurn) = .ok i) :
    s.fetch = .run i := by
  unfold State.fetch
  rw [h]

/-- A turn of the host whose word no row admits brings a reserved word (rule R108). -/
theorem State.fetch_reserved {s : State} {w : BitVec 64} (hturn : s.nextTurn = .host w)
    (hw : Packet.wellFormed (.command w) = false) : s.fetch = .reservedWord := by
  have hbad : ∀ i, decodeCommand w ≠ .ok i := fun i hi => by
    simp [(decodeCommand_ok_iff_wellFormed w).1 ⟨i, hi⟩] at hw
  cases hd : decodeCommand w with
  | ok i => exact absurd hd (hbad i)
  | error e => simp [State.fetch, hturn, State.packetOf, decode, hd]

/-- On its turn the timer takes the TICK of its phase, or no step while it is stopped (rules R103, R176). -/
theorem State.fetch_timer {s : State} (hturn : s.nextTurn = .timer) :
    s.fetch = if s.timEn = false then .noStep else if s.timPhase = .start then .run .tickStart else .run .tickSlot := by
  cases ht : s.timEn <;> cases hp : s.timPhase <;>
    simp [State.fetch, hturn, State.packetOf, State.timerRequest, State.tickStartEnabled, State.tickSlotEnabled, ht, hp,
      decode, decodeEvent]

/-- On its turn the refill controller services the pending event, or takes no step without one (rules R103, R204). -/
theorem State.fetch_refill {s : State} (hturn : s.nextTurn = .refill) :
    s.fetch = if s.halfDonePending then .run .refill else .noStep := by
  cases hp : s.halfDonePending <;>
    simp [State.fetch, hturn, State.packetOf, State.refillRequest, State.refillEnabled, hp, decode, decodeEvent]

/-- A turn of the host brings a host step or a reserved word. -/
theorem State.fetch_host {s : State} {w : BitVec 64} (hturn : s.nextTurn = .host w) :
    (∃ i, s.fetch = .run i ∧ isHostStep i = true) ∨ s.fetch = .reservedWord := by
  cases hd : decodeCommand w with
  | error e => exact .inr (by simp [State.fetch, hturn, State.packetOf, decode, hd])
  | ok i =>
    refine .inl ⟨i, State.fetch_of_decode_ok (by rwa [hturn]), ?_⟩
    rcases decodeCommand_eq_ok_iff.1 hd with ⟨-, h⟩ | ⟨-, h⟩ | ⟨-, h⟩ | ⟨-, h⟩
    · rw [(decodeInit_eq_ok_iff.1 h).2]; rfl
    · rw [(decodeSet_eq_ok_iff.1 h).2]; rfl
    · rw [(decodeSetAll_eq_ok_iff.1 h).2]; rfl
    · rw [(decodeTrigger_eq_ok_iff.1 h).2]; rfl

/-- Taking a turn off changes the model's own two fields alone. -/
theorem State.takeTurn_eq (s : State) :
    s.takeTurn = { s with turns := s.turns.tail, draws := if s.turns = [] then s.draws + 1 else s.draws } := by
  unfold State.takeTurn
  cases s.turns <;> simp

theorem step_of_run {s : State} {i : Instr} (h : s.fetch = .run i) : step s = exec i s.takeTurn := by
  unfold step; rw [h]

theorem step_of_reservedWord {s : State} (h : s.fetch = .reservedWord) : step s = .next s.takeTurn.refuse := by
  unfold step; rw [h]

theorem step_of_noStep {s : State} (h : s.fetch = .noStep) : step s = .next s.takeTurn := by
  unfold step; rw [h]

/-- Settles O6: a form that decodes is run on the state whose turn was taken off. -/
theorem stepRunsDecodedInstruction : Obligations.StepRunsDecodedInstruction := fun s _ _ h =>
  ⟨step_of_run (State.fetch_of_decode_ok h), s.takeTurn_eq⟩

/-- Settles O7: a word that no row admits does not decode. -/
theorem reservedWordRefused : Obligations.ReservedWordRefused := fun _ _ hturn hw =>
  step_of_reservedWord (State.fetch_reserved hturn hw)

/-- Settles O8: the request that an agent raises is a function of the state. -/
theorem agentTakesItsEnabledStep : Obligations.AgentTakesItsEnabledStep := by
  refine fun s => ⟨fun hturn => ?_, fun hturn => ?_⟩
  · have hf := State.fetch_timer hturn
    split_ifs at hf ⊢ with ht hp
    · exact step_of_noStep hf
    · exact step_of_run hf
    · exact step_of_run hf
  · have hf := State.fetch_refill hturn
    split_ifs at hf ⊢ with hp
    · exact step_of_run hf
    · exact step_of_noStep hf

/-! ### Steps that are not enabled -/

theorem execTickStart_refused {s : State} (h : s.timEn = false ∨ s.timPhase ≠ .start) :
    execTickStart s = .refused (.stepNotEnabled "TICK_START") := by
  have hoff : s.tickStartEnabled = false := by rcases h with h | h <;> simp [State.tickStartEnabled, h]
  simp [execTickStart, hoff]

theorem execTickSlot_refused {s : State} (h : s.timEn = false ∨ s.timPhase = .start) :
    execTickSlot s = .refused (.stepNotEnabled "TICK_SLOT") := by
  have hoff : s.tickSlotEnabled = false := by rcases h with h | h <;> simp [State.tickSlotEnabled, h]
  simp [execTickSlot, hoff]

theorem execRefill_refused {s : State} (h : s.halfDonePending = false) :
    execRefill s = .refused (.stepNotEnabled "REFILL") := by
  simp [execRefill, State.refillEnabled, h]

/-- Settles O9, one meaning at a time. -/
theorem stepNotEnabledHasNoTransition : Obligations.StepNotEnabledHasNoTransition := fun _ =>
  ⟨execTickStart_refused, execTickSlot_refused, execRefill_refused⟩

/-! ### Power-on -/

/-- Without a Device ready for it, a host step other than INIT is refused (rule R236 (b), (d)). -/
theorem exec_refused_of_not_ready {i : Instr} {s : State} (hi : isHostStep i = true)
    (hinit : ∀ maxLeds pinMask16 drive, i ≠ .init maxLeds pinMask16 drive) (hs : s.deviceReady = false) :
    exec i s = .next s.refuse := by
  cases i with
  | init maxLeds pinMask16 drive => exact absurd rfl (hinit maxLeds pinMask16 drive)
  | set index r g b => simp [exec, execSet, hs]
  | setAll r g b => simp [exec, execSetAll, hs]
  | triggerUpdate => simp [exec, execTriggerUpdate, hs]
  | tickStart | tickSlot | refill => cases hi

/-- Settles O10: the fields are those of `State.reset`, in which there is no Device. -/
theorem powerOnState : Obligations.PowerOnState :=
  ⟨rfl, rfl, rfl, rfl, rfl, rfl, rfl, rfl, rfl, rfl, rfl, rfl, rfl, rfl,
    fun _ hi hinit => exec_refused_of_not_ready hi hinit rfl⟩

theorem State.reset_canonical : State.reset.canonical :=
  ⟨List.Pairwise.nil, List.Pairwise.nil, List.Pairwise.nil, List.Pairwise.nil⟩

theorem State.reset_consistent : State.reset.Consistent :=
  ⟨State.reset_canonical, fun _ => ⟨rfl, rfl, rfl, rfl, rfl, rfl⟩, nofun⟩

/-- Settles O53: at power-on there is no Device, nothing runs and every memory is empty. -/
theorem resetMeetsTheInvariants : Obligations.ResetMeetsTheInvariants :=
  ⟨State.reset_canonical, State.reset_consistent, State.reset_consistent, nofun⟩

/-! ### Reads that fault -/

/-- Settles O23: the two checks of a read, in their order. -/
theorem readOfNoByteFaults : Obligations.ReadOfNoByteFaults := by
  refine fun s sp a => ⟨fun hout => ?_, fun hin hnone => ?_⟩
  · rw [State.memRead, if_neg (by omega)]
  · rw [State.memRead, if_pos hin, hnone]

end Sys2Proof.Machine
end

section
/-!
PROOFS. The Transfer Orchestrator (43_transfer_orchestrator.md): the ports, ARM and STOP, the two TICKs in closed form, the
waveform of one bit cell, and the event latch with the missed deadline.
-/

namespace Sys2Proof.Machine

/-! ### The ports and the engines -/

/-- What a port write leaves: the pin's level, driven exactly if the value has the mask's bit (rule R66). -/
theorem State.portWrite_eq (s : State) (p : Port) (v : Byte) :
    s.portWrite p v = { s with pinLevel := if v &&& s.mask = 0 then s.pinLevel else match p with
      | .pulseStart => .high
      | .pulseEnd => .low } := by
  by_cases h : v &&& s.mask = 0
  · simp only [State.portWrite, if_neg (not_not_intro h), if_pos h]
  · simp only [State.portWrite, if_pos h, if_neg h]
    cases p <;> rfl

/-- Settles O30, port by port. -/
theorem portWriteEffect : Obligations.PortWriteEffect := fun s v =>
  ⟨s.portWrite_eq .pulseStart v, s.portWrite_eq .pulseEnd v⟩

/-- Settles O31: the assignments of ARM in sequence. -/
theorem armResult : Obligations.ArmResult := State.arm_eq

/-- STOP in every state: its port write of the mask drives the pin unless the mask is 0 (rule R180). -/
theorem State.stop_eq_of_mask (s : State) :
    s.stop = { s with timEn := false, idleEn := false, encEn := false,
                      pinLevel := if s.mask = 0 then s.pinLevel else .low } := by
  have h := State.portWrite_eq { s with timEn := false, idleEn := false, encEn := false } .pulseEnd s.mask
  rwa [BitVec.and_self] at h

/-- Settles O32: the engines off, then a port write of the mask. -/
theorem stopResult : Obligations.StopResult := State.stop_eq_of_mask

/-! ### The encode channel's pointer -/

theorem encPos_wraps_iff (p : BitVec 9) : p + 1 = BitVec.ofNat 9 Config.slotsPerHalf ↔ p.toNat = 287 := by
  have hsize : Config.slotsPerHalf = 288 := rfl
  rw [hsize]
  constructor
  · intro h
    have hn := congrArg BitVec.toNat h
    have hlt := p.isLt
    simp [BitVec.toNat_add] at hn
    omega
  · intro h
    apply BitVec.eq_of_toNat_eq
    simp [BitVec.toNat_add, h]

/-- The pointer after a transfer, in every state: the next slot, or at slot 287 the other buffer and the event (rule R179). -/
theorem State.advanceSlot_eq (s : State) :
    s.advanceSlot = { s with
      encPos := if s.encPos.toNat = 287 then 0 else s.encPos + 1
      encCt := if s.encPos.toNat = 287 then !s.encCt else s.encCt
      refillMissed := if s.encPos.toNat = 287 then s.refillMissed || s.halfDonePending else s.refillMissed
      halfDonePending := if s.encPos.toNat = 287 then true else s.halfDonePending } := by
  unfold State.advanceSlot
  by_cases h : s.encPos.toNat = 287
  · rw [if_pos ((encPos_wraps_iff _).2 h)]; simp [h, State.raiseHalfDone]
  · rw [if_neg (fun hw => h ((encPos_wraps_iff _).1 hw))]; simp [h]

section
variable (s : State)
@[simp] theorem State.advanceSlot_encPos :
    s.advanceSlot.encPos = if s.encPos.toNat = 287 then 0 else s.encPos + 1 := by rw [State.advanceSlot_eq]
@[simp] theorem State.advanceSlot_encCt :
    s.advanceSlot.encCt = if s.encPos.toNat = 287 then !s.encCt else s.encCt := by rw [State.advanceSlot_eq]
@[simp] theorem State.advanceSlot_halfDonePending :
    s.advanceSlot.halfDonePending = if s.encPos.toNat = 287 then true else s.halfDonePending := by
  rw [State.advanceSlot_eq]
@[simp] theorem State.advanceSlot_refillMissed : s.advanceSlot.refillMissed =
    if s.encPos.toNat = 287 then s.refillMissed || s.halfDonePending else s.refillMissed := by rw [State.advanceSlot_eq]
@[simp] theorem State.advanceSlot_phase : s.advanceSlot.phase = s.phase := by rw [State.advanceSlot_eq]
@[simp] theorem State.advanceSlot_timPhase : s.advanceSlot.timPhase = s.timPhase := by rw [State.advanceSlot_eq]
@[simp] theorem State.advanceSlot_pinLevel : s.advanceSlot.pinLevel = s.pinLevel := by rw [State.advanceSlot_eq]
@[simp] theorem State.advanceSlot_frameValid : s.advanceSlot.frameValid = s.frameValid := by rw [State.advanceSlot_eq]
@[simp] theorem State.advanceSlot_txCells : s.advanceSlot.txCells = s.txCells := by rw [State.advanceSlot_eq]
@[simp] theorem State.advanceSlot_wave : s.advanceSlot.wave = s.wave := by rw [State.advanceSlot_eq]
end

/-! ### The TICKs in closed form -/

theorem TimPhase.next_of_ne_start {p : TimPhase} (h : p ≠ .start) : p.next = if p = .even then .odd else .start := by
  cases p with
  | start => exact absurd rfl h
  | even | odd => rfl

theorem Level.symbol_eq (l : Level) : l.symbol = if l = .high then .one else .zero := by cases l <;> rfl

theorem State.recordCell_eq (s : State) :
    s.recordCell = { s with txCells := if s.timPhase = .odd then s.txCells ++ [s.pinLevel.symbol] else s.txCells } := by
  unfold State.recordCell
  split <;> rfl

/-- A transfer of TICK_SLOT, in one record update (rules R178, R179, R184). -/
theorem State.slotTransfer_eq (s : State) (v : Byte) :
    ((s.recordCell.portWrite .pulseEnd v).advanceSlot).endTick =
      { s.portWrite .pulseEnd v with
        txCells := if s.timPhase = .odd then s.txCells ++ [s.pinLevel.symbol] else s.txCells
        encPos := if s.encPos.toNat = 287 then 0 else s.encPos + 1
        encCt := if s.encPos.toNat = 287 then !s.encCt else s.encCt
        refillMissed := if s.encPos.toNat = 287 then s.refillMissed || s.halfDonePending else s.refillMissed
        halfDonePending := if s.encPos.toNat = 287 then true else s.halfDonePending
        timPhase := s.timPhase.next
        wave := s.wave ++ [(s.portWrite .pulseEnd v).pinLevel] } := by
  rw [State.advanceSlot_eq, State.portWrite_eq, State.recordCell_eq, State.portWrite_eq]
  rfl

theorem execTickStart_transfer {s : State} {v : Byte} (ht : s.timEn = true) (hp : s.timPhase = .start)
    (hi : s.idleEn = true) (hv : Memory.read s.isb 0 = some v) :
    execTickStart s = .next (s.portWrite .pulseStart v).endTick := by
  have hread : s.memRead .isb 0 = .ok v := (State.memRead_ok_iff ..).2 ⟨Nat.zero_lt_one, hv⟩
  simp [execTickStart, State.tickStartEnabled, ht, hp, hi, hread]

theorem execTickStart_idle {s : State} (ht : s.timEn = true) (hp : s.timPhase = .start) (hi : s.idleEn = false) :
    execTickStart s = .next s.endTick := by
  simp [execTickStart, State.tickStartEnabled, ht, hp, hi]

theorem State.tickSlotEnabled_of_phase {s : State} (ht : s.timEn = true) (hp : s.timPhase ≠ .start) :
    s.tickSlotEnabled = true := by
  cases hq : s.timPhase with
  | start => exact absurd hq hp
  | even | odd => simp [State.tickSlotEnabled, ht, hq]

theorem execTickSlot_transfer {s : State} {v : Byte} (ht : s.timEn = true) (hp : s.timPhase ≠ .start)
    (hpos : s.encPos.toNat < 288) (he : s.encEn = true)
    (hv : Memory.read (s.mem (.wb s.encCt)) s.encPos.toNat = some v) :
    execTickSlot s = .next ((s.recordCell.portWrite .pulseEnd v).advanceSlot).endTick := by
  have hread : s.memRead (.wb s.encCt) s.encPos.toNat = .ok v := (State.memRead_ok_iff ..).2 ⟨hpos, hv⟩
  simp [execTickSlot, State.tickSlotEnabled_of_phase ht hp, he, hread]

theorem execTickSlot_idle {s : State} (ht : s.timEn = true) (hp : s.timPhase ≠ .start) (he : s.encEn = false) :
    execTickSlot s = .next s.endTick := by
  simp [execTickSlot, State.tickSlotEnabled_of_phase ht hp, he]

/-- Settles O33: the transfer of the idle channel, or none, and the end of the TICK. -/
theorem tickStartResult : Obligations.TickStartResult := by
  refine fun s ht hp => ⟨fun v hi hv => ?_, fun hi => ?_⟩
  · rw [exec, execTickStart_transfer ht hp hi hv]
    simp [State.endTick, State.recordLevel, hp, TimPhase.next]
  · rw [exec, execTickStart_idle ht hp hi]
    simp [State.endTick, State.recordLevel, hp, TimPhase.next]

/-- Settles O34: the transfer of the encode channel, or none, and the end of the TICK. -/
theorem tickSlotResult : Obligations.TickSlotResult := by
  refine fun s ht hp hpos => ⟨fun v he hv => ?_, fun he => ?_⟩
  · rw [exec, execTickSlot_transfer ht hp hpos he hv, State.slotTransfer_eq, TimPhase.next_of_ne_start hp,
      Level.symbol_eq]
  · rw [exec, execTickSlot_idle ht hp he]
    simp [State.endTick, State.recordLevel, TimPhase.next_of_ne_start hp]

/-! ### One bit cell -/

/-- The cell start: the idle slot holds the mask, so the pin rises (rules R177, R181). -/
theorem execTickStart_raises {s : State} (ht : s.timEn = true) (hi : s.idleEn = true) (hp : s.timPhase = .start)
    (hmask : s.mask ≠ 0) (hisb : Memory.read s.isb 0 = some s.mask) :
    exec .tickStart s = .next { s with pinLevel := .high, timPhase := .even, wave := s.wave ++ [.high] } := by
  rw [(tickStartResult s ht hp).1 _ hi hisb, State.portWrite_eq, BitVec.and_self, if_neg hmask]

/-- The even slot: only a 0 bit makes the early edge (rules R91, R181). -/
theorem execTickSlot_even {s : State} {bit : Bool} (ht : s.timEn = true) (he : s.encEn = true) (hp : s.timPhase = .even)
    (hmask : s.mask ≠ 0) (hpos : s.encPos.toNat < 287) (hpin : s.pinLevel = .high)
    (hslot : Memory.read (s.mem (.wb s.encCt)) s.encPos.toNat = some (slotFor s.mask bit)) :
    exec .tickSlot s = .next { s with
      pinLevel := if bit then .high else .low, timPhase := .odd, encPos := s.encPos + 1,
      wave := s.wave ++ [if bit then .high else .low] } := by
  have hne : s.encPos.toNat ≠ 287 := by omega
  rw [(tickSlotResult s ht (by simp [hp]) (by omega)).1 _ he hslot, State.portWrite_eq, slotFor_and]
  cases bit with
  | true => simp [hp, hne, hpin]
  | false =>
    rw [if_neg Bool.false_ne_true, if_neg hmask]
    simp [hp, hne]

/-- The odd slot: the pin falls, after its level was recorded as the cell's symbol (rules R181, R184). -/
theorem execTickSlot_odd {s : State} (ht : s.timEn = true) (he : s.encEn = true) (hp : s.timPhase = .odd)
    (hmask : s.mask ≠ 0) (hpos : s.encPos.toNat < 288)
    (hslot : Memory.read (s.mem (.wb s.encCt)) s.encPos.toNat = some s.mask) :
    ∃ t, exec .tickSlot s = .next t ∧ t.wave = s.wave ++ [.low] ∧
      t.txCells = s.txCells ++ [if s.pinLevel = .high then .one else .zero] ∧ t.pinLevel = .low ∧ t.timPhase = .start ∧
      t.encPos = if s.encPos.toNat = 287 then 0 else s.encPos + 1 := by
  refine ⟨_, (tickSlotResult s ht (by simp [hp]) hpos).1 _ he hslot, ?_⟩
  rw [State.portWrite_eq, BitVec.and_self, if_neg hmask]
  simp [hp]

/-- Settles O35: the cell's three TICKs, one after the other. -/
theorem bitCellWaveform : Obligations.BitCellWaveform := by
  intro s bit ht hi he hp hmask hisb hpos heven hodd
  have hnext : (s.encPos + 1).toNat = s.encPos.toNat + 1 := by
    rw [BitVec.toNat_add]; show (s.encPos.toNat + 1) % 512 = _; omega
  have h₁ := execTickStart_raises ht hi hp hmask hisb
  have h₂ := execTickSlot_even (s := { s with pinLevel := .high, timPhase := .even, wave := s.wave ++ [.high] })
    ht he rfl hmask hpos rfl heven
  obtain ⟨t₃, h₃, hwave, hcells, hpin, hphase, hpos₃⟩ := execTickSlot_odd
    (s := { s with
      pinLevel := if bit then .high else .low, timPhase := .odd, encPos := s.encPos + 1,
      wave := s.wave ++ [.high] ++ [if bit then .high else .low] })
    ht he rfl hmask (by show (s.encPos + 1).toNat < 288; omega) (by show Memory.read _ (s.encPos + 1).toNat = _; rwa [hnext])
  refine ⟨_, _, t₃, h₁, h₂, h₃, ?_, ?_, hpin, hphase, ?_⟩
  · rw [hwave]; simp
  · rw [hcells]; cases bit <;> simp
  · have hpos₃' : t₃.encPos = if (s.encPos + 1).toNat = 287 then 0 else s.encPos + 1 + 1 := hpos₃
    rw [hpos₃', hnext]
    split
    · simp; omega
    · rw [BitVec.toNat_add, hnext]; show (s.encPos.toNat + 1 + 1) % 512 = _; omega

/-! ### The event latch and the missed deadline -/

section
variable (s : State)
@[simp] theorem State.finishFrame_refillMissed : s.finishFrame.refillMissed = s.refillMissed := by
  simp [State.finishFrame, State.stop]
@[simp] theorem State.launch_halfDonePending : s.launch.halfDonePending = false := rfl
@[simp] theorem State.launch_refillMissed : s.launch.refillMissed = s.refillMissed := rfl
end

/-- `i` is the TICK_SLOT that transfers slot 287, the last of a half (rule R179). -/
def LastSlot (i : Instr) (s : State) : Prop := i = .tickSlot ∧ s.encEn = true ∧ s.encPos.toNat = 287

/-- `i` is a TRIGGER_UPDATE that starts a frame (rule R201). -/
def AcceptedTrigger (i : Instr) (s : State) : Prop :=
  i = .triggerUpdate ∧ s.initialized = true ∧ s.halted = false ∧ s.inProgress = false

/-- `i` is an INIT that finds no Device and no halt (rule R120). -/
def FirstInit (i : Instr) (s : State) : Prop :=
  (∃ maxLeds pinMask16 drive, i = .init maxLeds pinMask16 drive) ∧ s.initialized = false ∧ s.halted = false

/-- What a step does to the event latch and to the missed flag: the last slot of a half raises the event, REFILL and an
accepted TRIGGER_UPDATE clear it, the INIT that makes the Device clears both, and any other step leaves both. -/
theorem exec_latch_cases {i : Instr} {s t : State} (h : exec i s = .next t) :
    (LastSlot i s ∧ t.halfDonePending = true ∧ t.refillMissed = (s.refillMissed || s.halfDonePending)) ∨
    ((i = .refill ∨ AcceptedTrigger i s) ∧ t.halfDonePending = false ∧ t.refillMissed = s.refillMissed) ∨
    (FirstInit i s ∧ t.initialized = true ∧ t.halfDonePending = false ∧ t.refillMissed = false) ∨
    (i ≠ .refill ∧ ¬ LastSlot i s ∧ t.halfDonePending = s.halfDonePending ∧ t.refillMissed = s.refillMissed) := by
  cases i with
  | init maxLeds pinMask16 drive =>
    rcases execInit_cases h with ⟨-, rfl⟩ | ⟨-, -, -, rfl⟩ | ⟨hs, hh, -, rfl⟩
    · exact .inr (.inr (.inr ⟨nofun, nofun, rfl, rfl⟩))
    · exact .inr (.inr (.inr ⟨nofun, nofun, rfl, rfl⟩))
    · exact .inr (.inr (.inl ⟨⟨⟨_, _, _, rfl⟩, hs, hh⟩, rfl, rfl, rfl⟩))
  | set index r g b =>
    refine .inr (.inr (.inr ⟨nofun, nofun, ?_⟩))
    rcases execSet_cases h with ⟨-, rfl⟩ | ⟨-, -, rfl⟩ | ⟨-, -, rfl⟩
    · exact ⟨rfl, rfl⟩
    · exact ⟨rfl, rfl⟩
    · simp [State.writePixel_eq]
  | setAll r g b =>
    refine .inr (.inr (.inr ⟨nofun, nofun, ?_⟩))
    rcases execSetAll_cases h with ⟨-, rfl⟩ | ⟨-, rfl⟩
    · exact ⟨rfl, rfl⟩
    · simp [State.writePixels_eq]
  | triggerUpdate =>
    rcases execTriggerUpdate_cases h with ⟨-, rfl⟩ | ⟨-, -, rfl⟩ | ⟨hready, hip, u, hu, rfl⟩
    · exact .inr (.inr (.inr ⟨nofun, nofun, rfl, rfl⟩))
    · exact .inr (.inr (.inr ⟨nofun, nofun, rfl, rfl⟩))
    · obtain ⟨hs, hh⟩ := State.deviceReady_iff.1 hready
      obtain ⟨m₀, m₁, c, e, d, rfl, -, -⟩ := State.prefill_shape hu
      exact .inr (.inl ⟨.inr ⟨rfl, hs, hh, hip⟩, rfl, rfl⟩)
  | tickStart =>
    refine .inr (.inr (.inr ⟨nofun, nofun, ?_⟩))
    obtain ⟨-, -, ⟨-, v, -, rfl⟩ | ⟨-, rfl⟩⟩ := execTickStart_cases h
    · simp
    · exact ⟨rfl, rfl⟩
  | tickSlot =>
    obtain ⟨-, -, ⟨he, v, -, rfl⟩ | ⟨he, rfl⟩⟩ := execTickSlot_cases h
    · by_cases hpos : s.encPos.toNat = 287
      · exact .inl ⟨⟨rfl, he, hpos⟩, by simp [hpos], by simp [hpos]⟩
      · exact .inr (.inr (.inr ⟨nofun, fun hlast => hpos hlast.2.2, by simp [hpos], by simp [hpos]⟩))
    · exact .inr (.inr (.inr ⟨nofun, fun hlast => Bool.false_ne_true (he.symm.trans hlast.2.1), rfl, rfl⟩))
  | refill =>
    refine .inr (.inl ⟨.inl rfl, ?_⟩)
    obtain ⟨-, ⟨-, rfl⟩ | ⟨-, u, hu, rfl⟩⟩ := execRefill_cases h
    · simp
    · obtain ⟨m, c, e, d, rfl, -⟩ := State.fill_shape hu
      simp

/-- Settles O36, by what a step does to the latch. -/
theorem eventLatchSetAndCleared : Obligations.EventLatchSetAndCleared := by
  intro i s t h
  rcases exec_latch_cases h with ⟨⟨rfl, he, hpos⟩, hp, -⟩ | ⟨hi, hp, -⟩ | ⟨⟨hi, hs, hh⟩, ht, hp, -⟩ | ⟨hi, -, hp, -⟩
  · exact ⟨fun _ _ => ⟨rfl, hpos, he⟩, fun _ hoff => by simp [hp] at hoff, nofun⟩
  · exact ⟨fun _ hon => by simp [hp] at hon, fun _ _ => hi.imp id .inl, fun _ => hp⟩
  · exact ⟨fun _ hon => by simp [hp] at hon, fun _ _ => .inr (.inr ⟨hi, hs, hh, ht⟩), fun _ => hp⟩
  · exact ⟨fun hoff hon => by simp [hp, hoff] at hon, fun hon hoff => by simp [hp, hon] at hoff, fun hr => absurd hr hi⟩

/-- Settles O37, by what a step does to the missed flag. -/
theorem missedDeadlineIsStickyAndExact : Obligations.MissedDeadlineIsStickyAndExact := by
  intro i s t h
  have hexact : LastSlot i s ∧ s.halfDonePending = true ↔
      i = .tickSlot ∧ s.encEn = true ∧ s.encPos.toNat = 287 ∧ s.halfDonePending = true := by simp [LastSlot, and_assoc]
  rw [← hexact]
  rcases exec_latch_cases h with ⟨hlast, -, hm⟩ | ⟨hi, -, hm⟩ | ⟨⟨⟨_, _, _, rfl⟩, hs, -⟩, -, -, hm⟩ | ⟨-, hnot, -, hm⟩
  · exact ⟨fun _ hon => by simp [hm, hon], fun hoff => by simp [hm, hoff, hlast]⟩
  · have hne : ¬ LastSlot i s := by
      rintro ⟨rfl, -⟩
      exact hi.elim nofun fun ha => nomatch ha.1
    exact ⟨fun _ hon => by simp [hm, hon], fun hoff => by simp [hm, hoff, hne]⟩
  · exact ⟨fun hinit => by simp [hs] at hinit, fun _ => by simp [hm, LastSlot]⟩
  · exact ⟨fun _ hon => by simp [hm, hon], fun hoff => by simp [hm, hoff, hnot]⟩

end Sys2Proof.Machine
end

section
/-!
PROOFS. The invariants (10_state.md, 44_refill_controller.md): canonical memories, consistent states and the frame invariant
are kept by every step, and a consistent state always has a next one. Each invariant is shown of `exec` step by step, from
what the step's meaning can do; taking a turn and a refusal touch nothing that an invariant reads.
-/

namespace Sys2Proof.Machine

/-! ### Canonical memories -/

/-- Every meaning keeps every memory in canonical form. -/
theorem exec_keeps_wf {i : Instr} {s t : State} (hs : ∀ sp, Memory.wf (s.mem sp)) (h : exec i s = .next t) :
    ∀ sp, Memory.wf (t.mem sp) := by
  cases i with
  | init maxLeds pinMask16 drive =>
    rcases execInit_cases h with ⟨-, rfl⟩ | ⟨-, -, -, rfl⟩ | ⟨-, -, -, rfl⟩
    · exact hs
    · exact hs
    · intro sp
      rw [State.complete_mem, State.construct_mem]
      cases sp with
      | pix => exact (Memory.holds_ofFn _ _).wf
      | isb => exact (Memory.holds_ofFn _ _).wf
      | wb h => exact (holds_idlePattern _).wf
  | set index r g b =>
    rcases execSet_cases h with ⟨-, rfl⟩ | ⟨-, -, rfl⟩ | ⟨-, -, rfl⟩
    · exact hs
    · simpa using hs
    · rw [State.writePixel_eq]
      exact State.setMem_wf hs (Memory.wf_pixelWrite (hs .pix) _ r g b)
  | setAll r g b =>
    rcases execSetAll_cases h with ⟨-, rfl⟩ | ⟨-, rfl⟩
    · exact hs
    · rw [State.writePixels_eq]
      exact State.setMem_wf hs (Memory.wf_pixelWrites (hs .pix) r g b _)
  | triggerUpdate =>
    rcases execTriggerUpdate_cases h with ⟨-, rfl⟩ | ⟨-, -, rfl⟩ | ⟨-, -, u, hu, rfl⟩
    · exact hs
    · exact hs
    · obtain ⟨v, hv, hu⟩ := State.prefill_fills hu
      have hrewind : ∀ sp, Memory.wf (s.rewind.mem sp) := by simpa using hs
      simpa only [State.launch_mem] using State.fill_wf hu (State.fill_wf hv hrewind)
  | tickStart =>
    obtain ⟨-, -, ⟨-, v, -, rfl⟩ | ⟨-, rfl⟩⟩ := execTickStart_cases h
    · simpa using hs
    · exact hs
  | tickSlot =>
    obtain ⟨-, -, ⟨-, v, -, rfl⟩ | ⟨-, rfl⟩⟩ := execTickSlot_cases h
    · simpa [State.advanceSlot_mem] using hs
    · exact hs
  | refill =>
    obtain ⟨-, ⟨-, rfl⟩ | ⟨-, u, hu, rfl⟩⟩ := execRefill_cases h
    · simpa [State.finishFrame_mem] using hs
    · have htoggle : ∀ sp, Memory.wf (s.toggleActive.mem sp) := by simpa using hs
      simpa using State.fill_wf hu htoggle

theorem exec_keeps_canonical {i : Instr} {s t : State} (hs : s.canonical) (h : exec i s = .next t) : t.canonical :=
  (State.canonical_iff t).2 (exec_keeps_wf ((State.canonical_iff s).1 hs) h)

theorem State.takeTurn_canonical {s : State} (hs : s.canonical) : s.takeTurn.canonical := by
  simpa [State.canonical] using hs

/-- Settles O54: no meaning writes a memory out of order. -/
theorem canonicalMemoriesKept : Obligations.CanonicalMemoriesKept := fun _ _ =>
  step_keeps (P := State.canonical) (fun _ => State.takeTurn_canonical) (fun _ hs => hs)
    (fun _ _ _ => exec_keeps_canonical)

/-! ### Consistent states -/

/-- Every meaning keeps a consistent Device consistent. -/
theorem exec_keeps_deviceOk {i : Instr} {s t : State} (hinit : s.initialized = true) (hd : s.DeviceOk)
    (h : exec i s = .next t) : t.DeviceOk := by
  cases i with
  | init maxLeds pinMask16 drive =>
    rw [execInit_refused h hinit]
    exact State.respond_ok hd _
  | set index r g b =>
    rcases execSet_cases h with ⟨-, rfl⟩ | ⟨-, -, rfl⟩ | ⟨-, hlt, rfl⟩
    · exact State.respond_ok hd _
    · exact State.raise_ok hd _
    · rw [State.writePixel_eq]
      exact State.setPix_ok hd (hd.pix_holds.pixelWrite (by omega) r g b)
  | setAll r g b =>
    rcases execSetAll_cases h with ⟨-, rfl⟩ | ⟨-, rfl⟩
    · exact State.respond_ok hd _
    · rw [State.writePixels_eq]
      exact State.setPix_ok hd (hd.pix_holds.pixelWrites r g b (Nat.le_refl _))
  | triggerUpdate =>
    rcases execTriggerUpdate_cases h with ⟨-, rfl⟩ | ⟨-, -, rfl⟩ | ⟨-, hip, u, hu, rfl⟩
    · exact State.respond_ok hd _
    · exact State.respond_ok hd _
    · exact (State.trigger_ok hd hip hu).2
  | tickStart =>
    obtain ⟨ht, hp, -⟩ := execTickStart_cases h
    obtain ⟨hex, hok⟩ := State.tickStart_ok hd ht hp
    rwa [← outcome_next_inj (hex.symm.trans h)]
  | tickSlot =>
    obtain ⟨ht, hp, -⟩ := execTickSlot_cases h
    exact State.tickSlot_ok hd ht hp h
  | refill => exact State.refill_ok hd h

/-- Before INIT a step only answers the host, unless it is the INIT that makes the Device: nothing runs and no event is
pending (rules R52, R236, R270). -/
theorem exec_cases_before_init {i : Instr} {s t : State} (hinit : s.initialized = false) (hs : s.PoweredOn)
    (h : exec i s = .next t) :
    (∃ st, t = s.respond st) ∨
    (∃ maxLeds pinMask16 drive, t = (s.construct maxLeds pinMask16 drive).complete ∧ t.DeviceOk) := by
  have hready : s.deviceReady ≠ true := by simp [State.deviceReady, hinit]
  cases i with
  | init maxLeds pinMask16 drive =>
    rcases execInit_cases h with ⟨-, rfl⟩ | ⟨-, -, -, rfl⟩ | ⟨-, -, hv, rfl⟩
    · exact .inl ⟨_, rfl⟩
    · exact .inl ⟨_, rfl⟩
    · obtain ⟨hpos, hle, -, -⟩ := initVerdict_ok hv
      exact .inr ⟨_, _, _, rfl, State.construct_ok hpos hle⟩
  | set index r g b =>
    rcases execSet_cases h with ⟨-, rfl⟩ | ⟨hyes, -⟩ | ⟨hyes, -⟩
    · exact .inl ⟨_, rfl⟩
    · exact absurd hyes hready
    · exact absurd hyes hready
  | setAll r g b =>
    rcases execSetAll_cases h with ⟨-, rfl⟩ | ⟨hyes, -⟩
    · exact .inl ⟨_, rfl⟩
    · exact absurd hyes hready
  | triggerUpdate =>
    rcases execTriggerUpdate_cases h with ⟨-, rfl⟩ | ⟨hyes, -⟩ | ⟨hyes, -⟩
    · exact .inl ⟨_, rfl⟩
    · exact absurd hyes hready
    · exact absurd hyes hready
  | tickStart =>
    obtain ⟨ht, -⟩ := execTickStart_cases h
    simp [hs.timEn] at ht
  | tickSlot =>
    obtain ⟨ht, -⟩ := execTickSlot_cases h
    simp [hs.timEn] at ht
  | refill =>
    obtain ⟨hp, -⟩ := execRefill_cases h
    simp [hs.halfDonePending] at hp

theorem State.PoweredOn.respond {s : State} (hs : s.PoweredOn) (st : Status) : (s.respond st).PoweredOn := by
  obtain ⟨⟩ := hs; constructor <;> assumption

theorem State.Consistent.respond {s : State} (hc : s.Consistent) (st : Status) : (s.respond st).Consistent :=
  ⟨hc.canonical, fun hs => (hc.before hs).respond st, fun hs => State.respond_ok (hc.after hs) st⟩

/-- The turn list and the draw counter are in no relation with the other fields. -/
theorem State.Consistent.takeTurn {s : State} (hc : s.Consistent) : s.takeTurn.Consistent := by
  rw [State.takeTurn_eq]
  refine ⟨hc.canonical, fun hs => ?_, fun hs => ?_⟩
  · obtain ⟨⟩ := hc.before hs; constructor <;> assumption
  · obtain ⟨⟩ := hc.after hs; constructor <;> assumption

/-- Every meaning keeps a consistent state consistent. -/
theorem exec_keeps_consistent {i : Instr} {s t : State} (hc : s.Consistent) (h : exec i s = .next t) : t.Consistent := by
  have hcan := exec_keeps_canonical hc.canonical h
  cases hinit : s.initialized with
  | true =>
    have hon : t.initialized = true := (exec_keepsDevice (.inl hinit) h).initialized.trans hinit
    exact ⟨hcan, fun hoff => by simp [hon] at hoff, fun _ => exec_keeps_deviceOk hinit (hc.after hinit) h⟩
  | false =>
    rcases exec_cases_before_init hinit (hc.before hinit) h with ⟨st, rfl⟩ | ⟨_, _, _, rfl, hok⟩
    · exact hc.respond st
    · exact ⟨hcan, nofun, fun _ => hok⟩

/-- Settles O55: every meaning keeps a consistent state consistent, and so do taking a turn and a refusal. -/
theorem consistentKept : Obligations.ConsistentKept := fun _ _ =>
  step_keeps (P := State.Consistent) (fun _ hc => hc.takeTurn) (fun _ hc => hc.respond _)
    (fun _ _ _ => exec_keeps_consistent)

/-! ### Every consistent state has a next one -/

/-- REFILL when the drain is over: STOP, and the frame has ended (rules R204, R209). -/
theorem execRefill_drained {s : State} (hpend : s.halfDonePending = true) (hdr : s.drained = true) :
    execRefill s = .next s.toggleActive.finishFrame.returnFromEvent := by
  have hdr' : s.toggleActive.drained = true := hdr
  simp [execRefill, State.refillEnabled, hpend, hdr']

/-- REFILL before: the half just consumed is filled, in closed form, and the boundary flag sets the phase (rule R204). -/
theorem execRefill_filled {s : State} (hpend : s.halfDonePending = true) (hdr : s.drained = false)
    (hp : s.pixReadable) (hcap : s.capacity.toNat ≤ 1024) (hcur : s.cursor.toNat ≤ s.streamEnd) :
    execRefill s = .next ((s.toggleActive.filled s.activeHalf).setPhase
      (if (s.toggleActive.filled s.activeHalf).endReached then .draining else .streaming)).returnFromEvent := by
  have hdr' : s.toggleActive.drained = false := hdr
  have hfill : s.toggleActive.fill s.activeHalf = .ok (s.toggleActive.filled s.activeHalf) :=
    State.fill_ok _ _ hp hcap hcur
  simp [execRefill, State.refillEnabled, State.refillHalf, hpend, hdr', hfill]

/-- With an event pending, REFILL of a consistent Device completes. -/
theorem State.DeviceOk.refill_completes {s : State} (hd : s.DeviceOk) (hpend : s.halfDonePending = true) :
    ∃ t, execRefill s = .next t := by
  cases hdr : s.drained with
  | true => exact ⟨_, execRefill_drained hpend hdr⟩
  | false => exact ⟨_, execRefill_filled hpend hdr (State.pixReadable_of_holds hd.pix_holds) hd.capacity_le hd.cursor_le⟩

/-- A pending event belongs to a Device (rule R52). -/
theorem State.Consistent.device_of_pending {s : State} (hc : s.Consistent) (hp : s.halfDonePending = true) :
    s.DeviceOk := by
  cases hs : s.initialized with
  | true => exact hc.after hs
  | false => simp [(hc.before hs).halfDonePending] at hp

/-- Settles O56: a host step completes in every consistent state, and an agent is only given a step that is enabled, which
completes on a Device. -/
theorem consistentStateSteps : Obligations.ConsistentStateSteps := by
  intro s hc
  have hturn := hc.takeTurn
  cases hn : s.nextTurn with
  | host w =>
    rcases State.fetch_host hn with ⟨i, hf, hi⟩ | hf
    · rw [step_of_run hf]
      exact hostStepsComplete i _ hturn hi
    · exact ⟨_, step_of_reservedWord hf⟩
  | timer =>
    rw [(agentTakesItsEnabledStep s).1 hn]
    by_cases ht : s.timEn = false
    · exact ⟨_, if_pos ht⟩
    · have hon : s.takeTurn.timEn = true := by simpa using ht
      have hex := (hturn.device_of_running hon).tick_completes hon
      rw [if_neg ht]
      rw [State.takeTurn_timPhase] at hex
      split_ifs at hex ⊢ <;> exact hex
  | refill =>
    rw [(agentTakesItsEnabledStep s).2 hn]
    by_cases hp : s.halfDonePending = true
    · have hpend : s.takeTurn.halfDonePending = true := by simpa using hp
      rw [if_pos hp]
      exact (hturn.device_of_pending hpend).refill_completes hpend
    · exact ⟨_, if_neg hp⟩

/-! ### The frame invariant -/

/-- The response does not bear on where a frame stands. -/
theorem State.FrameOk.respond {s : State} (hf : s.FrameOk) (st : Status) : (s.respond st).FrameOk :=
  State.frameOk_congr hf rfl rfl rfl rfl rfl rfl rfl rfl rfl rfl (fun _ => rfl) rfl rfl rfl

/-- Nor does the model's own turn list. -/
theorem State.FrameOk.takeTurn {s : State} (hf : s.FrameOk) : s.takeTurn.FrameOk :=
  State.frameOk_congr hf (by simp) (by simp) (by simp) (by simp) (by simp) (by simp) (by simp) (by simp) (by simp)
    (by simp) (fun h => by simp) (by simp) (by simp) (by simp)

/-- A pixel write during a frame voids it, so it leaves no sound frame in flight (rules R46, R74, R139). -/
theorem State.taintFrame_not_sound {s : State} (hip : s.taintFrame.complete.inProgress = true) :
    s.taintFrame.complete.frameSound = false := by
  have hon : s.inProgress = true := hip
  simp [State.frameSound, hon]

/-- On a consistent Device whose sound frames stand where their pixels say, every meaning keeps them there: host steps
change nothing of a frame or void it, TRIGGER_UPDATE starts one at its start, and the agents' steps move it along. -/
theorem exec_keeps_frame {i : Instr} {s t : State} (hinit : s.initialized = true) (hd : s.DeviceOk)
    (hs : s.inProgress = true → s.frameSound = true → s.FrameOk) (h : exec i s = .next t)
    (hip : t.inProgress = true) (hsound : t.frameSound = true) : t.FrameOk := by
  cases i with
  | init maxLeds pinMask16 drive =>
    rw [execInit_refused h hinit] at hip hsound ⊢
    exact (hs hip hsound).respond _
  | set index r g b =>
    rcases execSet_cases h with ⟨-, rfl⟩ | ⟨-, -, rfl⟩ | ⟨-, -, rfl⟩
    · exact (hs hip hsound).respond _
    · simp [State.frameSound, State.faulted] at hsound
    · simp [State.taintFrame_not_sound hip] at hsound
  | setAll r g b =>
    rcases execSetAll_cases h with ⟨-, rfl⟩ | ⟨-, rfl⟩
    · exact (hs hip hsound).respond _
    · simp [State.taintFrame_not_sound hip] at hsound
  | triggerUpdate =>
    rcases execTriggerUpdate_cases h with ⟨-, rfl⟩ | ⟨-, -, rfl⟩ | ⟨-, hoff, u, hu, rfl⟩
    · exact (hs hip hsound).respond _
    · exact (hs hip hsound).respond _
    · obtain ⟨rfl, -⟩ := State.trigger_ok hd hoff hu
      exact State.launch_frame hd
  | tickStart =>
    obtain ⟨ht, hp, -⟩ := execTickStart_cases h
    obtain ⟨hex, -⟩ := State.tickStart_ok hd ht hp
    rw [← outcome_next_inj (hex.symm.trans h)] at hip hsound ⊢
    exact State.tickStart_frame hd (hs (by simpa using hip) (by simpa [State.frameSound, State.faulted] using hsound)) hp
  | tickSlot =>
    obtain ⟨ht, hp, -⟩ := execTickSlot_cases h
    obtain ⟨-, hmiss, -⟩ := (State.frameSound_iff t).1 hsound
    obtain ⟨v, -, -, -, hex⟩ := State.tickSlot_state hd ht hp
    have hflags : s.inProgress = true ∧ s.frameSound = true := by
      rw [← outcome_next_inj (hex.symm.trans h)] at hip hsound
      rw [State.frameSound_iff] at hsound ⊢
      obtain ⟨hvalid, hmissed, hhalt⟩ := hsound
      refine ⟨by simpa using hip, by simpa using hvalid, ?_, by simpa using hhalt⟩
      simp only [State.endTick_refillMissed, State.advanceSlot_refillMissed, State.portWrite_refillMissed,
        State.recordCell_refillMissed] at hmissed
      split at hmissed
      · exact (Bool.or_eq_false_iff.1 hmissed).1
      · exact hmissed
    exact State.tickSlot_frame hd (hs hflags.1 hflags.2) ht hp h hmiss
  | refill =>
    have hflags : s.inProgress = true ∧ s.frameSound = true := by
      obtain ⟨-, ⟨-, rfl⟩ | ⟨-, u, hu, rfl⟩⟩ := execRefill_cases h
      · simp at hip
      · obtain ⟨m, c, e, d, rfl, -⟩ := State.fill_shape hu
        exact ⟨by simpa using hip, by simpa [State.frameSound, State.faulted] using hsound⟩
    obtain ⟨-, hmiss, -⟩ := (State.frameSound_iff s).1 hflags.2
    exact State.refill_frame hd (hs hflags.1 hflags.2) hmiss h hip

theorem State.FrameInv.respond {s : State} (hf : s.FrameInv) (st : Status) : (s.respond st).FrameInv :=
  ⟨hf.consistent.respond st, fun hs hip hsound => (hf.frame hs hip hsound).respond st⟩

theorem State.FrameInv.takeTurn {s : State} (hf : s.FrameInv) : s.takeTurn.FrameInv :=
  ⟨hf.consistent.takeTurn, fun hs hip hsound => (hf.frame (by simpa using hs) (by simpa using hip)
    (by simpa [State.frameSound, State.faulted] using hsound)).takeTurn⟩

/-- Every meaning keeps the frame invariant. -/
theorem exec_keeps_frameInv {i : Instr} {s t : State} (hf : s.FrameInv) (h : exec i s = .next t) : t.FrameInv := by
  refine ⟨exec_keeps_consistent hf.consistent h, fun hon hip hsound => ?_⟩
  cases hinit : s.initialized with
  | true => exact exec_keeps_frame hinit (hf.consistent.after hinit) (hf.frame hinit) h hip hsound
  | false =>
    rcases exec_cases_before_init hinit (hf.consistent.before hinit) h with ⟨st, rfl⟩ | ⟨_, _, _, rfl, -⟩
    · simp [hinit] at hon
    · cases hip

/-- Settles O57: every meaning keeps the frame invariant, and so do taking a turn and a refusal. -/
theorem frameInvariantKept : Obligations.FrameInvariantKept := fun _ _ =>
  step_keeps (P := State.FrameInv) (fun _ hf => hf.takeTurn) (fun _ hf => hf.respond _)
    (fun _ _ _ => exec_keeps_frameInv)

end Sys2Proof.Machine
end

section
/-!
PROOFS. What the frame invariant says of a frame (43_transfer_orchestrator.md, 44_refill_controller.md): where the hardware
stands, which REFILL ends the frame, and what the pin has then sent.
-/

namespace Sys2Proof.Machine

/-! ### Where the hardware stands -/

theorem length_cellWaves (f : Nat → Bool) (n : Nat) : ((List.range n).flatMap (fun i => cellWave (f i))).length = 3 * n := by
  induction n with
  | zero => rfl
  | succ n ih => rw [List.range_succ, List.flatMap_append, List.length_append, ih]; simp [cellWave]; omega

/-- Three samples for every cell sent, and those of the cell in progress (rules R181, R183). -/
theorem State.FrameOk.wave_length {s : State} (hf : s.FrameOk) :
    s.wave.length = 3 * s.txCells.length + (match s.timPhase with | .start => 0 | .even => 1 | .odd => 2) := by
  rw [hf.waveform, List.length_append, length_cellWaves]
  cases s.timPhase <;> rfl

/-- The slot transferred next, from the number of cells sent (rule R183). -/
theorem State.FrameOk.encPos_eq {s : State} (hd : s.DeviceOk) (hf : s.FrameOk) :
    s.encPos.toNat = 2 * (s.txCells.length % 144) + (if s.timPhase = .odd then 1 else 0) := by
  have hpos := hf.position
  have hpar := hd.parity
  omega

/-- TICK_SLOT adds one sample. -/
theorem execTickSlot_wave_length {s t : State} (h : execTickSlot s = .next t) : t.wave.length = s.wave.length + 1 := by
  obtain ⟨-, -, ⟨-, v, -, rfl⟩ | ⟨-, rfl⟩⟩ := execTickSlot_cases h <;> simp

/-- Settles O58: the invariant's position and waveform, and 432 samples are 144 whole cells. -/
theorem hardwarePositionInTheFrame : Obligations.HardwarePositionInTheFrame := by
  intro s hinv hinit hip hsound
  have hf := hinv.frame hinit hip hsound
  have hpos := hf.encPos_eq (hinv.consistent.after hinit)
  have hwave := hf.wave_length
  refine ⟨hwave, hpos, hf.target, fun t h => ?_⟩
  obtain ⟨-, hslot, -⟩ := execTickSlot_cases h
  rw [execTickSlot_wave_length h, hwave]
  cases hp : s.timPhase with
  | start => exact absurd hp hslot
  | even =>
    rw [hp, if_neg (by decide)] at hpos
    simp only
    omega
  | odd =>
    rw [hp, if_pos rfl] at hpos
    simp only
    omega

/-! ### The end of a frame -/

/-- The drain is over exactly when the guard half has begun: all data halves and the idle half were sent (rules R209, R210). -/
theorem State.FrameOk.drained_iff {s : State} (hd : s.DeviceOk) (hf : s.FrameOk) (hip : s.inProgress = true)
    (hpend : s.halfDonePending = true) : s.drained = true ↔ s.halvesSent = s.dataHalves + 1 := by
  have hfills : s.fillsMade = s.halvesSent + 1 := by simp [State.fillsMade, hpend]
  have hdrain := hf.drain
  have hle := hf.fills_le
  rw [State.drained_iff]
  constructor
  · rintro ⟨-, hcount⟩
    omega
  · intro hsent
    have hend : s.endReached = true := by
      rw [hf.boundary, decide_eq_true_iff, ← State.dataHalves_le]
      omega
    exact ⟨hd.end_draining hip hend, by omega⟩

/-- What the invariant gives where a REFILL is enabled in a sound frame: a consistent Device with a frame in flight, which
stands where its pixels say. -/
theorem State.FrameInv.at_refill {s t : State} (hinv : s.FrameInv) (hinit : s.initialized = true)
    (hsound : s.frameSound = true) (h : execRefill s = .next t) :
    s.halfDonePending = true ∧ s.inProgress = true ∧ s.DeviceOk ∧ s.FrameOk := by
  obtain ⟨hpend, -⟩ := execRefill_cases h
  have hd := hinv.consistent.after hinit
  have hip : s.inProgress = true := hd.engines.1 ▸ hd.pending_running hpend
  exact ⟨hpend, hip, hd, hinv.frame hinit hip hsound⟩

/-- During a frame REFILL ends it exactly if the drain is over (rule R204). -/
theorem execRefill_ends_iff {s t : State} (hip : s.inProgress = true) (h : execRefill s = .next t) :
    t.inProgress = false ↔ s.drained = true := by
  obtain ⟨-, ⟨hdr, rfl⟩ | ⟨hdr, u, hu, rfl⟩⟩ := execRefill_cases h
  · simp [hdr]
  · obtain ⟨m, c, e, d, rfl, -⟩ := State.fill_shape hu
    simp [hdr, hip]

/-- Settles O59: the drain is over when `ceil(capacity / 6) + 1` halves were sent. -/
theorem frameEndsAtItsEvent : Obligations.FrameEndsAtItsEvent := by
  intro s t hinv hinit hsound h
  obtain ⟨hpend, hip, hd, hf⟩ := hinv.at_refill hinit hsound h
  exact (execRefill_ends_iff hip h).trans (hf.drained_iff hd hip hpend)

/-! ### What was sent -/

section
variable {s : State}

theorem State.cellBit_of_lt {n : Nat} (h : n < 24 * s.capacity.toNat) : s.cellBit n = s.streamBit n := if_pos h

theorem State.cellBit_of_le {n : Nat} (h : 24 * s.capacity.toNat ≤ n) : s.cellBit n = true := if_neg (by omega)

/-- Once all data was sent, the symbols are the data in stream order and long pulses after it (rule R214). -/
theorem State.FrameOk.sent_data {s : State} (hf : s.FrameOk) (hlen : 24 * s.capacity.toNat ≤ s.txCells.length) :
    s.txCells = s.dataSymbols ++ List.replicate (s.txCells.length - 24 * s.capacity.toNat) .one := by
  have hsplit : s.txCells.length = 24 * s.capacity.toNat + (s.txCells.length - 24 * s.capacity.toNat) := by omega
  conv_lhs => rw [hf.sent, hsplit, List.range_add, List.map_append, List.map_map]
  congr 1
  · exact List.map_congr_left fun n hn => by rw [State.cellBit_of_lt (by simpa using hn)]
  · rw [List.eq_replicate_iff]
    refine ⟨by simp, fun x hx => ?_⟩
    obtain ⟨n, -, rfl⟩ := List.mem_map.1 hx
    rw [Function.comp_apply, State.cellBit_of_le (by omega)]
    rfl

/-- Once all data was sent, the pin's levels begin with the waveforms of the data bits (rules R181, R214). -/
theorem State.FrameOk.wave_data {s : State} (hf : s.FrameOk) (hlen : 24 * s.capacity.toNat ≤ s.txCells.length) :
    (List.range (24 * s.capacity.toNat)).flatMap (fun n => cellWave (s.streamBit n)) <+: s.wave := by
  have hsplit : s.txCells.length = 24 * s.capacity.toNat + (s.txCells.length - 24 * s.capacity.toNat) := by omega
  have hdata : (List.range (24 * s.capacity.toNat)).flatMap (fun n => cellWave (s.streamBit n)) =
      (List.range (24 * s.capacity.toNat)).flatMap (fun n => cellWave (s.cellBit n)) :=
    List.flatMap_congr fun n hn => by rw [State.cellBit_of_lt (by simpa using hn)]
  rw [hdata, hf.waveform, hsplit, List.range_add, List.flatMap_append, List.append_assoc, ← hsplit]
  exact List.prefix_append _ _

end

/-- The REFILL that ends a frame of a consistent Device leaves the symbols and levels sent and comes to rest (rules R180,
R209, R285). -/
theorem execRefill_finishes {s t : State} (hd : s.DeviceOk) (hdr : s.drained = true) (h : execRefill s = .next t) :
    t.txCells = s.txCells ∧ t.wave = s.wave ∧ t.pinLevel = .low ∧ (s.frameSound = true → t.final = true) := by
  have hstop : s.toggleActive.stop =
      { s.toggleActive with timEn := false, idleEn := false, encEn := false, pinLevel := .low } :=
    State.stop_eq hd.mask_oneHot.ne_zero
  obtain ⟨-, ⟨-, rfl⟩ | ⟨hno, -⟩⟩ := execRefill_cases h
  · rw [State.final_iff, State.frameSound_iff]
    simp +contextual [State.finishFrame, hstop]
  · simp [hdr] at hno

/-- Settles O60: when the guard half has begun, everything the pixels say was sent. -/
theorem frameDelivered : Obligations.FrameDelivered := by
  intro s t hinv hinit hsound h hoff
  obtain ⟨hpend, hip, hd, hf⟩ := hinv.at_refill hinit hsound h
  have hdr := (execRefill_ends_iff hip h).1 hoff
  obtain ⟨hcells, hwave, hlow, hfinal⟩ := execRefill_finishes hd hdr h
  have hsent : s.txCells.length / 144 = (s.capacity.toNat + 5) / 6 + 1 := (hf.drained_iff hd hip hpend).1 hdr
  have hlen : 24 * s.capacity.toNat ≤ s.txCells.length := by omega
  refine ⟨⟨s.txCells.length % 144, by omega, ?_⟩, ?_, hfinal hsound, hlow⟩
  · rw [hcells, show 144 * ((s.capacity.toNat + 5) / 6 + 1) - 24 * s.capacity.toNat + s.txCells.length % 144 =
      s.txCells.length - 24 * s.capacity.toNat by omega]
    exact hf.sent_data hlen
  · rw [hwave]
    exact hf.wave_data hlen

end Sys2Proof.Machine
end

section
/-!
PROOFS. INIT (40_device_init.md): the mask and the lane of a one-hot pin mask, the order of the checks, what a good INIT
establishes, and that a failed one may be retried.
-/

namespace Sys2Proof.Machine

/-! ### One-hot pin masks -/

theorem popcount16_oneHot {p : Nat} (hp : p < 16) : popcount16 (1#16 <<< p) = 1 := by
  have h : ∀ q : Fin 16, popcount16 (1#16 <<< q.val) = 1 := by decide
  exact h ⟨p, hp⟩

theorem transitionMask_of_pin {p : Nat} (hp : p < 16) : transitionMask (1#16 <<< p) = 1#8 <<< (p % 8) := by
  have h : ∀ q : Fin 16, transitionMask (1#16 <<< q.val) = 1#8 <<< (q.val % 8) := by decide
  exact h ⟨p, hp⟩

theorem pinLaneOf_of_pin {p : Nat} (hp : p < 16) : (pinLaneOf (1#16 <<< p)).toNat = p / 8 := by
  have h : ∀ q : Fin 16, (pinLaneOf (1#16 <<< q.val)).toNat = q.val / 8 := by decide
  exact h ⟨p, hp⟩

/-- The transition mask is the pin mask's byte in the pin's lane (rules R43, R97). -/
theorem transitionMask_eq_lane_byte {p : Nat} (hp : p < 16) :
    transitionMask (1#16 <<< p) = ((1#16 <<< p) >>> (8 * (p / 8))).setWidth 8 := by
  have h : ∀ q : Fin 16, transitionMask (1#16 <<< q.val) = ((1#16 <<< q.val) >>> (8 * (q.val / 8))).setWidth 8 := by decide
  exact h ⟨p, hp⟩

/-- A 16-bit value with one 1 bit is a power of two: the bits that are counted are a one-element list (rule R97). -/
theorem eq_oneHot_of_popcount16 {v : BitVec 16} (h : popcount16 v = 1) : ∃ p, p < 16 ∧ v = 1#16 <<< p := by
  rw [popcount16, List.countP_eq_length_filter, List.length_eq_one_iff] at h
  obtain ⟨p, hp⟩ := h
  have hbit : ∀ i, i < 16 → (v.getLsbD i = true ↔ i = p) := fun i hi => by
    rw [← List.mem_singleton (a := i) (b := p), ← hp]
    simp [Config.pinCount, hi]
  have hlt : p < 16 := by
    have hmem : p ∈ (List.range Config.pinCount).filter (fun i => v.getLsbD i) := by simp [hp]
    exact List.mem_range.1 (List.mem_filter.1 hmem).1
  refine ⟨p, hlt, BitVec.eq_of_getLsbD_eq fun i hi => ?_⟩
  rw [Bool.eq_iff_iff, hbit i hi]
  simp [hi]
  omega

theorem popcount16_eq_one_iff (v : BitVec 16) : popcount16 v = 1 ↔ ∃ p, p < 16 ∧ v = 1#16 <<< p :=
  ⟨eq_oneHot_of_popcount16, fun ⟨_, hp, hv⟩ => hv ▸ popcount16_oneHot hp⟩

/-- Settles O12: one counted bit is a power of two, and each of the sixteen has its mask and lane. -/
theorem pinMaskDerivation : Obligations.PinMaskDerivation := by
  refine fun v => ⟨popcount16_eq_one_iff v, ?_⟩
  rintro p hp rfl
  exact ⟨transitionMask_of_pin hp, pinLaneOf_of_pin hp, transitionMask_eq_lane_byte hp⟩

/-! ### The order of the checks -/

theorem initVerdict_eq_allocationFailure_iff {ram : Nat} {maxLeds pinMask16 : BitVec 16} :
    initVerdict ram maxLeds pinMask16 = .allocationFailure ↔
      1 ≤ maxLeds.toNat ∧ maxLeds.toNat ≤ 1024 ∧ popcount16 pinMask16 = 1 ∧ ram < maxLeds.toNat := by
  unfold initVerdict Config.maxCapacity
  split_ifs with hcount hpin hram
  · simp only [false_iff]; omega
  · simp only [false_iff]; omega
  · simp only [true_iff]; omega
  · simp only [false_iff]; omega

theorem initVerdict_eq_ok_iff {ram : Nat} {maxLeds pinMask16 : BitVec 16} :
    initVerdict ram maxLeds pinMask16 = .ok ↔
      1 ≤ maxLeds.toNat ∧ maxLeds.toNat ≤ 1024 ∧ popcount16 pinMask16 = 1 ∧ maxLeds.toNat ≤ ram := by
  refine ⟨initVerdict_ok, fun ⟨hpos, hle, hpin, hram⟩ => ?_⟩
  unfold initVerdict Config.maxCapacity
  rw [if_neg (by omega), if_neg (by omega), if_neg (by omega)]

/-- With the decided pixel storage the allocation never fails: a legal count fits (rule R122). -/
theorem initVerdict_ne_allocationFailure (maxLeds pinMask16 : BitVec 16) :
    initVerdict Config.pixelRamLeds maxLeds pinMask16 ≠ .allocationFailure := fun h => by
  obtain ⟨-, hle, -, hram⟩ := initVerdict_eq_allocationFailure_iff.1 h
  exact absurd (Nat.lt_of_lt_of_le hram hle) (by decide)

/-- No step brings up AllocationFailure. -/
theorem exec_no_allocationFailure {i : Instr} {s t : State} (h : exec i s = .next t)
    (hs : s.lastStatus ≠ .allocationFailure) : t.lastStatus ≠ .allocationFailure := by
  cases hi : isHostStep i with
  | false => rwa [(exec_event_keeps_response hi h).1]
  | true =>
    by_cases hinit : ∃ maxLeds pinMask16 drive, i = .init maxLeds pinMask16 drive
    · obtain ⟨maxLeds, pinMask16, drive, rfl⟩ := hinit
      rcases execInit_cases h with ⟨-, rfl⟩ | ⟨-, -, -, rfl⟩ | ⟨-, -, -, rfl⟩
      · simp
      · exact initVerdict_ne_allocationFailure maxLeds pinMask16
      · simp
    · rcases exec_host_lastStatus hi (fun a b c he => hinit ⟨a, b, c, he⟩) h with ht | ht | ht <;> simp [ht]

/-- Settles O14: the verdict's branches, and no step answers AllocationFailure. -/
theorem initCheckOrder : Obligations.InitCheckOrder :=
  ⟨fun _ _ _ => ⟨initVerdict_eq_allocationFailure_iff, initVerdict_eq_ok_iff, initVerdict_eq_invalidConfiguration_iff⟩,
    fun _ _ _ => exec_no_allocationFailure⟩

/-! ### What INIT answers -/

/-- With no Device and no halt, INIT with a legal count and a one-hot pin mask constructs the Device (rule R120). -/
theorem execInit_constructs {s : State} {maxLeds : BitVec 16} {p : Nat} (drive : BitVec 1) (hs : s.initialized = false)
    (hh : s.halted = false) (hpos : 1 ≤ maxLeds.toNat) (hle : maxLeds.toNat ≤ 1024) (hp : p < 16) :
    execInit maxLeds (1#16 <<< p) drive s = .next (s.construct maxLeds (1#16 <<< p) drive).complete := by
  have hv : initVerdict Config.pixelRamLeds maxLeds (1#16 <<< p) = .ok :=
    initVerdict_eq_ok_iff.2 ⟨hpos, hle, popcount16_oneHot hp, hle⟩
  simp [execInit, hs, hh, hv]

/-- Settles O11: the fields are those of `State.construct`, with the mask and the lane of pin `p`. -/
theorem initConstructsTheDevice : Obligations.InitConstructsTheDevice := by
  intro s maxLeds drive p hs hh hpos hle hp
  have hcap := State.construct_capacity_toNat s (1#16 <<< p) drive hle
  have hmask := transitionMask_of_pin hp
  have hmem := State.construct_mem s maxLeds (1#16 <<< p) drive
  have hwb : ∀ h, (s.construct maxLeds (1#16 <<< p) drive).complete.mem (.wb h) = idlePattern (1#8 <<< (p % 8)) :=
    fun h => by rw [State.complete_mem, hmem, hmask]
  have hisb : (s.construct maxLeds (1#16 <<< p) drive).complete.isb = Memory.ofFn 1 (fun _ => 1#8 <<< (p % 8)) :=
    hmask ▸ hmem .isb
  refine ⟨_, execInit_constructs drive hs hh hpos hle hp, rfl, hh, rfl, hcap, hmask, pinLaneOf_of_pin hp, rfl, rfl, ?_, ?_,
    fun h => ?_, Memory.holds_ofFn _ _, fun j hj => Memory.read_ofFn _ hj, ?_⟩
  · rw [hisb]; exact Memory.holds_ofFn _ _
  · rw [hisb]; exact Memory.read_ofFn _ Nat.zero_lt_one
  · rw [hwb]
    exact ⟨holds_idlePattern _, fun k hk => ⟨read_idlePattern_evenSlot _ hk, read_idlePattern_oddSlot _ hk⟩⟩
  · exact ⟨rfl, rfl, rfl, rfl, rfl, rfl, rfl, rfl, rfl, rfl, rfl, rfl, rfl, rfl, rfl, rfl, rfl, rfl, rfl, rfl⟩

/-- Settles O15: a failed INIT is a response, after which there is still no Device and no halt. -/
theorem failedInitMayBeRetried : Obligations.FailedInitMayBeRetried := by
  intro s t maxLeds pinMask16 drive hs hh h hbad
  have hfail : ∃ st, t = s.respond st := by
    rcases execInit_cases h with ⟨-, rfl⟩ | ⟨-, -, -, rfl⟩ | ⟨-, -, -, rfl⟩
    · exact ⟨_, rfl⟩
    · exact ⟨_, rfl⟩
    · exact absurd rfl hbad
  obtain ⟨st, rfl⟩ := hfail
  exact ⟨rfl, fun m d p hpos hle hp => ⟨_, execInit_constructs d hs hh hpos hle hp, rfl, rfl⟩⟩

end Sys2Proof.Machine
end

section
/-!
PROOFS. Memories and the Pixel Store (20_memory.md, 41_pixel_store.md, 60_exceptions.md): a read after a write, SET and
SET_ALL, and which host steps are refused.
-/

namespace Sys2Proof.Machine

/-! ### A read after a write -/

@[simp] theorem State.memWrite_spaceSize (s : State) (sp : Space) (a : Nat) (v : Byte) (sq : Space) :
    (s.memWrite sp a v).spaceSize sq = s.spaceSize sq := by
  cases sq <;> simp [State.spaceSize, State.streamEnd]

theorem State.memRead_memWrite_self {s : State} {sp : Space} {a : Nat} (v : Byte) (ha : a < s.spaceSize sp) :
    (s.memWrite sp a v).memRead sp a = .ok v := by
  rw [State.memRead_ok_iff, State.memWrite_spaceSize]
  exact ⟨ha, by simp [State.memWrite]⟩

/-- A write reaches one index of one space. -/
theorem State.read_memWrite_other (s : State) {sp sq : Space} {a b : Nat} (v : Byte) (h : sq ≠ sp ∨ b ≠ a) :
    Memory.read ((s.memWrite sp a v).mem sq) b = Memory.read (s.mem sq) b := by
  unfold State.memWrite
  by_cases hsp : sp = sq
  · subst hsp
    rw [State.mem_setMem_self]
    exact Memory.read_write_other _ v (h.resolve_left (not_not_intro rfl)).symm
  · rw [State.mem_setMem_other _ _ hsp]

theorem State.memRead_memWrite_other (s : State) {sp sq : Space} {a b : Nat} (v : Byte) (h : sq ≠ sp ∨ b ≠ a) :
    (s.memWrite sp a v).memRead sq b = s.memRead sq b := by
  simp only [State.memRead, State.memWrite_spaceSize, State.read_memWrite_other s v h]

/-- Settles O22: the index written, every other one, and the order of the indices. -/
theorem readAfterWrite : Obligations.ReadAfterWrite := fun s sp a v ha =>
  ⟨State.memRead_memWrite_self v ha, fun _ _ h => State.memRead_memWrite_other s v h, fun hc =>
    (State.canonical_iff _).2 fun sq => State.memWrite_wf s sp sq a v ((State.canonical_iff s).1 hc sq)⟩

/-! ### SET and SET_ALL -/

theorem execSet_writes {s : State} {index : BitVec 16} (r g b : Byte) (hready : s.deviceReady = true)
    (hlt : index.toNat < s.capacity.toNat) :
    execSet index r g b s =
      .next (s.setMem .pix (Memory.pixelWrite s.pix index.toNat r g b)).taintFrame.complete := by
  rw [execSet, if_neg (by simp [hready]), if_neg (by omega), State.writePixel_eq]

theorem execSetAll_writes {s : State} (r g b : Byte) (hready : s.deviceReady = true) :
    execSetAll r g b s =
      .next (s.setMem .pix (Memory.pixelWrites s.pix r g b s.capacity.toNat)).taintFrame.complete := by
  rw [execSetAll, if_neg (by simp [hready]), State.writePixels_eq]

/-- Settles O16: the state with one pixel written, and which bytes that are. -/
theorem setWritesOnePixel : Obligations.SetWritesOnePixel := by
  intro s index r g b hs hh hlt
  refine ⟨_, execSet_writes r g b (State.deviceReady_iff.2 ⟨hs, hh⟩) hlt, rfl, ?_⟩
  have hread := Memory.read_pixelWrite s.pix index.toNat r g b
  refine ⟨?_, ?_, ?_, fun j hj => ?_⟩
  · exact (hread _).trans (by rw [if_pos (by omega), Nat.mul_mod_right]; rfl)
  · exact (hread _).trans (by rw [if_pos (by omega), Nat.mul_add_mod]; rfl)
  · exact (hread _).trans (by rw [if_pos (by omega), Nat.mul_add_mod]; rfl)
  · exact (hread j).trans (if_neg (by omega))

/-- Settles O18: the state with every pixel written, and which bytes that are. -/
theorem setAllWritesEveryPixel : Obligations.SetAllWritesEveryPixel := by
  intro s r g b hs hh
  refine ⟨_, execSetAll_writes r g b (State.deviceReady_iff.2 ⟨hs, hh⟩), rfl, ?_⟩
  have hread := Memory.read_pixelWrites s.pix r g b s.capacity.toNat
  refine ⟨fun i hi => ⟨?_, ?_, ?_⟩, fun j hj => ?_⟩
  · exact (hread _).trans (by rw [if_pos (by omega), Nat.mul_mod_right]; rfl)
  · exact (hread _).trans (by rw [if_pos (by omega), Nat.mul_add_mod]; rfl)
  · exact (hread _).trans (by rw [if_pos (by omega), Nat.mul_add_mod]; rfl)
  · exact (hread j).trans (if_neg (by omega))

/-! ### SET_ALL is every SET -/

/-- Canonical memories that read the same everywhere are equal. -/
theorem Memory.eq_of_read {m m' : Memory} (hw : Memory.wf m) (hw' : Memory.wf m')
    (hr : ∀ a, Memory.read m a = Memory.read m' a) : m = m' := by
  have hmem : ∀ a, a ∈ Memory.keys m ↔ a ∈ Memory.keys m' := fun a => by
    rw [← not_iff_not, ← Memory.read_eq_none_iff, ← Memory.read_eq_none_iff, hr]
  have hkeys : Memory.keys m = Memory.keys m' := by
    rw [Memory.wf_iff_keys] at hw hw'
    have hperm : (Memory.keys m).Perm (Memory.keys m') :=
      (List.perm_ext_iff_of_nodup (hw.imp Nat.ne_of_lt) (hw'.imp Nat.ne_of_lt)).2 hmem
    exact hperm.eq_of_pairwise (fun _ _ _ _ hab hba => absurd hab (Nat.lt_asymm hba)) hw hw'
  exact Memory.eq_of_keys_of_read hw hkeys fun a _ => hr a

/-- The pixel memory after the pixels of a list were given one colour, in the list's order. -/
def Memory.pixelWriteList (m : Memory) (r g b : Byte) : List Nat → Memory
  | [] => m
  | i :: l => Memory.pixelWriteList (Memory.pixelWrite m i r g b) r g b l

theorem Memory.wf_pixelWriteList {m : Memory} (h : Memory.wf m) (r g b : Byte) (l : List Nat) :
    Memory.wf (Memory.pixelWriteList m r g b l) := by
  induction l generalizing m with
  | nil => exact h
  | cons i l ih => exact ih (Memory.wf_pixelWrite h i r g b)

theorem Memory.read_pixelWriteList (m : Memory) (r g b : Byte) (l : List Nat) (j : Nat) :
    Memory.read (Memory.pixelWriteList m r g b l) j =
      if j / 3 ∈ l then some (channel r g b (j % 3)) else Memory.read m j := by
  induction l generalizing m with
  | nil => simp [Memory.pixelWriteList]
  | cons i l ih =>
    rw [Memory.pixelWriteList, ih, Memory.read_pixelWrite]
    by_cases hl : j / 3 ∈ l
    · simp [hl]
    · by_cases hi : j / 3 = i <;> simp [hl, hi]

/-- Every order of the first `n` pixels leaves the same pixel memory. -/
theorem Memory.pixelWriteList_perm_range {m : Memory} (h : Memory.wf m) (r g b : Byte) {n : Nat} {l : List Nat}
    (hl : l.Perm (List.range n)) : Memory.pixelWriteList m r g b l = Memory.pixelWrites m r g b n := by
  refine Memory.eq_of_read (Memory.wf_pixelWriteList h r g b l) (Memory.wf_pixelWrites h r g b n) fun j => ?_
  rw [Memory.read_pixelWriteList, Memory.read_pixelWrites]
  simp [hl.mem_iff]

/-- One SET after another, stopping where one does not complete. -/
def runSet (r g b : Byte) (o : Host.Outcome State Fault Refusal) (index : BitVec 16) : Host.Outcome State Fault Refusal :=
  match o with
  | .next u => exec (.set index r g b) u
  | .fault f => .fault f
  | .refused f => .refused f

/-- A run of SETs inside the capacity writes the listed pixels, one after the other; marking the frame and answering OK again
and again is doing so once. -/
theorem foldl_runSet (r g b : Byte) (order : List (BitVec 16)) (index : BitVec 16) {s : State}
    (hready : s.deviceReady = true) (hlt : ∀ i ∈ index :: order, i.toNat < s.capacity.toNat) :
    (index :: order).foldl (runSet r g b) (.next s) = .next (s.setMem .pix (Memory.pixelWriteList s.pix r g b
      ((index :: order).map BitVec.toNat))).taintFrame.complete := by
  induction order generalizing index s with
  | nil => exact execSet_writes r g b hready (hlt index (by simp))
  | cons next order ih =>
    have hfirst : runSet r g b (.next s) index = _ := execSet_writes r g b hready (hlt index (by simp))
    have hrest := ih next (s := (s.setMem .pix (Memory.pixelWrite s.pix index.toNat r g b)).taintFrame.complete) hready
      (fun i hi => hlt i (List.mem_cons_of_mem _ hi))
    rw [List.foldl_cons, hfirst, hrest]
    simp [State.setMem, State.taintFrame, State.complete, State.respond, Memory.pixelWriteList]

/-- Settles O19: both write the colour into every pixel below the capacity, and a memory is what it reads as. -/
theorem setAllIsEverySet : Obligations.SetAllIsEverySet := by
  intro s r g b order hs hh hpos hw hperm
  have hready := State.deviceReady_iff.2 ⟨hs, hh⟩
  have hlt : ∀ i ∈ order, i.toNat < s.capacity.toNat := fun i hi =>
    List.mem_range.1 (hperm.mem_iff.1 (List.mem_map_of_mem hi))
  show order.foldl (runSet r g b) (.next s) = execSetAll r g b s
  cases order with
  | nil =>
    have hlen := hperm.length_eq
    simp at hlen
    omega
  | cons index order =>
    rw [foldl_runSet r g b order index hready hlt, execSetAll_writes r g b hready,
      Memory.pixelWriteList_perm_range hw r g b hperm]

/-! ### Halts and refusals -/

/-- After a halt every host step is refused (rules R234, R236 (d)). -/
theorem exec_refused_of_halted {i : Instr} {s : State} (hi : isHostStep i = true) (hh : s.halted = true) :
    exec i s = .next s.refuse := by
  by_cases hinit : ∃ maxLeds pinMask16 drive, i = .init maxLeds pinMask16 drive
  · obtain ⟨maxLeds, pinMask16, drive, rfl⟩ := hinit
    simp [exec, execInit, hh]
  · exact exec_refused_of_not_ready hi (fun a b c he => hinit ⟨a, b, c, he⟩) (by simp [State.deviceReady, hh])

/-- Settles O17: the range check of SET, and the lifecycle check of every host step. -/
theorem setOutOfRangeHalts : Obligations.SetOutOfRangeHalts := by
  refine ⟨rfl, fun s index r g b hs hh hle => ⟨?_, fun i t hi ht => exec_refused_of_halted hi ht⟩⟩
  rw [exec, execSet, if_neg (by simp [State.deviceReady, hs, hh]), if_pos hle]
  rfl

/-- Once a Device is ready for it, no host step but INIT is refused. -/
theorem exec_not_refused_of_ready {i : Instr} {s t : State} (hi : isHostStep i = true)
    (hinit : ∀ maxLeds pinMask16 drive, i ≠ .init maxLeds pinMask16 drive) (hready : s.deviceReady = true)
    (h : exec i s = .next t) : t.lastStatus ≠ .refused := by
  have hno : s.deviceReady ≠ false := by simp [hready]
  cases i with
  | init maxLeds pinMask16 drive => exact absurd rfl (hinit maxLeds pinMask16 drive)
  | set index r g b =>
    rcases execSet_cases h with ⟨hoff, -⟩ | ⟨-, -, rfl⟩ | ⟨-, -, rfl⟩
    · exact absurd hoff hno
    · simp
    · simp
  | setAll r g b =>
    rcases execSetAll_cases h with ⟨hoff, -⟩ | ⟨-, rfl⟩
    · exact absurd hoff hno
    · simp
  | triggerUpdate =>
    rcases execTriggerUpdate_cases h with ⟨hoff, -⟩ | ⟨-, -, rfl⟩ | ⟨-, -, u, -, rfl⟩
    · exact absurd hoff hno
    · simp
    · exact Status.noConfusion
  | tickStart | tickSlot | refill => cases hi

/-- INIT that finds no Device and no halt is not refused (rule R120). -/
theorem execInit_not_refused {maxLeds pinMask16 : BitVec 16} {drive : BitVec 1} {s t : State}
    (hs : s.initialized = false) (hh : s.halted = false) (h : execInit maxLeds pinMask16 drive s = .next t) :
    t.lastStatus ≠ .refused := by
  rcases execInit_cases h with ⟨hno, -⟩ | ⟨-, -, hv, rfl⟩ | ⟨-, -, -, rfl⟩
  · simp [hs, hh] at hno
  · rcases hv with hv | hv <;> simp [hv]
  · simp

/-- When the Device's lifecycle gives a host step no meaning (rule R236 (b) to (d)). -/
def Unmeant (i : Instr) (s : State) : Prop :=
  s.halted = true ∨
    ((∃ maxLeds pinMask16 drive, i = .init maxLeds pinMask16 drive) ∧ s.initialized = true) ∨
    ((∀ maxLeds pinMask16 drive, i ≠ .init maxLeds pinMask16 drive) ∧ s.initialized = false)

/-- A host step is refused, or completes with another answer, by the lifecycle alone. -/
theorem exec_refusal_cases {i : Instr} {s t : State} (hi : isHostStep i = true) (h : exec i s = .next t) :
    (Unmeant i s ∧ t = s.refuse) ∨ (¬ Unmeant i s ∧ t.lastStatus ≠ .refused) := by
  cases hh : s.halted with
  | true => exact .inl ⟨.inl hh, (outcome_next_inj ((exec_refused_of_halted hi hh).symm.trans h)).symm⟩
  | false =>
    by_cases hinit : ∃ maxLeds pinMask16 drive, i = .init maxLeds pinMask16 drive
    · cases hs : s.initialized with
      | true =>
        refine .inl ⟨.inr (.inl ⟨hinit, hs⟩), ?_⟩
        obtain ⟨_, _, _, rfl⟩ := hinit
        exact execInit_refused h hs
      | false =>
        refine .inr ⟨by simp [Unmeant, hh, hs]; exact hinit, ?_⟩
        obtain ⟨_, _, _, rfl⟩ := hinit
        exact execInit_not_refused hs hh h
    · have hne : ∀ maxLeds pinMask16 drive, i ≠ .init maxLeds pinMask16 drive := fun a b c he => hinit ⟨a, b, c, he⟩
      cases hs : s.initialized with
      | true =>
        exact .inr ⟨by simp [Unmeant, hh, hs]; exact hne,
          exec_not_refused_of_ready hi hne (State.deviceReady_iff.2 ⟨hs, hh⟩) h⟩
      | false =>
        refine .inl ⟨.inr (.inr ⟨hne, hs⟩), ?_⟩
        exact (outcome_next_inj ((exec_refused_of_not_ready hi hne (by simp [State.deviceReady, hs])).symm.trans h)).symm

/-- Settles O21: the lifecycle decides, and a refusal is a response. -/
theorem hostStepRefusedExactlyWhen : Obligations.HostStepRefusedExactlyWhen := by
  refine ⟨rfl, fun i s t hi h => ?_⟩
  rcases exec_refusal_cases hi h with ⟨hun, rfl⟩ | ⟨hme, hst⟩
  · exact ⟨⟨fun _ => hun, fun _ => rfl⟩, fun _ => rfl⟩
  · exact ⟨⟨fun he => absurd he hst, fun hun => absurd hun hme⟩, fun he => absurd he hst⟩

end Sys2Proof.Machine
end

section
/-!
PROOFS. The Bit Encoder (42_bit_encoder.md): what ENCODE_HALF leaves, its slots decoded back, the other tail policy, and that
a fill leaves nothing of what its half held.
-/

namespace Sys2Proof.Machine

/-! ### ENCODE_HALF -/

theorem State.updateEndReached_of_cursor (s : State) :
    s.updateEndReached.endReached = decide (s.updateEndReached.cursor.toNat = 3 * s.capacity.toNat) := rfl

theorem toNat_cursor_ofNat {n cap : Nat} (hcap : cap ≤ 1024) (hn : n ≤ 3 * cap) : (BitVec.ofNat 12 n).toNat = n := by
  rw [BitVec.toNat_ofNat]
  exact Nat.mod_eq_of_lt (by omega)

/-- Settles O24: ENCODE_HALF in closed form, read slot by slot. -/
theorem encodeHalfResult : Obligations.EncodeHalfResult := by
  intro s h hcap hpix hcur
  refine ⟨_, State.encodeHalf_ok s h (State.pixReadable_of_holds hpix) hcap hcur, ?_, ?_, ?_, fun k hk => ?_, fun a ha => ?_⟩
  · generalize Memory.evenWrites _ _ _ _ = m
    cases h <;> rfl
  · exact toNat_cursor_ofNat hcap (Nat.min_le_right _ _)
  · rw [State.updateEndReached_of_cursor]
    simp
  · simp only [State.updateEndReached_mem, State.setCursor_mem, State.mem_setMem_self]
    exact (Memory.read_evenWrites _ 0 _ 144 k).trans (if_pos (by omega))
  · simp only [State.updateEndReached_mem, State.setCursor_mem, State.mem_setMem_self]
    exact (Memory.onlyEven_evenWrites _ 0 _ 144 (by omega)).2 a ha

/-- The slot of a bit decodes back to it, for every mask that can make an edge (rules R91, R92). -/
theorem slotBit_slotFor {mask : Byte} (hmask : mask ≠ 0) (bit : Bool) : slotBit (slotFor mask bit) = bit := by
  cases bit with
  | true => rfl
  | false => exact beq_eq_false_iff_ne.2 hmask

/-- Settles O25: each slot that carries a bit is the slot of that bit. -/
theorem encodedHalfDecodesBack : Obligations.EncodedHalfDecodesBack := by
  intro s t h hcap hpix hcur hmask hok k hk hdata
  obtain ⟨t', hok', -, -, -, hslots, -⟩ := encodeHalfResult s h hcap hpix hcur
  obtain rfl : t = t' := Except.ok.inj (hok.symm.trans hok')
  refine ⟨slotFor s.mask (s.streamBit (8 * s.cursor.toNat + k)), ?_, ?_, slotBit_slotFor hmask _⟩
  · exact (hslots k hk).trans (by rw [if_pos hdata]; rfl)
  · unfold slotFor
    split <;> simp

/-! ### The other tail policy -/

/-- ENCODE_HALF's loop writes no cell past those of the bytes that are left. -/
theorem State.encodeBytes_leaves_past (n : Nat) : ∀ {s t : State} {h : Half} {k k' c : Nat}, s.streamEnd < 4096 →
    s.encodeBytes h k n = .ok (k', t) → k + 8 * (s.streamEnd - s.cursor.toNat) ≤ c →
    Memory.read (t.mem (.wb h)) (evenSlot c) = Memory.read (s.mem (.wb h)) (evenSlot c) := by
  induction n with
  | zero =>
    intro s t h k k' c hend hr hc
    simp only [State.encodeBytes, Except.ok.injEq, Prod.mk.injEq] at hr
    rw [hr.2]
  | succ n ih =>
    intro s t h k k' c hend hr hc
    unfold State.encodeBytes at hr
    split at hr
    · next hlt =>
      split at hr
      · next v _ =>
        rw [State.encodeByte_eq] at hr
        have hnext : (s.cursor + 1).toNat = s.cursor.toNat + 1 := by
          rw [BitVec.toNat_add]; show (s.cursor.toNat + 1) % 4096 = _; omega
        have hrest := ih (c := c) (by simpa using hend) hr (by
          simp only [State.setCursor_streamEnd, State.setMem_streamEnd, State.setCursor_cursor, hnext]
          omega)
        rw [hrest, State.setCursor_mem, State.mem_setMem_self, Memory.read_evenWrites, if_neg (by omega)]
      · cases hr
    · simp only [Except.ok.injEq, Prod.mk.injEq] at hr
      rw [hr.2]

/-- Settles O26: without padding, the half holds what the loop left in it. -/
theorem keepStaleLeavesTheTail : Obligations.KeepStaleLeavesTheTail := by
  intro s t h hcap hr k _ htail
  have hend := State.streamEnd_eq s
  unfold State.encodeHalfWith at hr
  split at hr
  · next k' u hu =>
    obtain rfl := Except.ok.inj hr
    simp only [State.padTail, State.updateEndReached_mem]
    exact State.encodeBytes_leaves_past _ (by omega) hu (by omega)
  · cases hr

/-! ### FILL forgets what its half held -/

theorem State.cellSlot_setMem (s : State) (h : Half) (m : Memory) : (s.setMem (.wb h) m).cellSlot = s.cellSlot := by
  funext c i
  simp [State.cellSlot, State.streamBit_setMem]

/-- 144 even slots written over two full buffers that agree in the odd ones leave the same buffer. -/
theorem Memory.evenWrites_eq_of_odd {m m' : Memory} (h : Memory.Holds m 288) (h' : Memory.Holds m' 288)
    (hodd : ∀ k, k < 144 → Memory.read m (oddSlot k) = Memory.read m' (oddSlot k)) (f : Nat → Byte) :
    Memory.evenWrites m 0 f 144 = Memory.evenWrites m' 0 f 144 := by
  refine (h.evenWrites 0 f 144 (by omega)).ext_slots (h'.evenWrites 0 f 144 (by omega)) (fun k hk => ?_) (fun k hk => ?_)
  · rw [Memory.read_evenWrites, Memory.read_evenWrites, if_pos (by omega), if_pos (by omega)]
  · have hodd' : oddSlot k % 2 = 1 := by unfold oddSlot; omega
    rw [Memory.read_evenWrites_odd _ _ _ _ _ hodd', Memory.read_evenWrites_odd _ _ _ _ _ hodd', hodd k hk]

theorem State.filled_setMem {s : State} {h : Half} {m : Memory} (hs : Memory.Holds (s.mem (.wb h)) 288)
    (hm : Memory.Holds m 288) (hodd : ∀ k, k < 144 → Memory.read m (oddSlot k) = Memory.read (s.mem (.wb h)) (oddSlot k)) :
    (s.setMem (.wb h) m).filled h = s.filled h := by
  unfold State.filled
  simp only [State.setMem_endReached, State.setMem_cursor, State.setMem_streamEnd, State.cellSlot_setMem,
    State.mem_setMem_self, State.setMem_setMem, Memory.evenWrites_eq_of_odd hm hs hodd]

/-- Settles O28: a fill writes every even slot, with values that do not depend on the buffer. -/
theorem fillLeavesNothingStale : Obligations.FillLeavesNothingStale := by
  rintro s u h m rfl hcap hpix hcur hs hm hodd
  rw [State.fill_ok s h (State.pixReadable_of_holds hpix) hcap hcur, ← State.filled_setMem hs hm hodd]
  exact State.fill_ok _ h (State.pixReadable_of_holds (by simpa using hpix)) (by simpa using hcap)
    (by simpa [State.streamEnd_eq] using hcur)

end Sys2Proof.Machine
end

section
/-!
PROOFS. The Refill Controller (44_refill_controller.md): the frame that TRIGGER_UPDATE starts, the black frame, the two kinds
of REFILL, the transitions of the frame state machine, and that the half being read is not written.
-/

namespace Sys2Proof.Machine

/-! ### TRIGGER_UPDATE -/

/-- Where the pixel store is full the prefill meets no fault: both fills take their closed form (rules R151, R201). -/
theorem State.prefill_filled {s : State} (hcap : s.capacity.toNat ≤ 1024) (hp : Memory.Holds s.pix (3 * s.capacity.toNat)) :
    s.prefill = .ok ((s.rewind.filled false).filled true) := by
  have hcur : CursorOk s.rewind := ⟨Nat.zero_le _, nofun⟩
  have h₀ : s.rewind.fill false = .ok (s.rewind.filled false) :=
    State.fill_ok _ _ (State.pixReadable_of_holds hp) hcap hcur.1
  have h₁ : (s.rewind.filled false).fill true = .ok ((s.rewind.filled false).filled true) :=
    State.fill_ok _ _ (State.pixReadable_of_holds (by simpa using hp)) (by simpa using hcap)
      (by simpa [State.streamEnd_eq] using (hcur.filled hcap false).1)
  simp only [State.prefill, h₀, h₁]

/-- The slot of a frame's cell, said of the stream: the bit's slot while data lasts, then 0 (rules R62, R207). -/
theorem State.slotFor_cellBit (s : State) (n : Nat) : slotFor s.mask (s.cellBit n) =
    if n < 24 * s.capacity.toNat then (if s.streamBit n then 0 else s.mask) else 0 := by
  unfold State.cellBit slotFor
  split <;> rfl

/-- A rewound encoder stands before the frame's first fill. -/
theorem State.atFill_rewind {s : State} (hpos : 1 ≤ s.capacity.toNat) : AtFill s.rewind 0 := ⟨by simp, by simp; omega⟩

section
variable {s : State} (hpos : 1 ≤ s.capacity.toNat) (hcap : s.capacity.toNat ≤ 1024)
include hpos hcap

/-- The encoder after the prefill, and the idle fill it counted if six pixels were all (rules R203, R210). -/
theorem State.prefilled_encoder :
    ((s.rewind.filled false).filled true).cursor = BitVec.ofNat 12 (min 36 (3 * s.capacity.toNat)) ∧
    ((s.rewind.filled false).filled true).endReached = decide (s.capacity.toNat ≤ 12) ∧
    ((s.rewind.filled false).filled true).drainCount = if s.capacity.toNat ≤ 6 then 1 else 0 := by
  have h₁ := (State.atFill_rewind hpos).next hcap false
  have h₂ := h₁.next (by simpa using hcap) true
  refine ⟨?_, ?_, ?_⟩
  · apply BitVec.eq_of_toNat_eq
    rw [State.prefilled_cursor s hcap, toNat_cursor_ofNat hcap (Nat.min_le_right _ _)]
  · rw [h₂.endR, decide_eq_decide]
    simp only [State.filled_capacity, State.rewind_capacity]
    omega
  · rw [State.filled_drainCount, State.filled_drainCount, h₁.endR]
    simp only [State.filled_capacity, State.rewind_capacity, State.rewind_endReached, State.rewind_drainCount,
      Bool.false_eq_true, if_false, decide_eq_true_eq]
    by_cases h6 : s.capacity.toNat ≤ 6
    · rw [if_pos (by omega), if_pos h6]; rfl
    · rw [if_neg (by omega), if_neg h6]

/-- The two fills of the prefill hold the frame's first 288 cells (rules R95, R203). -/
theorem State.read_prefilled {k : Nat} (hk : k < 144) :
    Memory.read ((s.rewind.filled false).filled true).wb0 (evenSlot k) = some (slotFor s.mask (s.cellBit k)) ∧
    Memory.read ((s.rewind.filled false).filled true).wb1 (evenSlot k) = some (slotFor s.mask (s.cellBit (144 + k))) := by
  have h₀ := State.atFill_rewind hpos
  have h₁ := h₀.next hcap false
  have hwb0 : ((s.rewind.filled false).filled true).wb0 = Memory.evenWrites s.wb0 0 s.rewind.fillSlot 144 :=
    (State.filled_mem_other (h := true) (g := false) _ (by decide)).trans
      ((State.filled_mem_self _ false).trans (by rw [State.rewind_mem]; rfl))
  have hwb1 := State.filled_mem_self (s.rewind.filled false) true
  have hpix : (s.rewind.filled false).cellBit = s.cellBit := State.cellBit_congr (by simp) (by simp)
  refine ⟨?_, ?_⟩
  · rw [hwb0, Memory.read_evenWrites, if_pos (by omega), h₀.slot, State.cellBit_congr (s := s) (t := s.rewind) rfl rfl]
    simp
  · rw [← State.mem_wb_true, hwb1, Memory.read_evenWrites, if_pos (by omega), h₁.slot, hpix]
    simp

end

/-- Settles O40: the prefill's two fills in closed form, then the launch. -/
theorem triggerStartsTheFrame : Obligations.TriggerStartsTheFrame := by
  intro s hs hh hip hpos hcap hpix
  have hprefill := State.prefill_filled hcap hpix
  obtain ⟨hcur, hend, hdrain⟩ := State.prefilled_encoder hpos hcap
  have hslots := fun k => State.read_prefilled hpos hcap (k := k)
  generalize (s.rewind.filled false).filled true = u at hprefill hcur hend hdrain hslots
  have hex : exec .triggerUpdate s = .next u.launch := by
    simp [exec, execTriggerUpdate, State.deviceReady, hs, hh, hip, hprefill]
  obtain ⟨m₀, m₁, c, e, d, rfl, h₀, h₁⟩ := State.prefill_shape hprefill
  obtain rfl : c = _ := hcur
  obtain rfl : e = _ := hend
  obtain rfl : d = _ := hdrain
  refine ⟨_, hex, ?_, fun k hk => ?_, fun a ha => ⟨h₀.2 a ha, h₁.2 a ha⟩⟩
  · simp [State.launch, State.arm_eq, State.clearTraces, State.complete, State.respond]
  · obtain ⟨hk₀, hk₁⟩ := hslots k hk
    exact ⟨hk₀.trans (by rw [State.slotFor_cellBit]), hk₁.trans (by rw [State.slotFor_cellBit])⟩

/-- After SET_ALL of black every bit of the stream is 0. -/
theorem State.streamBit_black {t : State} (hblack : ∀ i, i < t.capacity.toNat → Memory.read t.pix (3 * i) = some 0 ∧
    Memory.read t.pix (3 * i + 1) = some 0 ∧ Memory.read t.pix (3 * i + 2) = some 0) {n : Nat}
    (hn : n < 24 * t.capacity.toNat) : t.streamBit n = false := by
  obtain ⟨hr, hg, hb⟩ := hblack (n / 24) (by omega)
  have hchannel : n / 8 = 3 * (n / 24) ∨ n / 8 = 3 * (n / 24) + 1 ∨ n / 8 = 3 * (n / 24) + 2 := by omega
  have hread : Memory.read t.pix (n / 8) = some 0 := by
    rcases hchannel with h | h | h <;> rw [h] <;> assumption
  simp [State.streamBit_of_read hread, byteBit]

/-- Settles O42: the cells of a black frame carry 0 bits, each the mask. -/
theorem blackFrameSlots : Obligations.BlackFrameSlots := by
  intro s hc hs hh hip
  obtain ⟨t, hex, ht, hblack, -⟩ := setAllWritesEveryPixel s 0 0 0 hs hh
  have hd : t.DeviceOk := exec_keeps_deviceOk hs (hc.after hs) hex
  have hcap : t.capacity = s.capacity := by rw [ht]
  have hmask : t.mask = s.mask := by rw [ht]
  obtain ⟨u, hu, -, hslots, -⟩ := triggerStartsTheFrame t (by rw [ht]; exact hs) (by rw [ht]; exact hh)
    (by rw [ht]; exact hip) hd.capacity_pos hd.capacity_le hd.pix_holds
  rw [← hcap] at hblack ⊢
  rw [← hmask]
  refine ⟨t, u, hex, hu, fun n hn => ?_⟩
  have hcell : ∀ i, (if i < 24 * t.capacity.toNat then (if t.streamBit i then 0 else t.mask) else 0) =
      if i < 24 * t.capacity.toNat then t.mask else 0 := fun i => by
    split
    · next hi => simp [State.streamBit_black hblack hi]
    · rfl
  obtain ⟨h₀, h₁⟩ := hslots (n % 144) (by omega)
  by_cases hhalf : 144 ≤ n
  · rw [decide_eq_true hhalf]
    rw [show 144 + n % 144 = n by omega, hcell] at h₁
    exact h₁
  · rw [decide_eq_false hhalf]
    rw [hcell] at h₀
    rw [Nat.mod_eq_of_lt (by omega : n < 144)] at h₀ ⊢
    exact h₀

/-! ### REFILL -/

/-- What a fill can change, with its count of idle fills (rules R150, R158). -/
theorem State.filled_shape (s : State) (h : Half) :
    ∃ m c e, s.filled h = s.afterFill h m c e (if s.endReached then s.drainCount + 1 else s.drainCount) := by
  unfold State.filled
  split
  · generalize Memory.evenWrites _ _ _ _ = m
    exact ⟨m, s.cursor, s.endReached, by cases h <;> rfl⟩
  · generalize Memory.evenWrites _ _ _ _ = m
    exact ⟨m, _, _, by cases h <;> rfl⟩

/-- A REFILL that fills half `h`, in one record update. -/
theorem State.refilled_eq (s : State) (h : Half) (m : Memory) (c : BitVec 12) (e : Bool) (d : BitVec 2) (p : Phase) :
    ((s.toggleActive.afterFill h m c e d).setPhase p).returnFromEvent =
      { s with activeHalf := !s.activeHalf, halfDonePending := false, cursor := c, endReached := e, drainCount := d,
               phase := p }.setMem (.wb h) m := by
  cases h <;> rfl

/-- Settles O43: the fill of the half just consumed in closed form, read slot by slot. -/
theorem refillFillsTheConsumedHalf : Obligations.RefillFillsTheConsumedHalf := by
  intro s hpend hdr hcap hpix hcur
  have hdr' : s.drained = false := by
    rw [← Bool.not_eq_true, State.drained_iff]
    exact hdr
  have hmem := State.filled_mem_self s.toggleActive s.activeHalf
  refine ⟨_, execRefill_filled hpend hdr' (State.pixReadable_of_holds hpix) hcap hcur, ?_, ?_, ?_, fun k hk => ?_,
    fun a ha => ?_⟩
  · obtain ⟨m, c, e, hfilled⟩ := State.filled_shape s.toggleActive s.activeHalf
    rw [hfilled, State.refilled_eq]
    simp only [State.setMem_cursor, State.setMem_endReached, State.mem_setMem_self]
    rfl
  · exact State.filled_cursor s.toggleActive s.activeHalf hcap
  · exact State.filled_endReached s.toggleActive s.activeHalf hcap
  · rw [State.returnFromEvent_mem, State.setPhase_mem, hmem]
    exact (Memory.read_evenWrites _ 0 _ 144 k).trans (if_pos (by omega))
  · rw [State.returnFromEvent_mem, State.setPhase_mem, hmem, State.toggleActive_mem]
    exact (Memory.onlyEven_evenWrites _ 0 _ 144 (by omega)).2 a ha

/-- Settles O44: STOP, and the frame's fields cleared. -/
theorem refillEndsTheFrame : Obligations.RefillEndsTheFrame := by
  intro s hpend hphase hcount
  rw [exec, execRefill_drained hpend ((State.drained_iff s).2 ⟨hphase, hcount⟩), State.finishFrame,
    State.stop_eq_of_mask]
  rfl

end Sys2Proof.Machine
end

section
/-!
PROOFS. The frame state machine and the isolation of a frame (44_refill_controller.md section 1, 10_state.md section 2,
20_memory.md section 3): which step changes `phase`, which writes a waveform buffer, what a host step can reach during a
frame, and that no step reads the pin's lane or mode.
-/

namespace Sys2Proof.Machine

/-! ### The frame state machine -/

/-- Only TRIGGER_UPDATE and REFILL move the frame state machine of a Device (rule R206). -/
theorem exec_phase_of_other {i : Instr} {s t : State} (h : exec i s = .next t) (hs : s.initialized = true)
    (htr : i ≠ .triggerUpdate) (hrf : i ≠ .refill) : t.phase = s.phase := by
  cases i with
  | init maxLeds pinMask16 drive =>
    rw [execInit_refused h hs]
    rfl
  | set index r g b =>
    rcases execSet_cases h with ⟨-, rfl⟩ | ⟨-, -, rfl⟩ | ⟨-, -, rfl⟩
    · rfl
    · rfl
    · simp [State.writePixel_eq]
  | setAll r g b =>
    rcases execSetAll_cases h with ⟨-, rfl⟩ | ⟨-, rfl⟩
    · rfl
    · simp [State.writePixels_eq]
  | triggerUpdate => exact absurd rfl htr
  | tickStart =>
    obtain ⟨-, -, ⟨-, v, -, rfl⟩ | ⟨-, rfl⟩⟩ := execTickStart_cases h
    · simp
    · rfl
  | tickSlot =>
    obtain ⟨-, -, ⟨-, v, -, rfl⟩ | ⟨-, rfl⟩⟩ := execTickSlot_cases h
    · simp
    · rfl
  | refill => exact absurd rfl hrf

/-- During a frame TRIGGER_UPDATE leaves the state machine alone (rules R202, R206). -/
theorem execTriggerUpdate_inFrame_phase {s t : State} (hip : s.inProgress = true) (h : execTriggerUpdate s = .next t) :
    t.phase = s.phase := by
  rw [execTriggerUpdate_inFrame hip h]

section
variable {s : State} (hd : s.DeviceOk)
include hd

/-- An accepted TRIGGER_UPDATE of an idle Device, as the state machine sees it. -/
theorem State.DeviceOk.trigger_phase (hs : s.initialized = true) (hh : s.halted = false) (hip : s.inProgress = false) :
    ∃ t, exec .triggerUpdate s = .next t ∧ t.endReached = decide (s.capacity.toNat ≤ 12) ∧
      t.phase = if t.endReached then .draining else .fillingFirstHalf := by
  obtain ⟨t, hex, ht, -⟩ := triggerStartsTheFrame s hs hh hip hd.capacity_pos hd.capacity_le hd.pix_holds
  refine ⟨t, hex, by rw [ht], ?_⟩
  rw [ht]
  simp

/-- REFILL before the drain is over, as the state machine sees it: the boundary flag, once set, stays set. -/
theorem State.DeviceOk.refill_phase (hpend : s.halfDonePending = true) (hdr : s.drained = false) :
    ∃ t, exec .refill s = .next t ∧ (s.endReached = true → t.endReached = true) ∧
      t.phase = if t.endReached then .draining else .streaming := by
  have hnot : ¬ (s.phase = .draining ∧ 2 ≤ s.drainCount.toNat) := by rw [← State.drained_iff]; simp [hdr]
  obtain ⟨t, hex, ht, -, hend, -⟩ := refillFillsTheConsumedHalf s hpend hnot hd.capacity_le hd.pix_holds hd.cursor_le
  refine ⟨t, hex, fun he => by rw [hend, he, Bool.true_or], ?_⟩
  have hphase := congrArg State.phase ht
  rwa [State.setMem_phase] at hphase

/-- REFILL in DRAINING: one more idle fill, or the end of the frame (rule R209). -/
theorem State.DeviceOk.refill_draining (hpend : s.halfDonePending = true) (hph : s.phase = .draining) :
    ∃ t, exec .refill s = .next t ∧ t.phase = if 2 ≤ s.drainCount.toNat then .idle else .draining := by
  by_cases hcount : 2 ≤ s.drainCount.toNat
  · exact ⟨_, refillEndsTheFrame s hpend hph hcount, by rw [if_pos hcount]⟩
  · have hdr : s.drained = false := by
      rw [← Bool.not_eq_true, State.drained_iff]
      exact fun h => hcount h.2
    obtain ⟨t, hex, hend, hphase⟩ := hd.refill_phase hpend hdr
    exact ⟨t, hex, by rw [hphase, hend (hd.draining_end hph), if_pos rfl, if_neg hcount]⟩

/-- In IDLE no event is pending: REFILL cannot occur there (rules R204, R206). -/
theorem State.DeviceOk.not_idle_of_pending (hpend : s.halfDonePending = true) : s.phase ≠ .idle := fun hidle => by
  have hip : s.inProgress = true := hd.engines.1 ▸ hd.pending_running hpend
  simp [hd.idle_iff.1 hidle] at hip

end

/-- The rows of the table that change `phase` (44_refill_controller.md section 1). -/
def PhaseRow (i : Instr) (s t : State) : Prop :=
  (i = .triggerUpdate ∧ s.phase = .idle ∧ 13 ≤ s.capacity.toNat ∧ t.endReached = false ∧ t.phase = .fillingFirstHalf) ∨
  (i = .triggerUpdate ∧ s.phase = .idle ∧ s.capacity.toNat ≤ 12 ∧ t.endReached = true ∧ t.phase = .draining) ∨
  (i = .refill ∧ s.phase = .fillingFirstHalf ∧ t.endReached = false ∧ t.phase = .streaming) ∨
  (i = .refill ∧ (s.phase = .fillingFirstHalf ∨ s.phase = .streaming) ∧ t.endReached = true ∧ t.phase = .draining) ∨
  (i = .refill ∧ s.phase = .draining ∧ 2 ≤ s.drainCount.toNat ∧ t.phase = .idle)

theorem execTriggerUpdate_phaseRow {s t : State} (hd : s.DeviceOk) (hs : s.initialized = true)
    (h : exec .triggerUpdate s = .next t) (hne : t.phase ≠ s.phase) : PhaseRow .triggerUpdate s t := by
  have hip : s.inProgress = false := by
    by_contra hon
    exact hne (execTriggerUpdate_inFrame_phase (by simpa using hon) h)
  have hh : s.halted = false := by
    by_contra hhalt
    rw [← outcome_next_inj ((exec_refused_of_halted rfl (by simpa using hhalt)).symm.trans h)] at hne
    exact hne rfl
  obtain ⟨u, hu, hend, hphase⟩ := hd.trigger_phase hs hh hip
  obtain rfl := outcome_next_inj (hu.symm.trans h)
  have hidle := hd.idle_iff.2 hip
  by_cases hcap : s.capacity.toNat ≤ 12
  · rw [decide_eq_true hcap] at hend
    exact .inr (.inl ⟨rfl, hidle, hcap, hend, by rw [hphase, hend, if_pos rfl]⟩)
  · rw [decide_eq_false hcap] at hend
    exact .inl ⟨rfl, hidle, by omega, hend, by rw [hphase, hend]; rfl⟩

theorem execRefill_phaseRow {s t : State} (hd : s.DeviceOk) (h : exec .refill s = .next t) (hne : t.phase ≠ s.phase) :
    PhaseRow .refill s t := by
  obtain ⟨hpend, -⟩ := execRefill_cases h
  cases hph : s.phase with
  | idle => exact absurd hph (hd.not_idle_of_pending hpend)
  | draining =>
    obtain ⟨u, hu, hphase⟩ := hd.refill_draining hpend hph
    obtain rfl := outcome_next_inj (hu.symm.trans h)
    by_cases hcount : 2 ≤ s.drainCount.toNat
    · exact .inr (.inr (.inr (.inr ⟨rfl, hph, hcount, by rw [hphase, if_pos hcount]⟩)))
    · rw [hphase, if_neg hcount, hph] at hne
      exact absurd rfl hne
  | fillingFirstHalf =>
    obtain ⟨u, hu, -, hphase⟩ := hd.refill_phase hpend (by simp [State.drained, hph])
    obtain rfl := outcome_next_inj (hu.symm.trans h)
    cases hend : u.endReached with
    | true => exact .inr (.inr (.inr (.inl ⟨rfl, .inl hph, hend, by rw [hphase, hend, if_pos rfl]⟩)))
    | false => exact .inr (.inr (.inl ⟨rfl, hph, hend, by rw [hphase, hend]; rfl⟩))
  | streaming =>
    obtain ⟨u, hu, -, hphase⟩ := hd.refill_phase hpend (by simp [State.drained, hph])
    obtain rfl := outcome_next_inj (hu.symm.trans h)
    cases hend : u.endReached with
    | true => exact .inr (.inr (.inr (.inl ⟨rfl, .inr hph, hend, by rw [hphase, hend, if_pos rfl]⟩)))
    | false =>
      rw [hphase, hend, hph] at hne
      exact absurd rfl hne

/-- Settles O45: the rows by which TRIGGER_UPDATE and REFILL change `phase`, and each row where its condition holds. -/
theorem phaseTransitions : Obligations.PhaseTransitions := by
  refine ⟨fun i s t hc hs h hne => ?_, fun s hc hs => ?_⟩
  · show PhaseRow i s t
    have hd := hc.after hs
    by_cases htr : i = .triggerUpdate
    · subst htr
      exact execTriggerUpdate_phaseRow hd hs h hne
    by_cases hrf : i = .refill
    · subst hrf
      exact execRefill_phaseRow hd h hne
    · exact absurd (exec_phase_of_other h hs htr hrf) hne
  · have hd := hc.after hs
    refine ⟨fun hidle hh => hd.trigger_phase hs hh (hd.idle_iff.1 hidle), fun hbusy => ?_, fun hph hpend => ?_,
      fun hph hpend => hd.refill_draining hpend hph, fun hidle => ?_⟩
    · have hip : s.inProgress = true := by
        by_contra hoff
        exact hbusy (hd.idle_iff.2 (by simpa using hoff))
      obtain ⟨t, h⟩ := execTriggerUpdate_completes hc.after
      exact ⟨hip, t, h, execTriggerUpdate_inFrame_phase hip h⟩
    · have hdr : s.drained = false := by rcases hph with hph | hph <;> simp [State.drained, hph]
      obtain ⟨t, h, -, hphase⟩ := hd.refill_phase hpend hdr
      exact ⟨t, h, hphase⟩
    · by_contra hpend
      exact hd.not_idle_of_pending (by simpa using hpend) hidle

/-! ### Who writes a waveform buffer -/

/-- During a frame of a Device only REFILL writes a waveform buffer (20_memory.md section 3). -/
theorem exec_keeps_buffers {i : Instr} {s t : State} (hs : s.initialized = true) (hip : s.inProgress = true)
    (hrf : i ≠ .refill) (h : exec i s = .next t) (b : Half) : t.mem (.wb b) = s.mem (.wb b) := by
  cases i with
  | init maxLeds pinMask16 drive =>
    rw [execInit_refused h hs]
    rfl
  | set index r g b' =>
    rcases execSet_cases h with ⟨-, rfl⟩ | ⟨-, -, rfl⟩ | ⟨-, -, rfl⟩
    · rfl
    · rfl
    · simp [State.writePixel_eq]
  | setAll r g b' =>
    rcases execSetAll_cases h with ⟨-, rfl⟩ | ⟨-, rfl⟩
    · rfl
    · simp [State.writePixels_eq]
  | triggerUpdate =>
    rw [execTriggerUpdate_inFrame hip h]
    cases b <;> rfl
  | tickStart =>
    obtain ⟨-, -, ⟨-, v, -, rfl⟩ | ⟨-, rfl⟩⟩ := execTickStart_cases h
    · simp
    · rfl
  | tickSlot =>
    obtain ⟨-, -, ⟨-, v, -, rfl⟩ | ⟨-, rfl⟩⟩ := execTickSlot_cases h
    · simp [State.advanceSlot_mem]
    · rfl
  | refill => exact absurd rfl hrf

/-- REFILL writes no buffer but the half it takes to be consumed (rules R205, R209). -/
theorem execRefill_keeps_buffer {s t : State} (h : execRefill s = .next t) {b : Half} (hb : s.activeHalf ≠ b) :
    t.mem (.wb b) = s.mem (.wb b) := by
  obtain ⟨-, ⟨-, rfl⟩ | ⟨-, u, hu, rfl⟩⟩ := execRefill_cases h
  · simp [State.finishFrame_mem]
  · obtain ⟨m, c, e, d, rfl, -⟩ := State.fill_shape hu
    rw [State.returnFromEvent_mem, State.setPhase_mem,
      State.afterFill_mem_other _ _ _ _ _ _ (fun hsp => hb (Space.wb.inj hsp)), State.toggleActive_mem]

/-- Settles O46: while no deadline was missed, the half REFILL takes to be consumed is not the one being read. -/
theorem halfBeingReadIsNotWritten : Obligations.HalfBeingReadIsNotWritten := by
  intro i s t hc ht hmiss h
  have hd := hc.device_of_running ht
  have hs : s.initialized = true := by
    by_contra hoff
    simp [(hc.before (by simpa using hoff)).timEn] at ht
  have hip : s.inProgress = true := hd.engines.1 ▸ ht
  refine ⟨?_, fun hrf => exec_keeps_buffers hs hip hrf h _⟩
  by_cases hrf : i = .refill
  · subst hrf
    obtain ⟨hpend, -⟩ := execRefill_cases h
    refine execRefill_keeps_buffer h ?_
    rw [hd.mirror ht hmiss, hpend]
    simp
  · exact exec_keeps_buffers hs hip hrf h _

/-! ### What a host step can reach during a frame -/

/-- Settles O50, step by step: during a frame a pixel write voids it, and every other host step is a response or the halt. -/
theorem hostCannotDisturbAFrame : Obligations.HostCannotDisturbAFrame := by
  intro i s t hi hs hip h
  cases i with
  | init maxLeds pinMask16 drive =>
    rw [execInit_refused h hs]
    exact ⟨rfl, fun hne => absurd rfl hne⟩
  | set index r g b =>
    rcases execSet_cases h with ⟨-, rfl⟩ | ⟨-, -, rfl⟩ | ⟨-, -, rfl⟩
    · exact ⟨rfl, fun hne => absurd rfl hne⟩
    · exact ⟨rfl, fun hne => absurd rfl hne⟩
    · rw [State.writePixel_eq]
      exact ⟨rfl, fun _ => by simp [hip]⟩
  | setAll r g b =>
    rcases execSetAll_cases h with ⟨-, rfl⟩ | ⟨-, rfl⟩
    · exact ⟨rfl, fun hne => absurd rfl hne⟩
    · rw [State.writePixels_eq]
      exact ⟨rfl, fun _ => by simp [hip]⟩
  | triggerUpdate =>
    rw [execTriggerUpdate_inFrame hip h]
    exact ⟨rfl, fun hne => absurd rfl hne⟩
  | tickStart | tickSlot | refill => cases hi

end Sys2Proof.Machine
end

section
/-!
PROOFS. The pin's lane and mode (40_device_init.md, 20_memory.md section 1): every operation of a step commutes with replacing
them, so no step but INIT reads them.
-/

namespace Sys2Proof.Machine

/-- The Device with another lane and drive mode. -/
def State.withPin (lane mode : BitVec 1) (s : State) : State := { s with pinLane := lane, pinMode := mode }

/-- An outcome with its next state, if it has one, changed. -/
def mapNext (f : State → State) : Host.Outcome State Fault Refusal → Host.Outcome State Fault Refusal
  | .next s => .next (f s)
  | .fault e => .fault e
  | .refused e => .refused e

section
variable (lane mode : BitVec 1)

/-! ### The operations -/

theorem State.mem_withPin (s : State) (sp : Space) : (s.withPin lane mode).mem sp = s.mem sp := by
  cases sp with | wb h => cases h <;> rfl | _ => rfl

theorem State.memRead_withPin (s : State) (sp : Space) (a : Nat) :
    (s.withPin lane mode).memRead sp a = s.memRead sp a := by
  cases sp with | wb h => cases h <;> rfl | _ => rfl

theorem State.setMem_withPin (s : State) (sp : Space) (m : Memory) :
    (s.withPin lane mode).setMem sp m = (s.setMem sp m).withPin lane mode := by
  cases sp with | wb h => cases h <;> rfl | _ => rfl

theorem State.writeEvenSlots_withPin (s : State) (h : Half) (k : Nat) (f : Nat → Byte) (n : Nat) :
    (s.withPin lane mode).writeEvenSlots h k f n = (s.writeEvenSlots h k f n).withPin lane mode := by
  rw [State.writeEvenSlots_eq, State.writeEvenSlots_eq, State.mem_withPin, State.setMem_withPin]

theorem State.portWrite_withPin (s : State) (p : Port) (v : Byte) :
    (s.withPin lane mode).portWrite p v = (s.portWrite p v).withPin lane mode := by
  rw [State.portWrite_eq, State.portWrite_eq]
  rfl

theorem State.recordCell_withPin (s : State) :
    (s.withPin lane mode).recordCell = s.recordCell.withPin lane mode := by
  rw [State.recordCell_eq, State.recordCell_eq]
  rfl

theorem State.advanceSlot_withPin (s : State) :
    (s.withPin lane mode).advanceSlot = s.advanceSlot.withPin lane mode := by
  rw [State.advanceSlot_eq, State.advanceSlot_eq]
  rfl

/-! ### The fills -/

theorem State.encodeBytes_withPin (n : Nat) : ∀ (s : State) (h : Half) (k : Nat),
    (s.withPin lane mode).encodeBytes h k n =
      (s.encodeBytes h k n).map (fun r => (r.1, r.2.withPin lane mode)) := by
  induction n with
  | zero => intro s h k; rfl
  | succ n ih =>
    intro s h k
    have hcur : (s.withPin lane mode).cursor = s.cursor := rfl
    have hend : (s.withPin lane mode).streamEnd = s.streamEnd := rfl
    simp only [State.encodeBytes, hcur, hend, State.memRead_withPin]
    split
    · cases s.memRead .pix s.cursor.toNat with
      | error f => rfl
      | ok v =>
        have hstep : ((s.withPin lane mode).encodeByte h k v).setCursor (s.cursor + 1) =
            ((s.encodeByte h k v).setCursor (s.cursor + 1)).withPin lane mode := by
          rw [State.encodeByte, State.writeEvenSlots_withPin]
          rfl
        simp only [hstep, ih]
    · rfl

theorem State.encodeHalf_withPin (s : State) (h : Half) :
    (s.withPin lane mode).encodeHalf h = (s.encodeHalf h).map (State.withPin lane mode) := by
  simp only [State.encodeHalf, State.encodeHalfWith, State.encodeBytes_withPin]
  cases s.encodeBytes h 0 Config.bytesPerHalf with
  | error f => rfl
  | ok r =>
    simp only [Except.map, Config.tailPolicy, State.padTail, State.writeEvenSlots_withPin]
    rfl

theorem State.fill_withPin (s : State) (h : Half) :
    (s.withPin lane mode).fill h = (s.fill h).map (State.withPin lane mode) := by
  have hend : (s.withPin lane mode).endReached = s.endReached := rfl
  simp only [State.fill, hend, State.encodeHalf_withPin, State.fillIdle, State.writeEvenSlots_withPin]
  split <;> rfl

theorem State.prefill_withPin (s : State) :
    (s.withPin lane mode).prefill = s.prefill.map (State.withPin lane mode) := by
  have hrewind : (s.withPin lane mode).rewind = s.rewind.withPin lane mode := rfl
  simp only [State.prefill, hrewind, State.fill_withPin]
  cases s.rewind.fill false with
  | error f => rfl
  | ok t => simp only [Except.map, State.fill_withPin]

/-! ### The meanings -/

theorem execSet_withPin (index : BitVec 16) (r g b : Byte) (s : State) :
    execSet index r g b (s.withPin lane mode) = mapNext (State.withPin lane mode) (execSet index r g b s) := by
  have hready : (s.withPin lane mode).deviceReady = s.deviceReady := rfl
  have hcap : (s.withPin lane mode).capacity = s.capacity := rfl
  simp only [execSet, hready, hcap]
  split_ifs <;> rfl

theorem execSetAll_withPin (r g b : Byte) (s : State) :
    execSetAll r g b (s.withPin lane mode) = mapNext (State.withPin lane mode) (execSetAll r g b s) := by
  have hready : (s.withPin lane mode).deviceReady = s.deviceReady := rfl
  simp only [execSetAll, hready, State.writePixels_eq, State.setMem_withPin]
  split_ifs <;> rfl

theorem execTriggerUpdate_withPin (s : State) :
    execTriggerUpdate (s.withPin lane mode) = mapNext (State.withPin lane mode) (execTriggerUpdate s) := by
  have hready : (s.withPin lane mode).deviceReady = s.deviceReady := rfl
  have hip : (s.withPin lane mode).inProgress = s.inProgress := rfl
  simp only [execTriggerUpdate, hready, hip, State.prefill_withPin]
  split_ifs
  · rfl
  · rfl
  · cases s.prefill <;> rfl

theorem execTickStart_withPin (s : State) :
    execTickStart (s.withPin lane mode) = mapNext (State.withPin lane mode) (execTickStart s) := by
  have hen : (s.withPin lane mode).tickStartEnabled = s.tickStartEnabled := rfl
  have hidle : (s.withPin lane mode).idleEn = s.idleEn := rfl
  simp only [execTickStart, hen, hidle, State.memRead_withPin, State.portWrite_withPin]
  split_ifs
  · rfl
  · cases s.memRead .isb 0 <;> rfl
  · rfl

theorem execTickSlot_withPin (s : State) :
    execTickSlot (s.withPin lane mode) = mapNext (State.withPin lane mode) (execTickSlot s) := by
  have hen : (s.withPin lane mode).tickSlotEnabled = s.tickSlotEnabled := rfl
  have henc : (s.withPin lane mode).encEn = s.encEn := rfl
  have hct : (s.withPin lane mode).encCt = s.encCt := rfl
  have hpos : (s.withPin lane mode).encPos = s.encPos := rfl
  simp only [execTickSlot, hen, henc, hct, hpos, State.memRead_withPin, State.recordCell_withPin,
    State.portWrite_withPin, State.advanceSlot_withPin]
  split_ifs
  · rfl
  · cases s.memRead (.wb s.encCt) s.encPos.toNat <;> rfl
  · rfl

theorem execRefill_withPin (s : State) :
    execRefill (s.withPin lane mode) = mapNext (State.withPin lane mode) (execRefill s) := by
  have hen : (s.withPin lane mode).refillEnabled = s.refillEnabled := rfl
  have htoggle : (s.withPin lane mode).toggleActive = s.toggleActive.withPin lane mode := rfl
  have hdr : (s.toggleActive.withPin lane mode).drained = s.toggleActive.drained := rfl
  have hhalf : (s.toggleActive.withPin lane mode).activeHalf = s.toggleActive.activeHalf := rfl
  have hfinish : (s.toggleActive.withPin lane mode).finishFrame = s.toggleActive.finishFrame.withPin lane mode := by
    rw [State.finishFrame, State.finishFrame, State.stop_eq_of_mask, State.stop_eq_of_mask]
    rfl
  simp only [execRefill, hen, htoggle, hdr, hhalf, hfinish, State.refillHalf, State.fill_withPin]
  split_ifs
  · rfl
  · rfl
  · cases s.toggleActive.fill (!s.toggleActive.activeHalf) <;> rfl

/-- Apart from INIT, a step does the same whatever the lane and the mode hold. -/
theorem exec_withPin {i : Instr} (hi : ∀ maxLeds pinMask16 drive, i ≠ .init maxLeds pinMask16 drive) (s : State) :
    exec i (s.withPin lane mode) = mapNext (State.withPin lane mode) (exec i s) := by
  cases i with
  | init maxLeds pinMask16 drive => exact absurd rfl (hi maxLeds pinMask16 drive)
  | set index r g b => exact execSet_withPin lane mode index r g b s
  | setAll r g b => exact execSetAll_withPin lane mode r g b s
  | triggerUpdate => exact execTriggerUpdate_withPin lane mode s
  | tickStart => exact execTickStart_withPin lane mode s
  | tickSlot => exact execTickSlot_withPin lane mode s
  | refill => exact execRefill_withPin lane mode s

end

/-- Settles O52: every meaning but INIT's commutes with replacing the lane and the mode. -/
theorem pinModeAndLaneUnread : Obligations.PinModeAndLaneUnread := by
  intro i s t lane mode hi h
  have hcomm := exec_withPin lane mode hi s
  rwa [h] at hcomm

end Sys2Proof.Machine
end
